-- ==== Sys2Proof/Word.lean ====
section
/-! DEFINITION. The word types of the block and the fixed vocabularies of its encodings.
Widths are those of `00_scope.md` R8: lengths, tags, trailing values and image dimensions are 32 bits,
descriptor bytes and stream elements 8 bits; `BPS` and `COL` are 39 bits (`10_state.md` R31, R34). -/

namespace Sys2Proof

/-- One stream element (R8). -/
abbrev Byte := BitVec 8

/-- A chunk length, type tag, trailing value or image dimension (R8). -/
abbrev Word32 := BitVec 32

/-- A count of bytes in a row (R31, R34). -/
abbrev Word39 := BitVec 39

/-- The five formats of the opcode table (`30_encoding.md` R118). -/
inductive Format where
  | signature
  | chunkHeader
  | colourType
  | filterByte
  | filterByteEncode
  deriving DecidableEq, Repr

/-- The chunk classes of `30_encoding.md` R94. -/
inductive ChunkClass where
  | ihdr
  | idat
  | iend
  | plte
  | other
  deriving DecidableEq, Repr

/-- The legal colour types of `30_encoding.md` R96. -/
inductive ColourType where
  | gray
  | rgb
  | indexed
  | graya
  | rgba
  deriving DecidableEq, Repr

/-- The legal filter types of `30_encoding.md` R99; the values register `FT` can hold (`10_state.md` R35). -/
inductive FilterType where
  | none
  | sub
  | up
  | avg
  | paeth
  deriving DecidableEq, Repr

end Sys2Proof
end

