-- ==== Sys2Proof/Config.lean ====
section
/-! DEFINITION. What the instance or the environment fixes (`00_scope.md` R7): constants with no body, so that
no proof can lean on a value of them. -/

namespace Sys2Proof

/-- `LB_BYTES` less one. -/
opaque Config.lbBytesPred : Nat

/-- `LB_BYTES`, "a natural number at least 1, the capacity in bytes of each of the two line buffers" (R7). -/
def Config.lbBytes : Nat := Config.lbBytesPred + 1

/-- `inflate`, "a total function from byte lists to either a byte list or failure" (R7); `none` is failure. -/
opaque Config.inflate : List Byte → Option (List Byte)

/-- `deflate`, used only by the reference function `encode_plane` (R7, R239). -/
opaque Config.deflate : List Byte → List Byte

/-- The byte list `q` INFL delivers before `ZErr` when `inflate` of the C bytes fails, "of any length and content"
(`20_memory.md` R72; `93_implementation_defined.md` U3). -/
opaque Config.inflateGarbage : List Byte → List Byte

end Sys2Proof
end

