-- ==== Sys2Proof/Syntax.lean ====
section
/-! DEFINITION. The instructions: one constructor per row of `opcode_table.json` (`30_encoding.md` R118). -/

namespace Sys2Proof

/-- An instruction of the block. The chunk rows carry the operand `length`, and `other` its type tag as well. -/
inductive Instr where
  -- format SIGNATURE (R91)
  | sig
  -- format CHUNK_HEADER (R92, R94)
  | ihdr (length : Word32)
  | idat (length : Word32)
  | iend (length : Word32)
  | plte (length : Word32)
  | other (length : Word32) (tag : Word32)
  -- format COLOUR_TYPE (R96)
  | gray
  | rgb
  | indexed
  | graya
  | rgba
  -- format FILTER_BYTE (R99)
  | none
  | sub
  | up
  | avg
  | paeth
  -- format FILTER_BYTE_ENCODE (R118, `44_forward_reference.md`)
  | fwdNone
  | fwdSub
  | fwdUp
  | fwdAvg
  | fwdPaeth
  deriving DecidableEq, Repr

end Sys2Proof
end

