-- ==== Sys2Proof/WellFormed.lean ====
section
/-! DEFINITION. The check an instruction must pass to have an encoding. -/

namespace Sys2Proof

/-- The one constraint of the table: row `OTHER` "is selected only when none of the four matches"
(`30_encoding.md` R118), so its tag is none of the four recognised tags (R94). Every length is legal (R93). -/
def Instr.wf : Instr → Bool
  | .other _ tag =>
    tag != 0x49484452#32 && tag != 0x49444154#32 && tag != 0x49454E44#32 && tag != 0x504C5445#32
  | .sig | .ihdr _ | .idat _ | .iend _ | .plte _ => true
  | .gray | .rgb | .indexed | .graya | .rgba => true
  | .none | .sub | .up | .avg | .paeth => true
  | .fwdNone | .fwdSub | .fwdUp | .fwdAvg | .fwdPaeth => true

end Sys2Proof
end

