-- ==== Sys2Proof/Decode.lean ====
section
/-! DEFINITION. The decoder, total on every byte list and rejecting by name, then the encoder, both written from the
encoding tables of `30_encoding.md`. -/

namespace Sys2Proof

/-! ### Byte order (`00_scope.md` R9, `20_memory.md` R75) -/

/-- `BE32(b0,b1,b2,b3)`: `b0` arrived first and is the most significant (R9). -/
def be32 (b0 b1 b2 b3 : Byte) : Word32 := b0 ++ b1 ++ b2 ++ b3

/-- `BE32bytes(v)`: the four bytes of `v`, most significant first (`44_forward_reference.md` R231). -/
def be32Bytes (v : Word32) : List Byte :=
  [v.extractLsb' 24 8, v.extractLsb' 16 8, v.extractLsb' 8 8, v.extractLsb' 0 8]

/-- The eight bytes of a 64-bit table word, bits 63:56 first (R91, R92). -/
def be64Bytes (w : BitVec 64) : List Byte :=
  be32Bytes (w.extractLsb' 32 32) ++ be32Bytes (w.extractLsb' 0 32)

/-! ### Patterns -/

/-- SIGNATURE, in arrival order (R91). -/
def signature : List Byte :=
  [0x89#8, 0x50#8, 0x4E#8, 0x47#8, 0x0D#8, 0x0A#8, 0x1A#8, 0x0A#8]

/-- The tag "IHDR" (R94). -/
def ihdrTag : Word32 := 0x49484452#32
/-- The tag "IDAT" (R94). -/
def idatTag : Word32 := 0x49444154#32
/-- The tag "IEND" (R94). -/
def iendTag : Word32 := 0x49454E44#32
/-- The tag "PLTE" (R94). -/
def plteTag : Word32 := 0x504C5445#32

/-- `class(t)`: exact comparison of all 32 bits, else `OTHER` (R94, `41_dispatch.md` R151). -/
def classOf (t : Word32) : ChunkClass :=
  if t = ihdrTag then .ihdr
  else if t = idatTag then .idat
  else if t = iendTag then .iend
  else if t = plteTag then .plte
  else .other

/-- The instruction a chunk header with this length and tag encodes (R92, R94, R118). -/
def headerInstr (length tag : Word32) : Instr :=
  match classOf tag with
  | .ihdr => .ihdr length
  | .idat => .idat length
  | .iend => .iend length
  | .plte => .plte length
  | .other => .other length tag

/-- The colour type a byte encodes, if legal (R96). -/
def colourTypeOf (b : Byte) : Option ColourType :=
  if b = 0#8 then some .gray
  else if b = 2#8 then some .rgb
  else if b = 3#8 then some .indexed
  else if b = 4#8 then some .graya
  else if b = 6#8 then some .rgba
  else Option.none

/-- The byte that encodes a colour type (R96). -/
def ColourType.code : ColourType → Byte
  | .gray => 0#8
  | .rgb => 2#8
  | .indexed => 3#8
  | .graya => 4#8
  | .rgba => 6#8

/-- The table row of a colour type (R96). -/
def ColourType.instr : ColourType → Instr
  | .gray => .gray
  | .rgb => .rgb
  | .indexed => .indexed
  | .graya => .graya
  | .rgba => .rgba

/-- The filter type a byte encodes, if legal: all 8 bits select (R99). -/
def filterTypeOf (b : Byte) : Option FilterType :=
  if b = 0#8 then some .none
  else if b = 1#8 then some .sub
  else if b = 2#8 then some .up
  else if b = 3#8 then some .avg
  else if b = 4#8 then some .paeth
  else Option.none

/-- The byte that encodes a filter type (R99). -/
def FilterType.byte : FilterType → Byte
  | .none => 0#8
  | .sub => 1#8
  | .up => 2#8
  | .avg => 3#8
  | .paeth => 4#8

/-- The FILTER_BYTE row of a filter type (R99, R118). -/
def FilterType.instr : FilterType → Instr
  | .none => .none
  | .sub => .sub
  | .up => .up
  | .avg => .avg
  | .paeth => .paeth

/-- The FILTER_BYTE_ENCODE row of a filter type (R118). -/
def FilterType.fwdInstr : FilterType → Instr
  | .none => .fwdNone
  | .sub => .fwdSub
  | .up => .fwdUp
  | .avg => .fwdAvg
  | .paeth => .fwdPaeth

/-! ### The decoder -/

/-- Why a byte list encodes no instruction of a format (R101), or is too short for it. -/
inductive Reject where
  /-- The first 8 bytes are not the signature, or there are fewer (R101 (a), R131, R132). -/
  | badSignature
  /-- Fewer than 8 bytes are left for a chunk header (R134, R136). -/
  | shortHeader
  /-- A colour type byte outside the table (R101 (c)). -/
  | unsupportedColorType
  /-- A filter-type byte above 4 (R101 (b)). -/
  | unknownFilterType
  /-- No byte is left for a one-byte format. -/
  | noByte
  deriving DecidableEq, Repr

/-- What decoding answers: an instruction and the bytes after it, or a named rejection. -/
inductive Decoded where
  | ok (i : Instr) (rest : List Byte)
  | reject (r : Reject)
  deriving DecidableEq, Repr

/-- Decode one instruction of the given format at the front of a byte list. Where the block stands tells it the format
(R90, R98); a pattern no row matches is the illegal outcome of R101. -/
def decode : Format → List Byte → Decoded
  | .signature, bs =>
    if bs.take 8 = signature then .ok .sig (bs.drop 8) else .reject .badSignature
  | .chunkHeader, b0 :: b1 :: b2 :: b3 :: b4 :: b5 :: b6 :: b7 :: rest =>
    .ok (headerInstr (be32 b0 b1 b2 b3) (be32 b4 b5 b6 b7)) rest
  | .chunkHeader, _ => .reject .shortHeader
  | .colourType, [] => .reject .noByte
  | .colourType, b :: rest =>
    match colourTypeOf b with
    | some c => .ok c.instr rest
    | Option.none => .reject .unsupportedColorType
  | .filterByte, [] => .reject .noByte
  | .filterByte, b :: rest =>
    match filterTypeOf b with
    | some f => .ok f.instr rest
    | Option.none => .reject .unknownFilterType
  | .filterByteEncode, [] => .reject .noByte
  | .filterByteEncode, b :: rest =>
    match filterTypeOf b with
    | some f => .ok f.fwdInstr rest
    | Option.none => .reject .unknownFilterType

/-- The instruction of a decoding, if there is one. -/
def Decoded.instr? : Decoded → Option Instr
  | .ok i _ => some i
  | .reject _ => Option.none

/-- The instruction the decoder reads from a table word. A 64-bit word has its first byte in bits 63:56 (R91, R92); it is the
signature where it equals it, else a chunk header. A byte is looked up in FILTER_BYTE, then in COLOUR_TYPE: the table gives
both (and FILTER_BYTE_ENCODE) the same bytes, and only the place in a stream tells them apart (log entry 2). -/
def decodeTableWord (nbits w : Nat) : Option Instr :=
  if nbits = 64 then
    match decode .signature (be64Bytes (BitVec.ofNat 64 w)) with
    | .ok i _ => some i
    | .reject _ => (decode .chunkHeader (be64Bytes (BitVec.ofNat 64 w))).instr?
  else if nbits = 8 then
    match decode .filterByte [BitVec.ofNat 8 w] with
    | .ok i _ => some i
    | .reject _ => (decode .colourType [BitVec.ofNat 8 w]).instr?
  else Option.none

/-! ### The encoder -/

/-- The table format of an instruction (R118). -/
def Instr.format : Instr → Format
  | .sig => .signature
  | .ihdr _ | .idat _ | .iend _ | .plte _ | .other _ _ => .chunkHeader
  | .gray | .rgb | .indexed | .graya | .rgba => .colourType
  | .none | .sub | .up | .avg | .paeth => .filterByte
  | .fwdNone | .fwdSub | .fwdUp | .fwdAvg | .fwdPaeth => .filterByteEncode

/-- The bytes of an instruction in arrival order (R91, R92, R94, R96, R99, R118). -/
def encode : Instr → List Byte
  | .sig => signature
  | .ihdr length => be32Bytes length ++ be32Bytes ihdrTag
  | .idat length => be32Bytes length ++ be32Bytes idatTag
  | .iend length => be32Bytes length ++ be32Bytes iendTag
  | .plte length => be32Bytes length ++ be32Bytes plteTag
  | .other length tag => be32Bytes length ++ be32Bytes tag
  | .gray => [0x00#8]
  | .rgb => [0x02#8]
  | .indexed => [0x03#8]
  | .graya => [0x04#8]
  | .rgba => [0x06#8]
  | .none => [0x00#8]
  | .sub => [0x01#8]
  | .up => [0x02#8]
  | .avg => [0x03#8]
  | .paeth => [0x04#8]
  | .fwdNone => [0x00#8]
  | .fwdSub => [0x01#8]
  | .fwdUp => [0x02#8]
  | .fwdAvg => [0x03#8]
  | .fwdPaeth => [0x04#8]

/-- How many bytes a row of each format has in the table (R118). -/
def Format.bytes : Format → Nat
  | .signature => 8
  | .chunkHeader => 8
  | .colourType => 1
  | .filterByte => 1
  | .filterByteEncode => 1

end Sys2Proof
end

