-- ==== Sys2Proof/Machine/State.lean ====
section
/-! DEFINITION. The state of the block and its environment as plain data, the reasons a step can stop, and the state
right after reset (`10_state.md`). -/

namespace Sys2Proof.Machine

/-! ### Values of the registers -/

/-- `FST`, the framer state; values 6 and 7 are never taken (R21, R102). -/
inductive FState where
  | sig
  | len
  | type
  | data
  | trail
  | halt
  deriving DecidableEq, Repr

/-- `PST`, the plane-unit state; values 6 and 7 are never taken (R32, R102). -/
inductive PState where
  | wait
  | filt
  | data
  | tail
  | drain
  | halt
  deriving DecidableEq, Repr

/-- The error codes 0 to 11 (`30_encoding.md` R115); 12 to 15 are never produced. -/
inductive ErrCode where
  | ok
  | badSignature
  | truncated
  | unknownFilterType
  | decompressionFailed
  | truncatedPixelData
  | unsupportedBitDepth
  | unsupportedColorType
  | invalidChunkForContext
  | notImplemented
  | lineBufferOverflow
  /-- Reserved, never raised (`60_exceptions.md` R270). -/
  | checksumMismatch
  deriving DecidableEq, Repr

/-- The layers, each with its sticky code (`60_exceptions.md` R253 to R256). -/
inductive Layer where
  | F
  | D
  | P
  deriving DecidableEq, Repr

/-! ### Tokens of the five streams (`30_encoding.md` R110 to R114) -/

/-- S tokens (R110). -/
inductive SToken where
  | byte (b : Byte)
  | eos
  deriving DecidableEq, Repr

/-- K tokens (R111). -/
inductive KToken where
  | hdr (length : Word32) (tag : Word32)
  | pay (b : Byte)
  | trl (v : Word32)
  deriving DecidableEq, Repr

/-- C tokens (R112). -/
inductive CToken where
  | byte (b : Byte)
  | cEnd
  deriving DecidableEq, Repr

/-- Z tokens (R113). -/
inductive ZToken where
  | byte (b : Byte)
  | zEnd
  | zErr
  deriving DecidableEq, Repr

/-- P tokens (R114). -/
structure PToken where
  b : Byte
  eol : Bool
  deriving DecidableEq, Repr

/-! ### Line buffers -/

/-- A line buffer (R37, `20_memory.md` R70): addresses and bytes, addresses strictly rising, no entry equal to 0, which is
what an unlisted address reads as (log entry 5). -/
abbrev LineBuffer := List Host.Cell

/-! ### The agents -/

/-- The registers of FE (R21 to R31). -/
structure FrontEnd where
  fst : FState
  cnt : Word32
  len : Word32
  type : Word32
  trl : Word32
  ferr : ErrCode
  derr : ErrCode
  descValid : Bool
  width : Word32
  height : Word32
  bitDepth : Byte
  colorType : Byte
  compression : Byte
  filterMeth : Byte
  interlace : Byte
  ch : BitVec 3
  bpp : BitVec 8
  bps : Word39
  deriving DecidableEq, Repr

/-- The registers and line buffers of PU (R32 to R37). -/
structure PlaneUnit where
  pst : PState
  row : Word32
  col : Word39
  ft : FilterType
  perr : ErrCode
  prev : LineBuffer
  cur : LineBuffer
  deriving DecidableEq, Repr

/-- What the model keeps of the inflater (`20_memory.md` R72): the Z bytes it has delivered in this call and whether it has
delivered its end token. The C bytes it has accepted are the list `cOut`. -/
structure Inflater where
  sent : List Byte
  ended : Bool
  deriving DecidableEq, Repr

/-- The model's own record for the forward reference functions (`44_forward_reference.md` R230; log entry 15): the raw rows
still to be filtered, the raw previous row, the stride, the bytes written so far (the `z` of R239) and the failure of R237. -/
structure Encoder where
  rows : List (List Byte)
  prev : Option (List Byte)
  bpp : Nat
  out : List Byte
  err : ErrCode
  deriving DecidableEq, Repr

/-- A turn of the schedule: which agent, in or outside the block, moves next (`20_memory.md` R61; log entry 4). -/
inductive Event where
  /-- FE takes its step if it is enabled (`40_framer.md` R130). -/
  | fe
  /-- PU takes its step if it is enabled (`43_plane.md` R200). -/
  | pu
  /-- INFL delivers all it still owes, once it has accepted `CEnd` (R72). -/
  | infl
  /-- INFL delivers one token of its own choice (R72). -/
  | deliver (t : ZToken)
  /-- SRC offers one more token (R73). -/
  | src (t : SToken)
  /-- KSINK drives `k_ready` (R62, R74). -/
  | setKReady (b : Bool)
  /-- INFL drives `c_ready` (R62, R72). -/
  | setCReady (b : Bool)
  /-- PSINK drives `p_ready` (R62, R74). -/
  | setPReady (b : Bool)
  /-- One clock edge with `rst = 1`, the environment reset with the block; SRC starts on a new input
  (`70_reset_and_hazards.md` R290, R293, R294): these bytes in order, then, if `ends`, one `SEos` (R73). With `ends` false SRC may
  offer more by the turn `src`. -/
  | rst (input : List Byte) (ends : Bool)
  /-- The reference encoder writes the next row with this filter-type byte (R237, R239); not hardware. -/
  | encodeRow (ft : Byte)
  deriving DecidableEq, Repr

/-- The block, its ports and environment, and the model's own fields. -/
structure State where
  fe : FrontEnd
  pu : PlaneUnit
  /-- S tokens SRC offers, oldest first (R62, R64). -/
  sIn : List SToken
  /-- SRC has offered `SEos` (R73). -/
  srcEnded : Bool
  /-- Z tokens INFL offers, oldest first (R62, R67). -/
  zIn : List ZToken
  /-- K tokens emitted in this call, oldest first (R65). -/
  kOut : List KToken
  /-- C tokens emitted in this call, oldest first (R66). -/
  cOut : List CToken
  /-- P tokens emitted in this call, oldest first (R68). -/
  pOut : List PToken
  kReady : Bool
  cReady : Bool
  pReady : Bool
  infl : Inflater
  /-- `LB_BYTES` (`00_scope.md` R7); no step writes it (log entry 7). -/
  lbBytes : Nat
  enc : Encoder
  /-- The turns still to be taken; when empty the model takes its default turn (log entry 4). -/
  sched : List Event
  deriving DecidableEq, Repr

/-- Why the machine stops with a fault. No reachable state raises one; both are safe. -/
inductive Fault where
  /-- `CNT` indexes outside SIGNATURE (above 7 in `F_SIG`) or outside the `IHDR` payload (above 12): states that R54 (a)
  and R156 rule out and for which the pseudocode has no case. Raised by the meanings of SIG and IHDR. Safe (log entry 11). -/
  | counterRange
  /-- A line-buffer access at an address of `LB_BYTES` or above, which does not exist (R70 rules it out). Raised by the
  meanings of the filter rows. Safe (log entry 12). -/
  | lineBufferRange
  deriving DecidableEq, Repr

/-- Why the model gives no meaning. -/
inductive Refusal where
  /-- The instruction has no meaning yet. Raised by `exec` only; no arm does. Safe. -/
  | notModelled (mnemonic : String)
  /-- The environment broke the contract of `20_memory.md` R72 or R73: "refuse: the spec states nothing"
  (`93_implementation_defined.md` U12). Raised by the INFL and SRC turns. Safe (log entry 13). -/
  | environmentContract
  deriving DecidableEq, Repr

/-- The registers of FE after reset (R52). -/
def FrontEnd.reset : FrontEnd where
  fst := .sig
  cnt := 0
  len := 0
  type := 0
  trl := 0
  ferr := .ok
  derr := .ok
  descValid := false
  width := 0
  height := 0
  bitDepth := 0
  colorType := 0
  compression := 0
  filterMeth := 0
  interlace := 0
  ch := 0
  bpp := 0
  bps := 0

/-- The registers of PU after reset (R52). The line buffers are unspecified there; nothing is listed (log entry 5). -/
def PlaneUnit.reset : PlaneUnit where
  pst := .wait
  row := 0
  col := 0
  ft := .none
  perr := .ok
  prev := []
  cur := []

/-- The inflater after the reset of the system (R293). -/
def Inflater.reset : Inflater where
  sent := []
  ended := false

/-- The forward reference record before any row (log entry 15). -/
def Encoder.reset : Encoder where
  rows := []
  prev := Option.none
  bpp := 1
  out := []
  err := .ok

/-- The machine right after reset: every register as R52 says, no token offered or emitted, the sinks ready
(log entry 14), no turn scheduled. -/
def State.reset : State where
  fe := FrontEnd.reset
  pu := PlaneUnit.reset
  sIn := []
  srcEnded := false
  zIn := []
  kOut := []
  cOut := []
  pOut := []
  kReady := true
  cReady := true
  pReady := true
  infl := Inflater.reset
  lbBytes := Config.lbBytes
  enc := Encoder.reset
  sched := []

end Sys2Proof.Machine
end

