-- ==== Sys2Proof/Machine/Ops.lean ====
section
/-! DEFINITION. The shared operations: line buffers, ports, raising an error and the halt that follows it, reset. -/

namespace Sys2Proof.Machine

/-- The outcomes of the model's steps. -/
abbrev Outcome := Host.Outcome State Fault Refusal

/-- Go on with `f` from a next state; a stop stays a stop. -/
def andThen (o : Outcome) (f : State → Outcome) : Outcome :=
  match o with
  | .next s => f s
  | .fault r => .fault r
  | .refused r => .refused r

/-! ### Line buffers (`20_memory.md` R70, `00_scope.md` R10) -/

/-- What an address that is not listed reads as (log entry 5). -/
def LineBuffer.blank : Byte := 0

/-- The canonical form: addresses strictly rising, no listed byte equal to what an unlisted address reads as. -/
def LineBuffer.wf : LineBuffer → Bool
  | [] => true
  | (k, v) :: rest => v != LineBuffer.blank && rest.all (fun c => decide (k < c.1)) && LineBuffer.wf rest

/-- `MemRead(buf, a, 1)` (R10). -/
def LineBuffer.read : LineBuffer → Nat → Byte
  | [], _ => LineBuffer.blank
  | (k, v) :: rest, a => if a = k then v else LineBuffer.read rest a

/-- `MemWrite(buf, a, 1, v)` (R10), keeping the canonical form. -/
def LineBuffer.write : LineBuffer → Nat → Byte → LineBuffer
  | [], a, v => if v = LineBuffer.blank then [] else [(a, v)]
  | (k, w) :: rest, a, v =>
    if a < k then
      if v = LineBuffer.blank then (k, w) :: rest else (a, v) :: (k, w) :: rest
    else if a = k then
      if v = LineBuffer.blank then rest else (a, v) :: rest
    else (k, w) :: LineBuffer.write rest a v

/-- `for every j < n: dst[j] <- src[j]` (`43_plane.md` R205). -/
def LineBuffer.copyBelow (n : Nat) (src dst : LineBuffer) : LineBuffer :=
  src.filter (fun c => decide (c.1 < n)) ++ dst.filter (fun c => decide (n ≤ c.1))

/-! ### Ports (`20_memory.md` R62, `00_scope.md` R10) -/

/-- `emitK(t)`. -/
def emitK (t : KToken) (s : State) : State := { s with kOut := s.kOut ++ [t] }

/-- `emitC(t)`. -/
def emitC (t : CToken) (s : State) : State := { s with cOut := s.cOut ++ [t] }

/-- `emitP(t)`. -/
def emitP (t : PToken) (s : State) : State := { s with pOut := s.pOut ++ [t] }

/-- `recvS()`: the offered S token is gone (R77). -/
def popS (s : State) : State := { s with sIn := s.sIn.tail }

/-- `recvZ()`: the offered Z token is gone (R77). -/
def popZ (s : State) : State := { s with zIn := s.zIn.tail }

/-- Move FE to a state, `FST <- q`. -/
def setFst (q : FState) (s : State) : State := { s with fe := { s.fe with fst := q } }

/-- `FST <- q; CNT <- 0`. -/
def enterField (q : FState) (s : State) : State := { s with fe := { s.fe with fst := q, cnt := 0 } }

/-- `CNT <- CNT + 1`. -/
def nextByte (s : State) : State := { s with fe := { s.fe with cnt := s.fe.cnt + 1 } }

/-- Move PU to a state, `PST <- q`. -/
def setPst (q : PState) (s : State) : State := { s with pu := { s.pu with pst := q } }

/-! ### Taking an exception (`60_exceptions.md`) -/

/-- `raise <layer>:<Kind>`: latch the code in the layer's sticky register (R253 to R256). Nothing is saved and no control is
transferred; the rule that raises names the next state (R251, R271). There is no return: only reset leaves a halt (R273). -/
def raise (l : Layer) (k : ErrCode) (s : State) : State :=
  match l with
  | .F => { s with fe := { s.fe with ferr := k } }
  | .D => { s with fe := { s.fe with derr := k } }
  | .P => { s with pu := { s.pu with perr := k } }

/-- `D_end()`: a container that ends cleanly without a descriptor is a context error (`41_dispatch.md` R162). It sees the
`FERR` of the same step. -/
def dEnd (s : State) : State :=
  if s.fe.ferr = .ok ∧ s.fe.derr = .ok ∧ s.fe.descValid = false then raise .D .invalidChunkForContext s else s

/-- `halt_FE()` (`40_framer.md` R141). -/
def haltFE (s : State) : State := setFst .halt (emitC .cEnd (dEnd s))

/-- The two end tokens of stream Z where rows are still missing: `TruncatedPixelData` on `ZEnd`, `DecompressionFailed` on
`ZErr` (`43_plane.md` R203, R206). -/
def rowsCutShort (k : ErrCode) (s : State) : State := setPst .halt (raise .P k s)

/-! ### Rows (`43_plane.md` R205) -/

/-- `row_done()`, on a state whose `CUR` already holds the byte of this step. -/
def rowDone (s : State) : State :=
  { s with pu := { s.pu with
      prev := LineBuffer.copyBelow s.fe.bps.toNat s.pu.cur s.pu.prev
      row := s.pu.row + 1
      pst := if s.pu.row + 1 = s.fe.height then .tail else .filt } }

/-! ### Reset (`70_reset_and_hazards.md`) -/

/-- What SRC presents of an input: its bytes in order and then, if the input ends, one `SEos` (`20_memory.md` R73). -/
def presentInput (input : List Byte) (ends : Bool) : List SToken := input.map .byte ++ if ends then [.eos] else []

/-- One clock edge with `rst = 1`: every register takes its reset value (R290), the environment agents restart with the block
and SRC has the bytes of a new input (R293, R294). The line buffers have no reset path and keep their contents (R292; log
entry 6); the instance's capacity, the pins, the forward record and the remaining schedule are not the block's to reset. -/
def assertReset (input : List Byte) (ends : Bool) (s : State) : State :=
  { s with
    fe := FrontEnd.reset
    pu := { PlaneUnit.reset with prev := s.pu.prev, cur := s.pu.cur }
    sIn := presentInput input ends
    srcEnded := ends
    zIn := []
    kOut := []
    cOut := []
    pOut := []
    infl := Inflater.reset }

end Sys2Proof.Machine
end

