-- ==== Sys2Proof/Machine/Operands.lean ====
section
/-! DEFINITION. Operands: shift-register assembly, the `IHDR` payload fields, the derived row quantities, the neighbours of a
row byte, and the filter arithmetic on them. -/

namespace Sys2Proof.Machine

/-! ### Assembly of multi-byte values (`20_memory.md` R75, `40_framer.md` R133) -/

/-- `(v << 8)[31:0] | zext_32(b)`. -/
def shiftIn (v : Word32) (b : Byte) : Word32 := (v <<< 8) ||| b.setWidth 32

/-- One byte into `LEN` (R133). -/
def shiftLen (b : Byte) (s : State) : State := { s with fe := { s.fe with len := shiftIn s.fe.len b } }

/-- One byte into `TYPE` (`40_framer.md` R135). -/
def shiftType (b : Byte) (s : State) : State := { s with fe := { s.fe with type := shiftIn s.fe.type b } }

/-- One byte into `TRL` (`40_framer.md` R139). -/
def shiftTrl (b : Byte) (s : State) : State := { s with fe := { s.fe with trl := shiftIn s.fe.trl b } }

/-- Payload byte `k` of the `IHDR` chunk into its register (`30_encoding.md` R95, `41_dispatch.md` R156). The caller has
checked `k <= 12`; index 12 is `INTERLACE`. -/
def storeIhdrByte (k : Nat) (b : Byte) (s : State) : State :=
  if k ≤ 3 then { s with fe := { s.fe with width := shiftIn s.fe.width b } }
  else if k ≤ 7 then { s with fe := { s.fe with height := shiftIn s.fe.height b } }
  else if k = 8 then { s with fe := { s.fe with bitDepth := b } }
  else if k = 9 then { s with fe := { s.fe with colorType := b } }
  else if k = 10 then { s with fe := { s.fe with compression := b } }
  else if k = 11 then { s with fe := { s.fe with filterMeth := b } }
  else { s with fe := { s.fe with interlace := b } }

/-! ### Derived quantities (`41_dispatch.md` R157) -/

/-- `ceil(x / 8)` in unbounded naturals (`00_scope.md` R9). -/
def ceilDiv8 (x : Nat) : Nat := (x + 7) / 8

/-- `channels(ct)`, the fixed table (R96, R157). -/
def channels : ColourType → Nat
  | .gray => 1
  | .rgb => 3
  | .indexed => 1
  | .graya => 2
  | .rgba => 4

/-- `BPP = ceil(c * BITDEPTH / 8)` (R157). -/
def bytesPerPixel (c : Nat) (bitDepth : Byte) : Nat := ceilDiv8 (c * bitDepth.toNat)

/-- `BPS = ceil(WIDTH * c * BITDEPTH / 8)` (R157). -/
def bytesPerScanline (width : Word32) (c : Nat) (bitDepth : Byte) : Nat :=
  ceilDiv8 (width.toNat * c * bitDepth.toNat)

/-! ### Filter arithmetic (`42_unfilter.md` R180 to R188) -/

/-- The neighbours of a row byte: left, up, up-left. -/
structure Neighbours where
  a : Byte
  b : Byte
  c : Byte
  deriving DecidableEq, Repr

/-- The distance `|x - y|` of two integers (R186). -/
def distance (x y : Int) : Nat := (x - y).natAbs

/-- `paeth(a, b, c)` over mathematical integers, ties in the order left, up, up-left (R186). -/
def paeth (a b c : Byte) : Byte :=
  let p : Int := (a.toNat : Int) + b.toNat - c.toNat
  let pa := distance p a.toNat
  let pb := distance p b.toNat
  let pc := distance p c.toNat
  if pa ≤ pb ∧ pa ≤ pc then a else if pb ≤ pc then b else c

/-- `floor((a + b) / 2)`, the sum formed without reduction mod 256 (R185). -/
def average (a b : Byte) : Byte := BitVec.ofNat 8 ((a.toNat + b.toNat) / 2)

/-- `NONE`: `out[i] = x` (R182). -/
def reconNone (x : Byte) (_ : Neighbours) : Byte := x

/-- `SUB`: `out[i] = (x + a) mod 256` (R183). -/
def reconSub (x : Byte) (n : Neighbours) : Byte := x + n.a

/-- `UP`: `out[i] = (x + b) mod 256` (R184). -/
def reconUp (x : Byte) (n : Neighbours) : Byte := x + n.b

/-- `AVG`: `out[i] = (x + floor((a + b) / 2)) mod 256` (R185). -/
def reconAvg (x : Byte) (n : Neighbours) : Byte := x + average n.a n.b

/-- `PAETH`: `out[i] = (x + paeth(a, b, c)) mod 256` (R186). -/
def reconPaeth (x : Byte) (n : Neighbours) : Byte := x + paeth n.a n.b n.c

/-- `recon(ft, x, a, b, c)`, the five cases under one name (R180). -/
def recon : FilterType → Byte → Neighbours → Byte
  | .none => reconNone
  | .sub => reconSub
  | .up => reconUp
  | .avg => reconAvg
  | .paeth => reconPaeth

/-- `FWD.NONE`: `out[i] = s` (`44_forward_reference.md` R232). -/
def filtNone (x : Byte) (_ : Neighbours) : Byte := x

/-- `FWD.SUB`: `out[i] = (s - a) mod 256` (R233). -/
def filtSub (x : Byte) (n : Neighbours) : Byte := x - n.a

/-- `FWD.UP`: `out[i] = (s - b) mod 256` (R234). -/
def filtUp (x : Byte) (n : Neighbours) : Byte := x - n.b

/-- `FWD.AVG`: `out[i] = (s - floor((a + b) / 2)) mod 256` (R235). -/
def filtAvg (x : Byte) (n : Neighbours) : Byte := x - average n.a n.b

/-- `FWD.PAETH`: `out[i] = (s - paeth(a, b, c)) mod 256` (R236). -/
def filtPaeth (x : Byte) (n : Neighbours) : Byte := x - paeth n.a n.b n.c

/-- `filt(ft, s, a, b, c)`, the five forward cases under one name (`44_forward_reference.md` section 3). -/
def filt : FilterType → Byte → Neighbours → Byte
  | .none => filtNone
  | .sub => filtSub
  | .up => filtUp
  | .avg => filtAvg
  | .paeth => filtPaeth

/-! ### Neighbours -/

/-- The neighbours PU gives byte `i = COL` of row `r = ROW` with stride `BPP`: reconstructed bytes of the line buffers, the
constant 0 outside the row or the image (R181, `20_memory.md` R71). -/
def neighbours (s : State) : Neighbours :=
  let i := s.pu.col.toNat
  let bpp := s.fe.bpp.toNat
  { a := if bpp ≤ i then LineBuffer.read s.pu.cur (i - bpp) else 0
    b := if s.pu.row ≠ 0 then LineBuffer.read s.pu.prev i else 0
    c := if s.pu.row ≠ 0 ∧ bpp ≤ i then LineBuffer.read s.pu.prev (i - bpp) else 0 }

/-- The neighbours of byte `i` of a row given as lists: `row` for the left one, the previous row if any for the other two
(R189, `44_forward_reference.md` section 3). -/
def listNeighbours (row : List Byte) (prev : Option (List Byte)) (bpp i : Nat) : Neighbours :=
  { a := if bpp ≤ i then row.getD (i - bpp) 0 else 0
    b := match prev with
      | some p => p.getD i 0
      | Option.none => 0
    c := match prev with
      | some p => if bpp ≤ i then p.getD (i - bpp) 0 else 0
      | Option.none => 0 }

/-- The whole-row `filter` for one forward case: every output byte reads only inputs (R237). -/
def filterRowWith (f : Byte → Neighbours → Byte) (row : List Byte) (prev : Option (List Byte)) (bpp : Nat) : List Byte :=
  (List.range row.length).map (fun i => f (row.getD i 0) (listNeighbours row prev bpp i))

end Sys2Proof.Machine
end

