-- ==== Sys2Proof/Machine/Colour.lean ====
section
/-! DEFINITION. The meanings of the COLOUR_TYPE rows: the descriptor's commit (`41_dispatch.md` R157 to R159), run in the step
that consumes payload byte 12 of the first `IHDR`, with `INTERLACE` already holding that byte. -/

namespace Sys2Proof.Machine

/-- FE stands at payload byte 12 of an `IHDR` chunk and layer D is active (R150, R156). -/
abbrev atCommit (s : State) : Prop :=
  s.fe.fst = .data ∧ classOf s.fe.type = .ihdr ∧ s.fe.cnt = 12 ∧ s.fe.derr = .ok

/-- `CH`, `BPP`, `BPS` for `c` channels, computed in unbounded naturals (R157). -/
def storeDerived (c : Nat) (s : State) : State :=
  { s with fe := { s.fe with
      ch := BitVec.ofNat 3 c
      bpp := BitVec.ofNat 8 (bytesPerPixel c s.fe.bitDepth)
      bps := BitVec.ofNat 39 (bytesPerScanline s.fe.width c s.fe.bitDepth) } }

/-- The capacity check and the commit proper (R159), on a state that holds the derived quantities. -/
def checkCapacity (s : State) : State :=
  if s.lbBytes < s.fe.bps.toNat then raise .D .lineBufferOverflow s
  else { s with fe := { s.fe with descValid := true } }

/-- `commit` once the colour type is legal and has `c` channels: the interlace test, then the derived quantities, then the
capacity (R158, R159). -/
def commitChannels (c : Nat) (s : State) : State :=
  if s.fe.interlace ≠ 0 then raise .D .notImplemented s else checkCapacity (storeDerived c s)

/-- `commit` in place; elsewhere no COLOUR_TYPE byte is being read and FE holds (log entry 9). -/
def commitHere (c : Nat) (s : State) : State := if atCommit s then commitChannels c s else s

/-- `GRAY`: one channel. -/
def execGray (s : State) : Outcome := .next (commitHere (channels .gray) s)

/-- `RGB`: three channels. -/
def execRgb (s : State) : Outcome := .next (commitHere (channels .rgb) s)

/-- `INDEXED`: one channel. -/
def execIndexed (s : State) : Outcome := .next (commitHere (channels .indexed) s)

/-- `GRAYA`: two channels. -/
def execGraya (s : State) : Outcome := .next (commitHere (channels .graya) s)

/-- `RGBA`: four channels. -/
def execRgba (s : State) : Outcome := .next (commitHere (channels .rgba) s)

/-- `commit`: the byte in `COLORTYPE` is decoded as a COLOUR_TYPE and the row it selects is run; a byte no row matches is
`UnsupportedColorType` (R158, `30_encoding.md` R101 (c)). -/
def commit (s : State) : Outcome :=
  match colourTypeOf s.fe.colorType with
  | some .gray => execGray s
  | some .rgb => execRgb s
  | some .indexed => execIndexed s
  | some .graya => execGraya s
  | some .rgba => execRgba s
  | Option.none => .next (raise .D .unsupportedColorType s)

end Sys2Proof.Machine
end

