-- ==== Sys2Proof/Machine/Chunk.lean ====
section
/-! DEFINITION. The meanings of the CHUNK_HEADER rows (`40_framer.md` sections 4 to 6, `41_dispatch.md` sections 2 and 3). A chunk
instruction is selected when its fourth type byte has been consumed; its payload and trailing bytes are operand bytes,
consumed one a step. -/

namespace Sys2Proof.Machine

/-! ### What the classes share -/

/-- The input ends inside a chunk: `raise F:Truncated; halt_FE()` (R136, R138, R140). -/
def truncateChunk (s : State) : State := haltFE (raise .F .truncated s)

/-- `LEN` and `TYPE` hold the header; after a fetch they already do (R23, R24). -/
def latchHeader (length tag : Word32) (s : State) : State :=
  { s with fe := { s.fe with len := length, type := tag } }

/-- Layer D acts only while `DERR = 0` (`41_dispatch.md` R150). -/
def whenActive (act : State → State) (s : State) : State := if s.fe.derr = .ok then act s else s

/-- The fourth type byte has been consumed (R135): `KHdr`, the class's `D_header`, then the payload or, when there is none, the
trailing value. -/
def selectChunk (length tag : Word32) (dHeader : State → State) (s : State) : State :=
  enterField (if length = 0 then .trail else .data)
    (whenActive dHeader (emitK (.hdr length tag) (latchHeader length tag s)))

/-- After a payload byte: the next one, or the trailing value (R137). -/
def afterPayload (s : State) : State :=
  if s.fe.cnt = s.fe.len - 1 then enterField .trail s else nextByte s

/-- One payload token (R137, R138): `KPay`, the class's `D_payload` while layer D is active, then on. -/
def payloadStep (dPayload : Byte → State → Outcome) (s : State) : Outcome :=
  match s.sIn with
  | [] => .next s
  | .eos :: _ => .next (truncateChunk (popS s))
  | .byte b :: _ =>
    let s1 := emitK (.pay b) (popS s)
    andThen (if s.fe.derr = .ok then dPayload b s1 else .next s1) (fun s2 => .next (afterPayload s2))

/-- One token of the trailing value (R139, R140): after the fourth byte `KTrl`, and the end of the container if the chunk is
`IEND`. The value is compared with nothing (R144). -/
def trailingStep (isEnd : Bool) (s : State) : Outcome :=
  match s.sIn with
  | [] => .next s
  | .eos :: _ => .next (truncateChunk (popS s))
  | .byte b :: _ =>
    let s1 := shiftTrl b (popS s)
    if s.fe.cnt = 3 then
      let s2 := emitK (.trl s1.fe.trl) s1
      .next (if isEnd then haltFE s2 else enterField .len s2)
    else .next (nextByte s1)

/-- One step of a chunk instruction: selection at the fourth type byte, then its payload and trailing bytes while its class is
that of `TYPE`. Anywhere else it is not the instruction in progress and FE holds (log entry 9). -/
def chunkStep (cls : ChunkClass) (length tag : Word32) (dHeader : State → State) (dPayload : Byte → State → Outcome)
    (s : State) : Outcome :=
  match s.fe.fst with
  | .type => if s.fe.cnt = 3 then .next (selectChunk length tag dHeader s) else .next s
  | .data => if classOf s.fe.type = cls then payloadStep dPayload s else .next s
  | .trail => if classOf s.fe.type = cls then trailingStep (decide (cls = .iend)) s else .next s
  | .sig | .len | .halt => .next s

/-- No layer-D action on a header (`41_dispatch.md` R155). -/
def dHeaderNone (s : State) : State := s

/-- No layer-D action on a payload byte (`41_dispatch.md` R161). -/
def dPayloadNone (_ : Byte) (s : State) : Outcome := .next s

/-! ### IHDR -/

/-- `D.HDR.IHDR`: a second `IHDR`, or one whose length is not 13, is a context error (R152). -/
def dHeaderIhdr (s : State) : State :=
  if s.fe.descValid then raise .D .invalidChunkForContext s
  else if s.fe.len ≠ 13 then raise .D .invalidChunkForContext s
  else s

/-- `D.PAY.IHDR`: the byte goes to the register its index names; with byte 12 the descriptor commits (R156). -/
def dPayloadIhdr (b : Byte) (s : State) : Outcome :=
  if 12 < s.fe.cnt.toNat then .fault .counterRange
  else if s.fe.cnt = 12 then commit (storeIhdrByte s.fe.cnt.toNat b s)
  else .next (storeIhdrByte s.fe.cnt.toNat b s)

/-- `IHDR` (R152, R156 to R159). -/
def execIhdr (length : Word32) (s : State) : Outcome :=
  chunkStep .ihdr length ihdrTag dHeaderIhdr dPayloadIhdr s

/-! ### IDAT -/

/-- `D.HDR.IDAT`: a context error without a committed descriptor (R153). -/
def dHeaderIdat (s : State) : State :=
  if s.fe.descValid then s else raise .D .invalidChunkForContext s

/-- `D.PAY.IDAT`: the byte is forwarded on port C (R160). -/
def dPayloadIdat (b : Byte) (s : State) : Outcome := .next (emitC (.byte b) s)

/-- `IDAT` (R153, R160). -/
def execIdat (length : Word32) (s : State) : Outcome :=
  chunkStep .idat length idatTag dHeaderIdat dPayloadIdat s

/-! ### IEND -/

/-- `IEND`: no layer-D action (R155, R161); the container ends after its trailing value (R139). -/
def execIend (length : Word32) (s : State) : Outcome :=
  chunkStep .iend length iendTag dHeaderNone dPayloadNone s

/-! ### PLTE -/

/-- `D.HDR.PLTE`: no descriptor, a colour type that forbids a palette, or a length not divisible by 3 is a context error
(R154; `90_conflicts.md` C1). -/
def dHeaderPlte (s : State) : State :=
  if s.fe.descValid = false then raise .D .invalidChunkForContext s
  else if s.fe.colorType = 0 ∨ s.fe.colorType = 4 then raise .D .invalidChunkForContext s
  else if s.fe.len.toNat % 3 ≠ 0 then raise .D .invalidChunkForContext s
  else s

/-- `PLTE` (R154, R161). -/
def execPlte (length : Word32) (s : State) : Outcome :=
  chunkStep .plte length plteTag dHeaderPlte dPayloadNone s

/-! ### OTHER -/

/-- `OTHER`: passed through opaquely (R155, R161). -/
def execOther (length tag : Word32) (s : State) : Outcome :=
  chunkStep .other length tag dHeaderNone dPayloadNone s

end Sys2Proof.Machine
end

