-- ==== Sys2Proof/Machine/Filter.lean ====
section
/-! DEFINITION. The meanings of the FILTER_BYTE rows (`42_unfilter.md` R182 to R186, `43_plane.md` R202 to R206). A filter
instruction is selected by the filter-type byte of a row; the row's bytes are its operand bytes, consumed one a step. -/

namespace Sys2Proof.Machine

/-- The filter-type byte has been consumed and is legal (R202): `FT <- b[2:0]; COL <- 0`, then the row's bytes, or the end of a row
that has none. -/
def selectFilter (ft : FilterType) (s : State) : State :=
  let s1 : State := { s with pu := { s.pu with ft := ft, col := 0 } }
  if s.fe.bps = 0 then rowDone s1 else setPst .data s1

/-- `MemWrite(CUR, COL, 1, y)` (R204). -/
def writeCur (y : Byte) (s : State) : State :=
  { s with pu := { s.pu with cur := LineBuffer.write s.pu.cur s.pu.col.toNat y } }

/-- `COL <- COL + 1`. -/
def nextCol (s : State) : State := { s with pu := { s.pu with col := s.pu.col + 1 } }

/-- This byte is the last of its row: `i == BPS - 1` (R204). -/
def lastOfRow (s : State) : Bool := decide (s.pu.col.toNat + 1 = s.fe.bps.toNat)

/-- The row byte `x` with its token already consumed (R204). -/
def reconstruct (f : Byte → Neighbours → Byte) (x : Byte) (s : State) : State :=
  let y := f x (neighbours s)
  let s1 := emitP { b := y, eol := lastOfRow s } (writeCur y s)
  if lastOfRow s then rowDone s1 else nextCol s1

/-- One Z token in a row's data (R204, R206). Every line-buffer address of the step is at most `COL`; one that does not exist is a
fault (log entry 12). -/
def rowStep (f : Byte → Neighbours → Byte) (s : State) : Outcome :=
  match s.zIn with
  | [] => .next s
  | .byte x :: _ =>
    if s.lbBytes ≤ s.pu.col.toNat then .fault .lineBufferRange else .next (reconstruct f x (popZ s))
  | .zEnd :: _ => .next (rowsCutShort .truncatedPixelData (popZ s))
  | .zErr :: _ => .next (rowsCutShort .decompressionFailed (popZ s))

/-- One step of a filter instruction: selection in `P_FILT`, then the row's bytes in `P_DATA` while `FT` is its type. Anywhere else
it is not the instruction in progress and PU holds (log entry 9). -/
def filterStep (ft : FilterType) (f : Byte → Neighbours → Byte) (s : State) : Outcome :=
  match s.pu.pst with
  | .filt => .next (selectFilter ft s)
  | .data => if s.pu.ft = ft then rowStep f s else .next s
  | .wait | .tail | .drain | .halt => .next s

/-- `NONE` (R182). -/
def execNone (s : State) : Outcome := filterStep .none reconNone s

/-- `SUB` (R183). -/
def execSub (s : State) : Outcome := filterStep .sub reconSub s

/-- `UP` (R184). -/
def execUp (s : State) : Outcome := filterStep .up reconUp s

/-- `AVG` (R185). -/
def execAvg (s : State) : Outcome := filterStep .avg reconAvg s

/-- `PAETH` (R186). -/
def execPaeth (s : State) : Outcome := filterStep .paeth reconPaeth s

end Sys2Proof.Machine
end

