-- ==== Sys2Proof/Machine/Forward.lean ====
section
/-! DEFINITION. The meanings of the FILTER_BYTE_ENCODE rows (`44_forward_reference.md` R232 to R239): reference functions, not
hardware. An instruction of this format filters the next raw row of the model's own record `enc` and writes it after its
filter-type byte, as one pass of the loop of `encode_plane` does (log entry 15). -/

namespace Sys2Proof.Machine

/-- `[ft] ++ filter(ft, rows[r], rows[r-1] if r > 0 else none, BPP)` for the next row (R239). With no row left nothing happens. -/
def forwardRow (ft : Byte) (f : Byte → Neighbours → Byte) (s : State) : State :=
  match s.enc.rows with
  | [] => s
  | row :: rest =>
    { s with enc := { s.enc with
        rows := rest
        prev := some row
        out := s.enc.out ++ ft :: filterRowWith f row s.enc.prev s.enc.bpp } }

/-- `FWD.NONE` (R232). -/
def execFwdNone (s : State) : Outcome := .next (forwardRow 0 filtNone s)

/-- `FWD.SUB` (R233). -/
def execFwdSub (s : State) : Outcome := .next (forwardRow 1 filtSub s)

/-- `FWD.UP` (R234). -/
def execFwdUp (s : State) : Outcome := .next (forwardRow 2 filtUp s)

/-- `FWD.AVG` (R235). -/
def execFwdAvg (s : State) : Outcome := .next (forwardRow 3 filtAvg s)

/-- `FWD.PAETH` (R236). -/
def execFwdPaeth (s : State) : Outcome := .next (forwardRow 4 filtPaeth s)

end Sys2Proof.Machine
end

