-- ==== Sys2Proof/Machine/Signature.lean ====
section
/-! DEFINITION. The meaning of the SIGNATURE row (`40_framer.md` section 2). -/

namespace Sys2Proof.Machine

/-- `raise F:BadSignature; halt_FE()`. -/
def rejectSignature (s : State) : State := haltFE (raise .F .badSignature s)

/-- `SIG`: one signature byte is consumed and compared (R131), or the input ends (R132). Outside `F_SIG` this is not the
instruction in progress and FE holds (log entry 9). -/
def execSig (s : State) : Outcome :=
  match s.fe.fst with
  | .sig =>
    match s.sIn with
    | [] => .next s
    | .eos :: _ => .next (rejectSignature (popS s))
    | .byte b :: _ =>
      match signature[s.fe.cnt.toNat]? with
      | Option.none => .fault .counterRange
      | some k =>
        if b = k then
          .next (if s.fe.cnt = 7 then enterField .len (popS s) else nextByte (popS s))
        else .next (rejectSignature (popS s))
  | .len | .type | .data | .trail | .halt => .next s

end Sys2Proof.Machine
end

