-- ==== Sys2Proof/Machine/Dispatch.lean ====
section
/-! DEFINITION. One arm per row of the opcode table: the token step of the instruction in progress. -/

namespace Sys2Proof.Machine

-- the meaning of each instruction
def exec (i : Instr) (s : State) : Host.Outcome State Fault Refusal :=
  match i with
  | .sig => Sys2Proof.Machine.execSig s
  | .ihdr length => Sys2Proof.Machine.execIhdr length s
  | .idat length => Sys2Proof.Machine.execIdat length s
  | .iend length => Sys2Proof.Machine.execIend length s
  | .plte length => Sys2Proof.Machine.execPlte length s
  | .other length tag => Sys2Proof.Machine.execOther length tag s
  | .gray => Sys2Proof.Machine.execGray s
  | .rgb => Sys2Proof.Machine.execRgb s
  | .indexed => Sys2Proof.Machine.execIndexed s
  | .graya => Sys2Proof.Machine.execGraya s
  | .rgba => Sys2Proof.Machine.execRgba s
  | .none => Sys2Proof.Machine.execNone s
  | .sub => Sys2Proof.Machine.execSub s
  | .up => Sys2Proof.Machine.execUp s
  | .avg => Sys2Proof.Machine.execAvg s
  | .paeth => Sys2Proof.Machine.execPaeth s
  | .fwdNone => Sys2Proof.Machine.execFwdNone s
  | .fwdSub => Sys2Proof.Machine.execFwdSub s
  | .fwdUp => Sys2Proof.Machine.execFwdUp s
  | .fwdAvg => Sys2Proof.Machine.execFwdAvg s
  | .fwdPaeth => Sys2Proof.Machine.execFwdPaeth s

end Sys2Proof.Machine
end

