-- ==== Sys2Proof/Machine/Flags.lean ====
section
/-! DEFINITION. The status values: register codes, `DONE`, `RESULT`, `FAIL`, and the status register map
(`10_state.md` R38 to R51). No arithmetic sets a flag (R41). -/

namespace Sys2Proof.Machine

/-- The 3-bit code of `FST` (R21). -/
def FState.code : FState → BitVec 3
  | .sig => 0
  | .len => 1
  | .type => 2
  | .data => 3
  | .trail => 4
  | .halt => 5

/-- The 3-bit code of `PST` (R32). -/
def PState.code : PState → BitVec 3
  | .wait => 0
  | .filt => 1
  | .data => 2
  | .tail => 3
  | .drain => 4
  | .halt => 5

/-- The 3-bit code of `FT` (R35): `FT <- b[2:0]` of the legal filter-type byte. -/
def ftCode (f : FilterType) : BitVec 3 := f.byte.setWidth 3

/-- The 4-bit error code (`30_encoding.md` R115). -/
def ErrCode.code : ErrCode → BitVec 4
  | .ok => 0
  | .badSignature => 1
  | .truncated => 2
  | .unknownFilterType => 3
  | .decompressionFailed => 4
  | .truncatedPixelData => 5
  | .unsupportedBitDepth => 6
  | .unsupportedColorType => 7
  | .invalidChunkForContext => 8
  | .notImplemented => 9
  | .lineBufferOverflow => 10
  | .checksumMismatch => 11

/-- `DONE` (R38). -/
def done (s : State) : Bool := decide (s.fe.fst = .halt ∧ s.pu.pst = .halt)

/-- `RESULT`: the first error in the order F, D, P (R38, `60_exceptions.md` R257). -/
def result (s : State) : ErrCode :=
  if s.fe.ferr ≠ .ok then s.fe.ferr else if s.fe.derr ≠ .ok then s.fe.derr else s.pu.perr

/-- `FAIL` (R38). -/
def fail (s : State) : Bool := done s && decide (result s ≠ .ok)

/-- One bit as a bit vector. -/
def bit (b : Bool) : BitVec 1 := BitVec.ofBool b

/-- `STATUS`, address 0x00 (R43). -/
def statusWord (s : State) : BitVec 32 :=
  0#4 ++ bit (fail s) ++ ftCode s.pu.ft ++ (result s).code ++ s.pu.perr.code ++ s.fe.derr.code ++ s.fe.ferr.code
    ++ bit (done s) ++ bit s.fe.descValid ++ s.pu.pst.code ++ s.fe.fst.code

/-- `FORMAT`, address 0x0C (R45). -/
def formatWord (s : State) : BitVec 32 :=
  s.fe.filterMeth ++ s.fe.compression ++ s.fe.colorType ++ s.fe.bitDepth

/-- `FORMAT2`, address 0x10 (R46). -/
def format2Word (s : State) : BitVec 32 :=
  0#8 ++ s.fe.bpp ++ 0#5 ++ s.fe.ch ++ s.fe.interlace

/-- A read of the status port: `r_addr` is a byte address whose bits 1:0 are ignored; unnamed words read 0; no read has a side
effect (R42 to R50). -/
def statusRead (s : State) (addr : BitVec 6) : BitVec 32 :=
  match addr.toNat / 4 with
  | 0 => statusWord s
  | 1 => s.fe.width
  | 2 => s.fe.height
  | 3 => formatWord s
  | 4 => format2Word s
  | 5 => s.fe.bps.setWidth 32
  | 6 => (s.fe.bps >>> 32).setWidth 32
  | 7 => s.pu.row
  | 8 => s.pu.col.setWidth 32
  | 9 => (s.pu.col >>> 32).setWidth 32
  | 10 => s.fe.len
  | 11 => s.fe.type
  | 12 => s.fe.trl
  | 13 => s.fe.cnt
  | _ => 0

end Sys2Proof.Machine
end

