-- ==== Sys2Proof/Machine/Pins.lean ====
section
/-! DEFINITION. The ports as signals (`20_memory.md` R62 to R69, `30_encoding.md` R110 to R114): which tokens a step would emit,
when a step is enabled, and the pins the block drives. -/

namespace Sys2Proof.Machine

/-! ### Signal encodings of the tokens -/

/-- A transferred beat of port S; `s_data` is ignored with `s_eos = 1` (R64). -/
def sTokenOf (data : Byte) (eos : Bool) : SToken := if eos then .eos else .byte data

/-- A transferred beat of port Z; `z_err` is ignored with `z_end = 0`, `z_data` with `z_end = 1` (R67). -/
def zTokenOf (data : Byte) (zend zerr : Bool) : ZToken :=
  if zend then (if zerr then .zErr else .zEnd) else .byte data

/-- `k_kind` (R111); 3 is never produced (R102). -/
def KToken.kind : KToken → BitVec 2
  | .hdr _ _ => 0
  | .pay _ => 1
  | .trl _ => 2

/-- `k_a` (R111). -/
def KToken.a : KToken → BitVec 32
  | .hdr length _ => length
  | .pay b => b.setWidth 32
  | .trl v => v

/-- `k_b` (R111). -/
def KToken.b : KToken → BitVec 32
  | .hdr _ tag => tag
  | .pay _ => 0
  | .trl _ => 0

/-- `c_data` (R66). -/
def CToken.data : CToken → Byte
  | .byte b => b
  | .cEnd => 0

/-- `c_end` (R66). -/
def CToken.fin : CToken → Bool
  | .byte _ => false
  | .cEnd => true

/-! ### What a step would emit, fixed by the state and the offered token alone (R130, R200) -/

/-- The K token of an FE step: the fourth type byte, every payload byte, the fourth trailing byte (R130). -/
def kOffer (s : State) : SToken → Option KToken
  | .eos => Option.none
  | .byte b =>
    match s.fe.fst with
    | .type => if s.fe.cnt = 3 then some (.hdr s.fe.len (shiftIn s.fe.type b)) else Option.none
    | .data => some (.pay b)
    | .trail => if s.fe.cnt = 3 then some (.trl (shiftIn s.fe.trl b)) else Option.none
    | .sig | .len | .halt => Option.none

/-- The C token of an FE step: a forwarded `IDAT` byte, or `CEnd` in every step that halts FE (R130). -/
def cOffer (s : State) : SToken → Option CToken
  | .eos => if s.fe.fst = .halt then Option.none else some .cEnd
  | .byte b =>
    match s.fe.fst with
    | .sig => if signature[s.fe.cnt.toNat]? = some b then Option.none else some .cEnd
    | .data => if classOf s.fe.type = .idat ∧ s.fe.derr = .ok then some (.byte b) else Option.none
    | .trail => if s.fe.cnt = 3 ∧ classOf s.fe.type = .iend then some .cEnd else Option.none
    | .len | .type | .halt => Option.none

/-- Whether a PU step emits a P token: only on a row byte (R200, R204). -/
def pOffers (s : State) : ZToken → Bool
  | .byte _ => decide (s.pu.pst = .data)
  | .zEnd => false
  | .zErr => false

/-- FE would take this token now: it is not halted and every port the step emits on is ready (R62, R130). -/
def feAccepts (s : State) (t : SToken) : Bool :=
  decide (s.fe.fst ≠ .halt) && ((kOffer s t).isNone || s.kReady) && ((cOffer s t).isNone || s.cReady)

/-- PU is in a state that accepts a token and the port it emits on is ready (R62, R200). -/
def puAccepts (s : State) (t : ZToken) : Bool :=
  decide (s.pu.pst ≠ .wait) && decide (s.pu.pst ≠ .halt) && (!pOffers s t || s.pReady)

/-- An FE step is enabled: a token is offered and accepted (R130). -/
def feEnabled (s : State) : Bool :=
  match s.sIn with
  | [] => false
  | t :: _ => feAccepts s t

/-- A PU step is enabled: in `P_WAIT` once the descriptor exists or never will (R201), else when a token is offered and accepted
(R200). -/
def puEnabled (s : State) : Bool :=
  if s.pu.pst = .wait then s.fe.descValid || decide (s.fe.fst = .halt)
  else
    match s.zIn with
    | [] => false
    | t :: _ => puAccepts s t

/-! ### The pins -/

/-- `k_valid` for the token on offer. A step that emits on K alone drives it while the S token is on offer. A step that emits on K and C
happens only in a cycle in which both are ready, and K transfers in exactly the cycles in which `k_valid` and `k_ready` are 1 (R62),
so `k_valid` is 0 whenever `c_ready` is 0; and since `valid` once raised is held to the transfer, it is raised in that cycle only
(DEDUCED, log entry 25). -/
def kDrives (s : State) (t : SToken) : Bool :=
  (kOffer s t).isSome && ((cOffer s t).isNone || feAccepts s t)

/-- `c_valid` for the token on offer, by the same rule as `k_valid` (R62; log entry 25). -/
def cDrives (s : State) (t : SToken) : Bool :=
  (cOffer s t).isSome && ((kOffer s t).isNone || feAccepts s t)

/-- The signals the block drives. -/
structure Pins where
  sReady : Bool
  zReady : Bool
  kValid : Bool
  cValid : Bool
  pValid : Bool
  done : Bool
  fail : Bool
  result : BitVec 4
  deriving DecidableEq, Repr

/-- The driven signals for the tokens on offer. While `rst = 1` nothing is ready or valid (R290). With no token on offer `s_ready` and
`z_ready` say whether the agent is in a state that accepts one (log entry 20). -/
def pins (rst : Bool) (s : State) : Pins where
  sReady := !rst && (match s.sIn with
    | [] => decide (s.fe.fst ≠ .halt)
    | t :: _ => feAccepts s t)
  zReady := !rst && (match s.zIn with
    | [] => decide (s.pu.pst ≠ .wait) && decide (s.pu.pst ≠ .halt)
    | t :: _ => puAccepts s t)
  kValid := !rst && (match s.sIn with
    | [] => false
    | t :: _ => kDrives s t)
  cValid := !rst && (match s.sIn with
    | [] => false
    | t :: _ => cDrives s t)
  pValid := !rst && (match s.zIn with
    | [] => false
    | t :: _ => pOffers s t)
  done := Sys2Proof.Machine.done s
  fail := Sys2Proof.Machine.fail s
  result := (Sys2Proof.Machine.result s).code

end Sys2Proof.Machine
end

