-- ==== Sys2Proof/Machine/FrontEndStep.lean ====
section
/-! DEFINITION. The step of agent FE (`40_framer.md`): it fetches signature, length and type bytes and runs the instruction they
encode. -/

namespace Sys2Proof.Machine

/-- `F.LEN` (R133, R134): a clean end at a chunk boundary is no error. -/
def lenStep (s : State) : Outcome :=
  match s.sIn with
  | [] => .next s
  | .eos :: _ =>
    .next (if s.fe.cnt ≠ 0 then truncateChunk (popS s) else haltFE (popS s))
  | .byte b :: _ =>
    let s1 := shiftLen b (popS s)
    .next (if s.fe.cnt = 3 then enterField .type s1 else nextByte s1)

/-- `F.TYPE` (R135, R136): with the fourth byte the header is complete, and the instruction it encodes runs. -/
def typeStep (s : State) : Outcome :=
  match s.sIn with
  | [] => .next s
  | .eos :: _ => .next (truncateChunk (popS s))
  | .byte b :: _ =>
    let s1 := shiftType b (popS s)
    if s.fe.cnt = 3 then exec (headerInstr s1.fe.len s1.fe.type) s1 else .next (nextByte s1)

/-- An enabled FE step, chosen by `FST` (R130, R148). In `F_DATA` and `F_TRAIL` the instruction in progress is the one `LEN` and `TYPE`
encode. -/
def feTake (s : State) : Outcome :=
  match s.fe.fst with
  | .sig => exec .sig s
  | .len => lenStep s
  | .type => typeStep s
  | .data => exec (headerInstr s.fe.len s.fe.type) s
  | .trail => exec (headerInstr s.fe.len s.fe.type) s
  | .halt => .next s

/-- FE's turn: its step if it is enabled, else it holds (R62, R142; `60_exceptions.md` R282; log entry 10). -/
def feStep (s : State) : Outcome := if feEnabled s then feTake s else .next s

end Sys2Proof.Machine
end

