-- ==== Sys2Proof/Machine/PlaneUnitStep.lean ====
section
/-! DEFINITION. The step of agent PU (`43_plane.md`): it fetches filter-type bytes and runs the instruction they encode. -/

namespace Sys2Proof.Machine

/-- `P.START` (R201): consumes no token. -/
def startStep (s : State) : State :=
  if s.fe.descValid then
    { s with pu := { s.pu with row := 0, col := 0, pst := if s.fe.height = 0 then .tail else .filt } }
  else if s.fe.fst = .halt then setPst .drain s
  else s

/-- An illegal filter-type byte: it is not stored, and PU drains (R202, `42_unfilter.md` R187). -/
def rejectFilter (s : State) : State := setPst .drain (raise .P .unknownFilterType s)

/-- `P.FILT` (R202, R203): a legal filter-type byte runs the instruction it encodes. -/
def filtStep (s : State) : Outcome :=
  match s.zIn with
  | [] => .next s
  | .byte b :: _ =>
    match filterTypeOf b with
    | some f => exec f.instr (popZ s)
    | Option.none => .next (rejectFilter (popZ s))
  | .zEnd :: _ => .next (rowsCutShort .truncatedPixelData (popZ s))
  | .zErr :: _ => .next (rowsCutShort .decompressionFailed (popZ s))

/-- The bit depths the reshaping step supports (R208, R214). -/
def supportedDepth (d : Byte) : Bool := decide (d = 8 ∨ d = 16)

/-- `P.TAIL` (R207 to R209): surplus bytes are discarded; `ZEnd` judges the bit depth, `ZErr` does not. -/
def tailStep (s : State) : Outcome :=
  match s.zIn with
  | [] => .next s
  | .byte _ :: _ => .next (popZ s)
  | .zEnd :: _ =>
    .next (setPst .halt (if supportedDepth s.fe.bitDepth then popZ s else raise .P .unsupportedBitDepth (popZ s)))
  | .zErr :: _ => .next (setPst .halt (raise .P .decompressionFailed (popZ s)))

/-- `P.DRAIN` (R210): bytes are discarded; `ZErr` overrides a recorded code (`60_exceptions.md` R256). -/
def drainStep (s : State) : Outcome :=
  match s.zIn with
  | [] => .next s
  | .byte _ :: _ => .next (popZ s)
  | .zEnd :: _ => .next (setPst .halt (popZ s))
  | .zErr :: _ => .next (setPst .halt (raise .P .decompressionFailed (popZ s)))

/-- An enabled PU step, chosen by `PST` (R200, R217). In `P_DATA` the instruction in progress is the one `FT` encodes. -/
def puTake (s : State) : Outcome :=
  match s.pu.pst with
  | .wait => .next (startStep s)
  | .filt => filtStep s
  | .data => exec s.pu.ft.instr s
  | .tail => tailStep s
  | .drain => drainStep s
  | .halt => .next s

/-- PU's turn: its step if it is enabled, else it holds (R62, R211; `60_exceptions.md` R282; log entry 10). -/
def puStep (s : State) : Outcome := if puEnabled s then puTake s else .next s

end Sys2Proof.Machine
end

