-- ==== Sys2Proof/Machine/Environment.lean ====
section
/-! DEFINITION. The agents outside the block (`20_memory.md` R61, R72 to R74), the reference encoder, and the turn a schedule entry
or the default order gives. -/

namespace Sys2Proof.Machine

/-- `Cbytes`: the list of all `CByte` values of the call, in order (R72). -/
def cBytes (s : State) : List Byte :=
  s.cOut.filterMap (fun t =>
    match t with
    | .byte b => some b
    | .cEnd => Option.none)

/-- INFL has accepted `CEnd` and has not delivered its end token (R72). -/
def inflEnabled (s : State) : Bool := decide (CToken.cEnd ∈ s.cOut) && !s.infl.ended

/-- INFL appends Z tokens. -/
def deliverAll (bs : List Byte) (last : ZToken) (s : State) : State :=
  { s with
    zIn := s.zIn ++ bs.map .byte ++ [last]
    infl := { sent := s.infl.sent ++ bs, ended := true } }

/-- INFL's turn (R72): once it has accepted `CEnd` it evaluates `inflate` and delivers what it still owes and its end token. Bytes
it delivered earlier must be consistent with the result, else the contract is broken (U12). -/
def inflStep (s : State) : Outcome :=
  if inflEnabled s then
    match Config.inflate (cBytes s) with
    | some zs =>
      if s.infl.sent.isPrefixOf zs then .next (deliverAll (zs.drop s.infl.sent.length) .zEnd s)
      else .refused .environmentContract
    | Option.none => .next (deliverAll (Config.inflateGarbage (cBytes s)) .zErr s)
  else .next s

/-- INFL delivers one token of its own choice (R72): any byte before its end token, even before `CEnd`; an end token only after
`CEnd` and only the one the result calls for; nothing after it. -/
def deliverStep (t : ZToken) (s : State) : Outcome :=
  if s.infl.ended then .refused .environmentContract
  else
    match t with
    | .byte b => .next { s with zIn := s.zIn ++ [.byte b], infl := { s.infl with sent := s.infl.sent ++ [b] } }
    | .zEnd =>
      if CToken.cEnd ∈ s.cOut ∧ Config.inflate (cBytes s) = some s.infl.sent then .next (deliverAll [] .zEnd s)
      else .refused .environmentContract
    | .zErr =>
      if CToken.cEnd ∈ s.cOut ∧ Config.inflate (cBytes s) = Option.none then .next (deliverAll [] .zErr s)
      else .refused .environmentContract

/-- SRC offers one more token; "after `SEos` it presents nothing until reset" (R73). The model's SRC never withdraws an offered token
after `F_HALT`, which R73 and `40_framer.md` R146 leave to it (DESIGN CHOICE, log entry 24). -/
def srcStep (t : SToken) (s : State) : Outcome :=
  if s.srcEnded then .refused .environmentContract
  else .next { s with sIn := s.sIn ++ [t], srcEnded := decide (t = .eos) }

/-- The reference encoder's turn: filter the next row with this filter-type byte; a byte above 4 fails with `UnknownFilterType`
(`44_forward_reference.md` R237), and after a failure nothing more is written. -/
def encodeRowStep (ft : Byte) (s : State) : Outcome :=
  if s.enc.err ≠ .ok ∨ s.enc.rows = [] then .next s
  else
    match filterTypeOf ft with
    | some f => exec f.fwdInstr s
    | Option.none => .next { s with enc := { s.enc with err := .unknownFilterType } }

/-- The turn an entry of the schedule gives. -/
def runEvent (e : Event) (s : State) : Outcome :=
  match e with
  | .fe => feStep s
  | .pu => puStep s
  | .infl => inflStep s
  | .deliver t => deliverStep t s
  | .src t => srcStep t s
  | .setKReady b => .next { s with kReady := b }
  | .setCReady b => .next { s with cReady := b }
  | .setPReady b => .next { s with pReady := b }
  | .rst input ends => .next (assertReset input ends s)
  | .encodeRow ft => encodeRowStep ft s

/-- The turn of an empty schedule: FE if it is enabled, else PU, else INFL, else nothing moves (log entry 4). -/
def defaultTurn (s : State) : Outcome :=
  if feEnabled s then feStep s
  else if puEnabled s then puStep s
  else if inflEnabled s then inflStep s
  else .next s

/-- The machine's turn: the first entry of the schedule, or the default. -/
def takeTurn (s : State) : Outcome :=
  match s.sched with
  | [] => defaultTurn s
  | e :: rest => runEvent e { s with sched := rest }

end Sys2Proof.Machine
end

