-- ==== Sys2Proof/Machine/Placement.lean ====
section
/-! DEFINITION. Placing a table word where the next step runs it (log entry 16). The block has no program memory: an instruction is
selected by the last byte of its pattern, the bytes before it standing in the registers that hold them. -/

namespace Sys2Proof.Machine

/-- The signature is on offer from its first byte and FE stands before it (`40_framer.md` R131). -/
def placeSignature (s : State) : State :=
  { s with
    fe := { s.fe with fst := .sig, cnt := 0 }
    sIn := signature.map .byte
    kReady := true
    cReady := true
    sched := [.fe] }

/-- The first seven header bytes stand in `LEN` and `TYPE`, the eighth is on offer (`40_framer.md` R135). -/
def placeHeader (w : BitVec 64) (s : State) : State :=
  { s with
    fe := { s.fe with
      fst := .type
      cnt := 3
      len := w.extractLsb' 32 32
      type := (w.extractLsb' 8 24).setWidth 32 }
    sIn := [.byte (w.extractLsb' 0 8)]
    kReady := true
    sched := [.fe] }

/-- `COLORTYPE` holds the byte and the last `IHDR` payload byte, an `INTERLACE` of 0, is on offer (`41_dispatch.md` R156). -/
def placeColour (b : Byte) (s : State) : State :=
  { s with
    fe := { s.fe with
      fst := .data
      cnt := 12
      len := 13
      type := ihdrTag
      derr := .ok
      colorType := b }
    sIn := [.byte 0]
    kReady := true
    sched := [.fe] }

/-- The filter-type byte is on offer and PU stands before it (`43_plane.md` R202). -/
def placeFilter (b : Byte) (s : State) : State :=
  { s with
    pu := { s.pu with pst := .filt }
    zIn := [.byte b]
    sched := [.pu] }

/-- Place a table word of `nbits` bits in the format `decodeTableWord` reads it in. -/
def placeWord (s : State) (nbits w : Nat) : State :=
  if nbits = 64 then
    if be64Bytes (BitVec.ofNat 64 w) = signature then placeSignature s else placeHeader (BitVec.ofNat 64 w) s
  else if nbits = 8 then
    match filterTypeOf (BitVec.ofNat 8 w), colourTypeOf (BitVec.ofNat 8 w) with
    | Option.none, some _ => placeColour (BitVec.ofNat 8 w) s
    | _, _ => placeFilter (BitVec.ofNat 8 w) s
  else s

end Sys2Proof.Machine
end

