-- ==== Sys2Proof/Machine/Reference.lean ====
section
/-! DEFINITION. The function-level references the spec gives beside the block: `decode` (`40_framer.md` R143, R147), the layer-D fold
(`41_dispatch.md` R166), `unfilter` and `filter` (`42_unfilter.md` R189, `44_forward_reference.md` R237), the matrix view
(`43_plane.md` R212, R213), layer P (R215), the encode direction (R231, R238, R239), `decode_plane` (R241) and `decode_png`
(`60_exceptions.md` R258). They are mathematical functions on finite lists (R230); no step runs them. -/

namespace Sys2Proof.Machine

/-- The value of a codec function: a result, or one error kind (`60_exceptions.md` R276). -/
inductive Result (α : Type) where
  | ok (a : α)
  | fail (e : ErrCode)
  deriving DecidableEq, Repr

/-! ### Containers -/

/-- The source's Chunk (R143). -/
structure Chunk where
  length : Word32
  typeTag : Word32
  data : List Byte
  trailing : Word32
  deriving DecidableEq, Repr

/-- `length == len(data)`, the precondition of `encode` (R231, `93_implementation_defined.md` I9, `70_reset_and_hazards.md` R301). -/
def Chunk.consistent (c : Chunk) : Bool := decide (c.data.length = c.length.toNat)

/-- The four fields of one chunk as R231 writes them, the length as the chunk gives it, no checksum computed. -/
def encodeChunk (c : Chunk) : List Byte :=
  be32Bytes c.length ++ be32Bytes c.typeTag ++ c.data ++ be32Bytes c.trailing

/-- The byte list of R231. Of chunks that are not consistent it is the "not a well-formed container" of that rule (R301). -/
def containerBytes (cs : List Chunk) : List Byte := signature ++ (cs.map encodeChunk).flatten

/-- `encode(cs)`: "defined only on chunks with `length = len(data)`" (`93_implementation_defined.md` I9), where it is the byte list of
R231; refused otherwise (log entry 26). -/
def encodeContainer (cs : List Chunk) : Option (List Byte) :=
  if cs.all Chunk.consistent then some (containerBytes cs) else Option.none

/-- Split off one whole chunk record, if the bytes hold one (R92, R147). -/
def takeChunk : List Byte → Option (Chunk × List Byte)
  | b0 :: b1 :: b2 :: b3 :: t0 :: t1 :: t2 :: t3 :: body =>
    let n := be32 b0 b1 b2 b3
    match body.drop n.toNat with
    | v0 :: v1 :: v2 :: v3 :: rest =>
      some ({ length := n, typeTag := be32 t0 t1 t2 t3, data := body.take n.toNat, trailing := be32 v0 v1 v2 v3 }, rest)
    | _ => Option.none
  | _ => Option.none

/-- The loop of `decode` (R147). A record is at least 12 bytes, so as many rounds as there are bytes are enough. -/
def decodeLoop : Nat → List Byte → List Chunk → Result (List Chunk)
  | _, [], acc => .ok acc
  | 0, _ :: _, acc => .ok acc
  | fuel + 1, b :: bs, acc =>
    match takeChunk (b :: bs) with
    | Option.none => .fail .truncated
    | some (c, rest) =>
      if c.typeTag = iendTag then .ok (acc ++ [c]) else decodeLoop fuel rest (acc ++ [c])

/-- `decode(bs)` (R147). -/
def decodeContainer (bs : List Byte) : Result (List Chunk) :=
  if bs.take 8 = signature then decodeLoop bs.length (bs.drop 8) [] else .fail .badSignature

/-- The complete chunks of a K stream: a header, exactly as many payload bytes as it declares, a trailing value (R143); `open?` is the
run begun by the last header. On lists no call emits, a run of another form is no chunk and is passed over (DESIGN CHOICE, log entry 27). -/
def chunksFrom : Option (Word32 × Word32 × List Byte) → List KToken → List Chunk
  | _, [] => []
  | _, .hdr n t :: ks => chunksFrom (some (n, t, [])) ks
  | some (n, t, d), .pay b :: ks => chunksFrom (some (n, t, d ++ [b])) ks
  | Option.none, .pay _ :: ks => chunksFrom Option.none ks
  | some (n, t, d), .trl v :: ks =>
    if d.length = n.toNat then { length := n, typeTag := t, data := d, trailing := v } :: chunksFrom Option.none ks
    else chunksFrom Option.none ks
  | Option.none, .trl _ :: ks => chunksFrom Option.none ks

/-- The chunk sequence of a K stream (R143). -/
def chunksOf (ks : List KToken) : List Chunk := chunksFrom Option.none ks

/-- The result of layer F. R143 gives it at `F_HALT`; before, there is none. -/
def layerFResult (s : State) : Option (Result (List Chunk)) :=
  if s.fe.fst = .halt then some (if s.fe.ferr = .ok then .ok (chunksOf s.kOut) else .fail s.fe.ferr) else Option.none

/-- What a call is observed to give a sink that wants the chunk sequence alone: nothing before `DONE`, then the layer-F result, which
depends on `FERR` alone (`70_reset_and_hazards.md` R296, its refinement). -/
def chunkResult (s : State) : Option (Result (List Chunk)) := if done s then layerFResult s else Option.none

/-- The K and P tokens of a call that count as results: those of a call that reached `DONE = 1` with `RESULT = 0`. Of any other the sinks
keep nothing (`70_reset_and_hazards.md` R296). -/
def keptStreams (s : State) : Option (List KToken × List PToken) :=
  if done s = true ∧ result s = .ok then some (s.kOut, s.pOut) else Option.none

/-! ### The descriptor and the chunk fold -/

/-- The source's Image Descriptor (`00_scope.md` R13). -/
structure Descriptor where
  width : Word32
  height : Word32
  bitDepth : Byte
  colorType : Byte
  compression : Byte
  filterMeth : Byte
  interlace : Byte
  deriving DecidableEq, Repr

/-- The descriptor registers as one value. -/
def descriptorOf (s : State) : Descriptor where
  width := s.fe.width
  height := s.fe.height
  bitDepth := s.fe.bitDepth
  colorType := s.fe.colorType
  compression := s.fe.compression
  filterMeth := s.fe.filterMeth
  interlace := s.fe.interlace

/-- The channel count of a descriptor; 0 for a colour type `channels` gives no value (R157). -/
def Descriptor.channels (d : Descriptor) : Nat :=
  match colourTypeOf d.colorType with
  | some c => Sys2Proof.Machine.channels c
  | Option.none => 0

/-- `BPP` of a descriptor (R157). -/
def Descriptor.bpp (d : Descriptor) : Nat := bytesPerPixel d.channels d.bitDepth

/-- `BPS` of a descriptor (R157). -/
def Descriptor.bps (d : Descriptor) : Nat := bytesPerScanline d.width d.channels d.bitDepth

/-- The 13 `IHDR` payload bytes as a descriptor (`30_encoding.md` R95). -/
def parseIhdr (p : List Byte) : Descriptor where
  width := be32 (p.getD 0 0) (p.getD 1 0) (p.getD 2 0) (p.getD 3 0)
  height := be32 (p.getD 4 0) (p.getD 5 0) (p.getD 6 0) (p.getD 7 0)
  bitDepth := p.getD 8 0
  colorType := p.getD 9 0
  compression := p.getD 10 0
  filterMeth := p.getD 11 0
  interlace := p.getD 12 0

/-- The accumulator of the fold (R166). -/
structure Fold where
  desc : Option Descriptor
  idat : List Byte
  deriving DecidableEq, Repr

/-- An `IHDR` chunk in the fold (R166). -/
def foldIhdr (lbBytes : Nat) (acc : Fold) (c : Chunk) : Result Fold :=
  if acc.desc ≠ Option.none ∨ c.length ≠ 13 then .fail .invalidChunkForContext
  else
    let d := parseIhdr c.data
    match colourTypeOf d.colorType with
    | Option.none => .fail .unsupportedColorType
    | some _ =>
      if d.interlace ≠ 0 then .fail .notImplemented
      else if lbBytes < d.bps then .fail .lineBufferOverflow
      else .ok { acc with desc := some d }

/-- A `PLTE` chunk in the fold (R166). -/
def foldPlte (acc : Fold) (c : Chunk) : Result Fold :=
  match acc.desc with
  | Option.none => .fail .invalidChunkForContext
  | some d =>
    if d.colorType = 0 ∨ d.colorType = 4 ∨ c.length.toNat % 3 ≠ 0 then .fail .invalidChunkForContext else .ok acc

/-- One chunk in the fold (R166). -/
def foldChunk (lbBytes : Nat) (acc : Fold) (c : Chunk) : Result Fold :=
  match classOf c.typeTag with
  | .ihdr => foldIhdr lbBytes acc c
  | .idat =>
    if acc.desc = Option.none then .fail .invalidChunkForContext else .ok { acc with idat := acc.idat ++ c.data }
  | .plte => foldPlte acc c
  | .iend => .ok acc
  | .other => .ok acc

/-- The chunks in order, stopping at the first error (R166). -/
def foldChunks (lbBytes : Nat) : Fold → List Chunk → Result Fold
  | acc, [] => .ok acc
  | acc, c :: cs =>
    match foldChunk lbBytes acc c with
    | .ok acc' => foldChunks lbBytes acc' cs
    | .fail e => .fail e

/-- `fold(cs)`: the descriptor and the concatenated `IDAT` payload, or the first layer-D error (R166). -/
def fold (lbBytes : Nat) (cs : List Chunk) : Result (Descriptor × List Byte) :=
  match foldChunks lbBytes { desc := Option.none, idat := [] } cs with
  | .fail e => .fail e
  | .ok acc =>
    match acc.desc with
    | Option.none => .fail .invalidChunkForContext
    | some d => .ok (d, acc.idat)

/-! ### Rows -/

/-- The loop of `unfilter` over the bytes left, `done` being the bytes reconstructed so far (R189). -/
def unfilterLoop (f : FilterType) (prev : Option (List Byte)) (bpp : Nat) : List Byte → List Byte → List Byte
  | [], done => done
  | x :: xs, done =>
    unfilterLoop f prev bpp xs (done ++ [recon f x (listNeighbours done prev bpp done.length)])

/-- A row reconstructed by a legal filter type (R189). -/
def unfilterRow (f : FilterType) (row : List Byte) (prev : Option (List Byte)) (bpp : Nat) : List Byte :=
  unfilterLoop f prev bpp row []

/-- `unfilter(ft, S, P, bpp)`; a type above 4 fails (R189, R187). -/
def unfilter (ft : Byte) (row : List Byte) (prev : Option (List Byte)) (bpp : Nat) : Result (List Byte) :=
  match filterTypeOf ft with
  | some f => .ok (unfilterRow f row prev bpp)
  | Option.none => .fail .unknownFilterType

/-- A row filtered by a legal filter type (R237). -/
def filterRow (f : FilterType) (row : List Byte) (prev : Option (List Byte)) (bpp : Nat) : List Byte :=
  filterRowWith (filt f) row prev bpp

/-- `filter(ft, S, P, bpp)`; a type above 4 fails (R237). -/
def filter (ft : Byte) (row : List Byte) (prev : Option (List Byte)) (bpp : Nat) : Result (List Byte) :=
  match filterTypeOf ft with
  | some f => .ok (filterRow f row prev bpp)
  | Option.none => .fail .unknownFilterType

/-! ### Layer P -/

/-- The row loop of layer P over the decompressed bytes, `n` rows still to go (R215). -/
def rowLoop (bpp bps : Nat) : Nat → Option (List Byte) → List Byte → Result (List (List Byte))
  | 0, _, _ => .ok []
  | _ + 1, _, [] => .fail .truncatedPixelData
  | n + 1, prev, ft :: zs =>
    match filterTypeOf ft with
    | Option.none => .fail .unknownFilterType
    | some f =>
      if zs.length < bps then .fail .truncatedPixelData
      else
        let row := unfilterRow f (zs.take bps) prev bpp
        match rowLoop bpp bps n (some row) (zs.drop bps) with
        | .ok rows => .ok (row :: rows)
        | .fail e => .fail e

/-- Layer P on a Z stream that ended well: the reconstructed rows, or the error (R215). -/
def planeRows (d : Descriptor) (zs : List Byte) : Result (List (List Byte)) :=
  match rowLoop d.bpp d.bps d.height.toNat Option.none zs with
  | .fail e => .fail e
  | .ok rows => if d.bitDepth = 8 ∨ d.bitDepth = 16 then .ok rows else .fail .unsupportedBitDepth

/-! ### The pixel matrix -/

/-- The source's pixel matrix: two-dimensional for one channel, else three-dimensional (R213). -/
inductive PixelMatrix where
  | flat (rows : List (List Nat))
  | deep (rows : List (List (List Nat)))
  deriving DecidableEq, Repr

/-- `E`: bytes per element, 1 for depth 8 and 2 for depth 16 (R212). For other bit depths the spec defines no packing
(`30_encoding.md` R100); the model reads one byte per element there (DESIGN CHOICE, log entry 21). No result of a call has such a depth
(R208, R214). -/
def Descriptor.elementBytes (d : Descriptor) : Nat := if d.bitDepth = 16 then 2 else 1

/-- The element `M[r][x][k]` in the byte list `ps` (R212); 16-bit elements are big-endian (`30_encoding.md` R100). At depths
other than 8 and 16 it is one byte (DESIGN CHOICE, log entry 21). -/
def matrixElement (d : Descriptor) (ps : List Byte) (r x k : Nat) : Nat :=
  let at0 := r * d.bps + d.elementBytes * (x * d.channels + k)
  if d.bitDepth = 16 then (ps.getD at0 0).toNat * 256 + (ps.getD (at0 + 1) 0).toNat else (ps.getD at0 0).toNat

/-- The matrix view of the row bytes of a successful call (R212, R213). -/
def matrixView (d : Descriptor) (ps : List Byte) : PixelMatrix :=
  if d.channels = 1 then
    .flat ((List.range d.height.toNat).map (fun r =>
      (List.range d.width.toNat).map (fun x => matrixElement d ps r x 0)))
  else
    .deep ((List.range d.height.toNat).map (fun r =>
      (List.range d.width.toNat).map (fun x =>
        (List.range d.channels).map (fun k => matrixElement d ps r x k))))

/-- The rows of a matrix, each as its elements in order: pixel by pixel, channel by channel (R100). -/
def PixelMatrix.elements : PixelMatrix → List (List Nat)
  | .flat rows => rows
  | .deep rows => rows.map List.flatten

/-- A valid pixel matrix of the descriptor's shape, with elements in range (R213, R238). At depths other than 8 and 16 the range is that
of one byte (DESIGN CHOICE, log entry 21). -/
def PixelMatrix.fits (d : Descriptor) : PixelMatrix → Prop
  | .flat rows =>
    d.channels = 1 ∧ rows.length = d.height.toNat ∧
      ∀ row ∈ rows, row.length = d.width.toNat ∧ ∀ e ∈ row, e < 256 ^ d.elementBytes
  | .deep rows =>
    d.channels ≠ 1 ∧ rows.length = d.height.toNat ∧
      ∀ row ∈ rows, row.length = d.width.toNat ∧
        ∀ px ∈ row, px.length = d.channels ∧ ∀ e ∈ px, e < 256 ^ d.elementBytes

/-- The bytes of one element: itself, or two bytes most significant first (R238). An element out of range, which R238 does not admit and
N25 of `91_not_in_source.md` leaves open, has each of its bytes taken modulo 256 (DESIGN CHOICE, log entry 21). -/
def elementBytesOf (d : Descriptor) (e : Nat) : List Byte :=
  if d.bitDepth = 16 then [BitVec.ofNat 8 (e / 256), BitVec.ofNat 8 (e % 256)] else [BitVec.ofNat 8 e]

/-- `flatten(M, desc)`: not defined for bit depths other than 8 and 16 (R238). A matrix of another shape than the descriptor's, which N25
leaves open, has the rows it has flattened as they are (DESIGN CHOICE, log entry 21). -/
def flattenMatrix (d : Descriptor) (m : PixelMatrix) : Option (List (List Byte)) :=
  if d.bitDepth = 8 ∨ d.bitDepth = 16 then
    some (m.elements.map (fun row => (row.map (elementBytesOf d)).flatten))
  else Option.none

/-- The filtered rows, each after its filter-type byte, with the raw previous row as context (R239). -/
def encodeRows (f : FilterType) (bpp : Nat) : Option (List Byte) → List (List Byte) → List Byte
  | _, [] => []
  | prev, row :: rest => f.byte :: filterRow f row prev bpp ++ encodeRows f bpp (some row) rest

/-- `encode_plane(M, desc, ft)` for a legal filter type, one type for the whole image (R239, R240). -/
def encodePlane (deflate : List Byte → List Byte) (m : PixelMatrix) (d : Descriptor) (f : FilterType) :
    Option (List Byte) :=
  match flattenMatrix d m with
  | some rows => some (deflate (encodeRows f d.bpp Option.none rows))
  | Option.none => Option.none

/-! ### Whole decodes -/

/-- `decode_plane(payload, desc)` (R241). -/
def decodePlane (inflate : List Byte → Option (List Byte)) (payload : List Byte) (d : Descriptor) : Result PixelMatrix :=
  match inflate payload with
  | Option.none => .fail .decompressionFailed
  | some zs =>
    match planeRows d zs with
    | .fail e => .fail e
    | .ok rows => .ok (matrixView d rows.flatten)

/-- `decode_png(bs)` (R258). -/
def decodePng (inflate : List Byte → Option (List Byte)) (lbBytes : Nat) (bs : List Byte) : Result PixelMatrix :=
  match decodeContainer bs with
  | .fail e => .fail e
  | .ok cs =>
    match fold lbBytes cs with
    | .fail e => .fail e
    | .ok (d, idat) => decodePlane inflate idat d

/-- What a call is observed to give: nothing before `DONE`, then a matrix or one error kind, never a partial matrix (`43_plane.md`
R216, `70_reset_and_hazards.md` R296). -/
def callResult (s : State) : Option (Result PixelMatrix) :=
  if done s then
    some (if result s = .ok then .ok (matrixView (descriptorOf s) (s.pOut.map PToken.b)) else .fail (result s))
  else Option.none

end Sys2Proof.Machine
end

