-- ==== Sys2Proof/Machine/Vectors.lean ====
section
/-! DEFINITION. The vector items of `30_encoding.md` R116 and R117 and their expansion to tokens. -/

namespace Sys2Proof.Machine

/-- An item of an S stream (R116, R117). -/
inductive SItem where
  /-- `SIG`. -/
  | sig
  /-- `CHUNK "<tag>" [payload] trl=v`: the length is the number of payload bytes given. -/
  | chunk (tag : Word32) (payload : List Byte) (trl : Word32)
  /-- `IHDR(w, h, bd, ct, cm, fm, im) trl=v`. -/
  | ihdr (w h : Word32) (bd ct cm fm im : Byte) (trl : Word32)
  /-- `IEND trl=v`. -/
  | iend (trl : Word32)
  /-- `RAW bytes`. -/
  | raw (bs : List Byte)
  /-- `EOS`. -/
  | eos
  deriving DecidableEq, Repr

/-- A chunk of consistent length. -/
def chunkOf (tag : Word32) (payload : List Byte) (trl : Word32) : Chunk :=
  { length := BitVec.ofNat 32 payload.length, typeTag := tag, data := payload, trailing := trl }

/-- The tokens of an S item (R117). -/
def SItem.tokens : SItem → List SToken
  | .sig => signature.map .byte
  | .chunk tag payload trl => (encodeChunk (chunkOf tag payload trl)).map .byte
  | .ihdr w h bd ct cm fm im trl =>
    (encodeChunk (chunkOf ihdrTag (be32Bytes w ++ be32Bytes h ++ [bd, ct, cm, fm, im]) trl)).map .byte
  | .iend trl => (encodeChunk (chunkOf iendTag [] trl)).map .byte
  | .raw bs => bs.map .byte
  | .eos => [.eos]

/-- An item of a Z stream (R116, R117). -/
inductive ZItem where
  /-- `ROW <type> [bytes]`. -/
  | row (ft : Byte) (bs : List Byte)
  /-- `ZRAW bytes`. -/
  | zraw (bs : List Byte)
  /-- `ZEND`. -/
  | zend
  /-- `ZERR`. -/
  | zerr
  deriving DecidableEq, Repr

/-- The tokens of a Z item (R117). -/
def ZItem.tokens : ZItem → List ZToken
  | .row ft bs => (ft :: bs).map .byte
  | .zraw bs => bs.map .byte
  | .zend => [.zEnd]
  | .zerr => [.zErr]

/-- The tokens of an S stream. -/
def sStream (is : List SItem) : List SToken := (is.map SItem.tokens).flatten

/-- The tokens of a Z stream. -/
def zStream (is : List ZItem) : List ZToken := (is.map ZItem.tokens).flatten

end Sys2Proof.Machine
end

