-- ==== Sys2Proof/Safety.lean ====
section
/-! DEFINITION. What counts as a sound state and a safe run: the invariant of `10_state.md` R54 with the facts the other rules
derive beside it, in the terms the statements use. -/

namespace Sys2Proof.Safety

open Sys2Proof.Machine

/-! ### Bounds of the position registers -/

/-- `CNT` indexes the field FE is in (R54 (a)). -/
abbrev CounterInField (s : State) : Prop :=
  match s.fe.fst with
  | .sig => s.fe.cnt.toNat ≤ 7
  | .len => s.fe.cnt.toNat ≤ 3
  | .type => s.fe.cnt.toNat ≤ 3
  | .data => s.fe.cnt.toNat < s.fe.len.toNat
  | .trail => s.fe.cnt.toNat ≤ 3
  | .halt => True

/-- `ROW` and `COL` index the image PU is in (R54 (d)). -/
abbrev RowInImage (s : State) : Prop :=
  match s.pu.pst with
  | .filt => s.pu.row.toNat < s.fe.height.toNat
  | .data => s.pu.row.toNat < s.fe.height.toNat ∧ s.pu.col.toNat < s.fe.bps.toNat
  | .tail => s.pu.row = s.fe.height
  | .wait => True
  | .drain => True
  | .halt => True

/-! ### The descriptor -/

/-- A committed descriptor is legal, its derived quantities are those of `41_dispatch.md` R157, and a row fits (R54 (b)). -/
abbrev DescriptorSound (s : State) : Prop :=
  s.fe.descValid = true →
    s.fe.interlace = 0 ∧ s.fe.bps.toNat ≤ s.lbBytes ∧
      match colourTypeOf s.fe.colorType with
      | some c =>
        s.fe.ch.toNat = channels c ∧ s.fe.bpp.toNat = bytesPerPixel (channels c) s.fe.bitDepth ∧
          s.fe.bps.toNat = bytesPerScanline s.fe.width (channels c) s.fe.bitDepth
      | Option.none => False

/-- Layer D parses an `IHDR` payload only before a descriptor exists and only of length 13 (`41_dispatch.md` R156). -/
abbrev IhdrInProgress (s : State) : Prop :=
  s.fe.fst = .data → classOf s.fe.type = .ihdr → s.fe.derr = .ok → s.fe.descValid = false ∧ s.fe.len = 13

/-- `IDAT` bytes are forwarded only with a descriptor (R54 (f)). -/
abbrev IdatInProgress (s : State) : Prop :=
  s.fe.fst = .data → classOf s.fe.type = .idat → s.fe.derr = .ok → s.fe.descValid = true

/-- PU leaves `P_WAIT` for rows only with a descriptor (R54 (c)), and otherwise only once FE has halted (`43_plane.md` R201). -/
abbrev PlaneStarted (s : State) : Prop :=
  match s.pu.pst with
  | .wait => True
  | .filt => s.fe.descValid = true
  | .data => s.fe.descValid = true
  | .tail => s.fe.descValid = true
  | .drain => s.fe.descValid = true ∨ s.fe.fst = .halt
  | .halt => s.fe.descValid = true ∨ s.fe.fst = .halt

/-! ### Error codes -/

/-- Each sticky code is one its layer can raise (R26, R27, R36); `ChecksumMismatch` is never among them (`60_exceptions.md` R270). -/
abbrev CodesOfLayer (s : State) : Prop :=
  s.fe.ferr ∈ [ErrCode.ok, .badSignature, .truncated] ∧
    s.fe.derr ∈ [ErrCode.ok, .unsupportedColorType, .invalidChunkForContext, .notImplemented, .lineBufferOverflow] ∧
    s.pu.perr ∈ [ErrCode.ok, .unknownFilterType, .decompressionFailed, .truncatedPixelData, .unsupportedBitDepth]

/-- A layer-F error is recorded only in `F_HALT` (`60_exceptions.md` R253). -/
abbrev FrontErrorHalts (s : State) : Prop := s.fe.ferr ≠ .ok → s.fe.fst = .halt

/-- FE halts without a descriptor only with an error recorded (`41_dispatch.md` R162). -/
abbrev HaltHasReason (s : State) : Prop :=
  s.fe.fst = .halt → s.fe.descValid = false → s.fe.ferr ≠ .ok ∨ s.fe.derr ≠ .ok

/-- `PERR` is recorded only in `P_DRAIN` and `P_HALT` (`60_exceptions.md` R255). -/
abbrev PlaneErrorStops (s : State) : Prop := s.pu.perr ≠ .ok → s.pu.pst = .drain ∨ s.pu.pst = .halt

/-- Draining without an error is the case of no descriptor (`43_plane.md` R210). -/
abbrev DrainHasReason (s : State) : Prop := s.pu.pst = .drain → s.pu.perr = .ok → s.fe.descValid = false

/-! ### Line buffers and outputs -/

/-- Every listed address exists (`20_memory.md` R70). -/
abbrev LineBuffer.within (n : Nat) (buf : LineBuffer) : Prop := ∀ c ∈ buf, c.1 < n

/-- Both line buffers are in canonical form and hold nothing beyond their capacity (R37, `20_memory.md` R70). -/
abbrev BuffersCanonical (s : State) : Prop :=
  LineBuffer.wf s.pu.prev = true ∧ LineBuffer.wf s.pu.cur = true ∧
    LineBuffer.within s.lbBytes s.pu.prev ∧ LineBuffer.within s.lbBytes s.pu.cur

/-- `CEnd` has been emitted exactly once when FE has halted, as the last C token, and not at all before (`40_framer.md` R141). -/
abbrev EndEmittedOnce (s : State) : Prop :=
  if s.fe.fst = .halt then s.cOut.getLast? = some .cEnd ∧ CToken.cEnd ∉ s.cOut.dropLast else CToken.cEnd ∉ s.cOut

/-- C bytes are emitted only once a descriptor exists (`70_reset_and_hazards.md` R298). -/
abbrev ForwardedNeedsDescriptor (s : State) : Prop :=
  (∃ b, CToken.byte b ∈ s.cOut) → s.fe.descValid = true

/-- How many P tokens a call has emitted where PU stands (`43_plane.md` R204, R205, R212). -/
abbrev PixelsCounted (s : State) : Prop :=
  match s.pu.pst with
  | .wait => s.pOut = []
  | .filt => s.pOut.length = s.pu.row.toNat * s.fe.bps.toNat
  | .data => s.pOut.length = s.pu.row.toNat * s.fe.bps.toNat + s.pu.col.toNat
  | .tail => s.pOut.length = s.fe.height.toNat * s.fe.bps.toNat
  | .drain => True
  | .halt =>
    s.fe.descValid = true → s.pu.perr = .ok →
      s.pOut.length = s.fe.height.toNat * s.fe.bps.toNat ∧ supportedDepth s.fe.bitDepth = true

/-- The invariant of the block: R54 with the facts the rules derive beside it. It rules out the states no run reaches. -/
structure Inv (s : State) : Prop where
  counterInField : CounterInField s
  rowInImage : RowInImage s
  descriptorSound : DescriptorSound s
  ihdrInProgress : IhdrInProgress s
  idatInProgress : IdatInProgress s
  planeStarted : PlaneStarted s
  codesOfLayer : CodesOfLayer s
  frontErrorHalts : FrontErrorHalts s
  haltHasReason : HaltHasReason s
  planeErrorStops : PlaneErrorStops s
  drainHasReason : DrainHasReason s
  buffersCanonical : BuffersCanonical s
  endEmittedOnce : EndEmittedOnce s
  forwardedNeedsDescriptor : ForwardedNeedsDescriptor s
  pixelsCounted : PixelsCounted s

/-! ### Terms of the statements -/

/-- A turn that is not a reset. -/
def Event.isReset : Event → Bool
  | .rst _ _ => true
  | .fe | .pu | .infl | .deliver _ | .src _ | .setKReady _ | .setCReady _ | .setPReady _ | .encodeRow _ => false

/-- The next step is not a reset. -/
abbrev NoReset (s : State) : Prop := ∀ e rest, s.sched = e :: rest → Event.isReset e = false

/-- Everything outside the block's own agents and streams is as before: what no step of FE or PU touches. -/
abbrev EnvironmentKept (s t : State) : Prop :=
  t.srcEnded = s.srcEnded ∧ t.kReady = s.kReady ∧ t.cReady = s.cReady ∧ t.pReady = s.pReady ∧ t.infl = s.infl ∧
    t.lbBytes = s.lbBytes ∧ t.enc = s.enc ∧ t.sched = s.sched

/-- The seven descriptor registers and the derived ones, `DESC_VALID` apart (R28 to R31). -/
abbrev DescriptorKept (s t : State) : Prop :=
  t.fe.width = s.fe.width ∧ t.fe.height = s.fe.height ∧ t.fe.bitDepth = s.fe.bitDepth ∧
    t.fe.colorType = s.fe.colorType ∧ t.fe.compression = s.fe.compression ∧ t.fe.filterMeth = s.fe.filterMeth ∧
    t.fe.interlace = s.fe.interlace ∧ t.fe.ch = s.fe.ch ∧ t.fe.bpp = s.fe.bpp ∧ t.fe.bps = s.fe.bps

/-- What INFL has delivered is what the contract of `20_memory.md` R72 asks: no end token before `CEnd`, and with an end token the
whole of `inflate` of the C bytes wherever that succeeds. -/
abbrev DeliveryKept (s : State) : Prop :=
  s.infl.ended = true →
    CToken.cEnd ∈ s.cOut ∧ ∀ zs, Config.inflate (cBytes s) = some zs → s.infl.sent = zs

/-- `ZEnd` and `ZErr`, the end tokens of stream Z (`20_memory.md` R67). -/
def ZToken.ends : ZToken → Bool
  | .byte _ => false
  | .zEnd | .zErr => true

/-- The order of stream Z (`20_memory.md` R72, `70_reset_and_hazards.md` R297): INFL offers nothing after its end token, and PU halts only
on that token, so that none is left. -/
abbrev DeliveryOrdered (s : State) : Prop :=
  (∀ z ∈ s.zIn.dropLast, ZToken.ends z = false) ∧ ((∃ z ∈ s.zIn, ZToken.ends z = true) → s.infl.ended = true) ∧
    (s.pu.pst = .halt → s.infl.ended = true ∧ s.zIn = [])

/-- What SRC offers is what `20_memory.md` R73 allows: `SEos` only at the end, and once it has been offered nothing after it. -/
abbrev SourceKept (s : State) : Prop :=
  SToken.eos ∉ s.sIn.dropLast ∧ (SToken.eos ∈ s.sIn → s.srcEnded = true) ∧
    (s.srcEnded = true → s.sIn = [] ∨ s.sIn.getLast? = some .eos)

/-! ### Runs -/

/-- `n` turns of FE in a row. -/
def runFront : Nat → State → Outcome
  | 0, s => .next s
  | n + 1, s => andThen (feStep s) (runFront n)

/-- `n` turns of PU in a row. -/
def runPlane : Nat → State → Outcome
  | 0, s => .next s
  | n + 1, s => andThen (puStep s) (runPlane n)

/-- The state in which a call on the bytes `bs` begins (`70_reset_and_hazards.md` R294): the block as reset leaves it, SRC offering the
bytes and then `SEos`, an instance of capacity `lb`, and the turns to come. -/
def callStart (lb : Nat) (bs : List Byte) (turns : List Event) : State :=
  { State.reset with
    sIn := presentInput bs true
    srcEnded := true
    lbBytes := lb
    sched := turns }

/-! ### Filter arithmetic in naturals -/

/-- `paeth` with the distances as `42_unfilter.md` R186 works them out: `|b - c|`, `|a - c|`, `|a + b - 2c|`. -/
def nearest (a b c : Nat) : Nat :=
  let pa := ((b : Int) - c).natAbs
  let pb := ((a : Int) - c).natAbs
  let pc := ((a : Int) + b - 2 * c).natAbs
  if pa ≤ pb ∧ pa ≤ pc then a else if pb ≤ pc then b else c

/-- `pred(ft, a, b, c)` (`42_unfilter.md` R180). -/
def predictor (f : FilterType) (a b c : Nat) : Nat :=
  match f with
  | .none => 0
  | .sub => a
  | .up => b
  | .avg => (a + b) / 2
  | .paeth => nearest a b c

end Sys2Proof.Safety
end

