-- ==== Sys2Proof/Certificates/Slice0/Obligations.lean ====
section
/-! DEFINITION. The statements for the provers. Where a statement gives a next state as a record update of `s`, every field it does not
name is unchanged: the pins, the schedule, the forward record, the registers of the other agent and both line buffers among them. -/

open Sys2Proof Sys2Proof.Machine Sys2Proof.Safety

/-! ### Encoding -/

/-- Decoding the encoding of a well-formed instruction in its own format gives it back, whatever follows. Derived from the encoding
tables of `30_encoding.md` (R91, R92, R94, R96, R99, R118). -/
def Obligations.DecodeOfEncodeIsTheInstruction : Prop :=
  ∀ (i : Instr) (rest : List Byte), i.wf = true → decode i.format (encode i ++ rest) = .ok i rest

/-- A byte list a format decodes is the encoding of the instruction found, which is well formed and of that format, then the rest: no
two byte patterns of a format share an instruction. -/
def Obligations.EncodeOfDecodeIsTheBytes : Prop :=
  ∀ (f : Format) (bs rest : List Byte) (i : Instr), decode f bs = .ok i rest →
    i.wf = true ∧ i.format = f ∧ encode i ++ rest = bs

/-- Words written out from the tables of `30_encoding.md` decode to the rows they stand for. -/
def Obligations.SpecWordsDecodeToTheirRows : Prop :=
  decode .signature [0x89#8, 0x50#8, 0x4E#8, 0x47#8, 0x0D#8, 0x0A#8, 0x1A#8, 0x0A#8] = .ok .sig [] ∧
  decode .chunkHeader [0x00#8, 0x00#8, 0x00#8, 0x0D#8, 0x49#8, 0x48#8, 0x44#8, 0x52#8] = .ok (.ihdr 13#32) [] ∧
  decode .chunkHeader [0xFF#8, 0xFF#8, 0xFF#8, 0xFF#8, 0x49#8, 0x44#8, 0x41#8, 0x54#8] = .ok (.idat 0xFFFFFFFF#32) [] ∧
  decode .chunkHeader [0x00#8, 0x00#8, 0x00#8, 0x00#8, 0x49#8, 0x45#8, 0x4E#8, 0x44#8] = .ok (.iend 0#32) [] ∧
  decode .chunkHeader [0x00#8, 0x00#8, 0x03#8, 0x00#8, 0x50#8, 0x4C#8, 0x54#8, 0x45#8] = .ok (.plte 768#32) [] ∧
  decode .chunkHeader [0x00#8, 0x00#8, 0x00#8, 0x01#8, 0x69#8, 0x68#8, 0x64#8, 0x72#8] = .ok (.other 1#32 0x69686472#32) [] ∧
  decode .colourType [0x06#8] = .ok .rgba [] ∧
  decode .filterByte [0x04#8] = .ok .paeth [] ∧
  decode .filterByteEncode [0x03#8] = .ok .fwdAvg []

/-- R151: the class of a tag, by exact comparison of all 32 bits. -/
def Obligations.ChunkClassIsExactTagComparison : Prop :=
  ∀ t : Word32,
    (classOf t = .ihdr ↔ t = 0x49484452#32) ∧ (classOf t = .idat ↔ t = 0x49444154#32) ∧
    (classOf t = .iend ↔ t = 0x49454E44#32) ∧ (classOf t = .plte ↔ t = 0x504C5445#32) ∧
    (classOf t = .other ↔ t ≠ 0x49484452#32 ∧ t ≠ 0x49444154#32 ∧ t ≠ 0x49454E44#32 ∧ t ≠ 0x504C5445#32)

/-- The one-byte formats: the byte values of the tables of `30_encoding.md` select their rows, and every other byte is the illegal
outcome of its format. -/
def Obligations.OneByteFormatsFollowTheirTables : Prop :=
  ∀ (b : Byte) (rest : List Byte),
    decode .colourType (b :: rest) =
      (if b.toNat = 0 then .ok .gray rest else if b.toNat = 2 then .ok .rgb rest else if b.toNat = 3 then .ok .indexed rest
       else if b.toNat = 4 then .ok .graya rest else if b.toNat = 6 then .ok .rgba rest
       else .reject .unsupportedColorType) ∧
    decode .filterByte (b :: rest) =
      (if b.toNat = 0 then .ok .none rest else if b.toNat = 1 then .ok .sub rest else if b.toNat = 2 then .ok .up rest
       else if b.toNat = 3 then .ok .avg rest else if b.toNat = 4 then .ok .paeth rest else .reject .unknownFilterType) ∧
    decode .filterByteEncode (b :: rest) =
      (if b.toNat = 0 then .ok .fwdNone rest else if b.toNat = 1 then .ok .fwdSub rest else if b.toNat = 2 then .ok .fwdUp rest
       else if b.toNat = 3 then .ok .fwdAvg rest else if b.toNat = 4 then .ok .fwdPaeth rest
       else .reject .unknownFilterType)

/-! ### From bytes to an instruction that runs -/

/-- Eight FE turns over eight header bytes run the instruction those bytes decode to, on a state whose `LEN` and `TYPE` hold the two
big-endian words (R133, R135). Whatever `LEN` and `TYPE` held before is shifted out. -/
def Obligations.EightHeaderBytesRunTheirInstruction : Prop :=
  ∀ (s : State) (b0 b1 b2 b3 b4 b5 b6 b7 : Byte) (more : List SToken) (i : Instr),
    s.fe.fst = .len → s.fe.cnt = 0 → s.kReady = true →
    s.sIn = .byte b0 :: .byte b1 :: .byte b2 :: .byte b3 :: .byte b4 :: .byte b5 :: .byte b6 :: .byte b7 :: more →
    decode .chunkHeader [b0, b1, b2, b3, b4, b5, b6, b7] = .ok i [] →
    runFront 8 s = exec i { s with
      sIn := more
      fe := { s.fe with
        fst := .type
        cnt := 3
        len := BitVec.ofNat 32 (((b0.toNat * 256 + b1.toNat) * 256 + b2.toNat) * 256 + b3.toNat)
        type := BitVec.ofNat 32 (((b4.toNat * 256 + b5.toNat) * 256 + b6.toNat) * 256 + b7.toNat) } }

/-- A step runs the decoded instruction. `u` is the state with the turn taken from the schedule: FE's and PU's turn also come by the
default order (log entry 4), the reference encoder's only from the schedule (log entry 15). -/
def Obligations.StepRunsTheDecodedInstruction : Prop :=
  ∀ (s u : State) (turns : List Event) (i : Instr),
    (((s.sched = .fe :: turns ∧ u = { s with sched := turns }) ∨ (s.sched = [] ∧ u = s)) → feEnabled s = true →
      (s.fe.fst = .sig → i = .sig → step s = exec i u) ∧
      (∀ b more, s.fe.fst = .type → s.fe.cnt = 3 → s.sIn = .byte b :: more →
        decode .chunkHeader (be32Bytes s.fe.len ++ be32Bytes (BitVec.ofNat 32 (s.fe.type.toNat * 256 + b.toNat))) = .ok i [] →
        step s = exec i { u with
          sIn := more, fe := { s.fe with type := BitVec.ofNat 32 (s.fe.type.toNat * 256 + b.toNat) } }) ∧
      (s.fe.fst = .data ∨ s.fe.fst = .trail →
        decode .chunkHeader (be32Bytes s.fe.len ++ be32Bytes s.fe.type) = .ok i [] → step s = exec i u)) ∧
    (((s.sched = .pu :: turns ∧ u = { s with sched := turns }) ∨ (s.sched = [] ∧ feEnabled s = false ∧ u = s)) →
      puEnabled s = true →
      (∀ b more, s.pu.pst = .filt → s.zIn = .byte b :: more → decode .filterByte [b] = .ok i [] →
        step s = exec i { u with zIn := more }) ∧
      (s.pu.pst = .data → decode .filterByte [s.pu.ft.byte] = .ok i [] → step s = exec i u)) ∧
    (∀ b, s.sched = .encodeRow b :: turns → u = { s with sched := turns } → s.enc.err = .ok → s.enc.rows ≠ [] →
      decode .filterByteEncode [b] = .ok i [] → step s = exec i u)

/-! ### Layer F -/

/-- R131 and R132: each signature byte is compared with the one `CNT` names; a mismatch, or the end of the input, is `BadSignature`
and halts FE in that step with nothing but `CEnd` emitted. -/
def Obligations.SignatureIsCheckedByteByByte : Prop :=
  ∀ (s : State) (more : List SToken), s.fe.fst = .sig →
    (∀ b, s.fe.cnt.toNat ≤ 7 → s.sIn = .byte b :: more →
      exec .sig s = .next
        (if b = signature.getD s.fe.cnt.toNat 0 then
          if s.fe.cnt.toNat = 7 then { s with sIn := more, fe := { s.fe with fst := .len, cnt := 0 } }
          else { s with sIn := more, fe := { s.fe with cnt := s.fe.cnt + 1 } }
        else
          { s with
            sIn := more, cOut := s.cOut ++ [.cEnd], fe := { s.fe with fst := .halt, ferr := .badSignature } })) ∧
    (s.sIn = .eos :: more →
      exec .sig s = .next { s with
        sIn := more, cOut := s.cOut ++ [.cEnd], fe := { s.fe with fst := .halt, ferr := .badSignature } })

/-- R133 and R134: a length byte is shifted into `LEN`; the end of the input is clean at `CNT = 0` (then `D_end` judges, R162) and
`Truncated` inside the field. -/
def Obligations.LengthFieldIsAssembled : Prop :=
  ∀ (s : State) (more : List SToken), s.fe.fst = .len → s.fe.cnt.toNat ≤ 3 →
    (∀ b, s.sIn = .byte b :: more →
      feStep s = .next { s with
        sIn := more
        fe := { s.fe with
          len := BitVec.ofNat 32 (s.fe.len.toNat * 256 + b.toNat)
          fst := if s.fe.cnt.toNat = 3 then .type else .len
          cnt := if s.fe.cnt.toNat = 3 then 0 else s.fe.cnt + 1 } }) ∧
    (s.sIn = .eos :: more → s.cReady = true →
      feStep s = .next { s with
        sIn := more
        cOut := s.cOut ++ [.cEnd]
        fe := { s.fe with
          fst := .halt
          ferr := if s.fe.cnt = 0 then s.fe.ferr else .truncated
          derr :=
            if s.fe.cnt = 0 ∧ s.fe.ferr = .ok ∧ s.fe.derr = .ok ∧ s.fe.descValid = false then .invalidChunkForContext
            else s.fe.derr } })

/-- R136, and R135 for the first three type bytes; the fourth runs the chunk's instruction. -/
def Obligations.TypeFieldIsAssembled : Prop :=
  ∀ (s : State) (more : List SToken), s.fe.fst = .type → s.fe.cnt.toNat ≤ 3 →
    (∀ b, s.sIn = .byte b :: more → s.fe.cnt.toNat ≠ 3 →
      feStep s = .next { s with
        sIn := more
        fe := { s.fe with type := BitVec.ofNat 32 (s.fe.type.toNat * 256 + b.toNat), cnt := s.fe.cnt + 1 } }) ∧
    (s.sIn = .eos :: more → s.cReady = true →
      feStep s = .next { s with
        sIn := more, cOut := s.cOut ++ [.cEnd], fe := { s.fe with fst := .halt, ferr := .truncated } })

/-! ### Chunk headers: the step of the fourth type byte -/

/-- R152: `IHDR` is announced on port K; a second one, or a length other than 13, is a context error while layer D is active. -/
def Obligations.IhdrHeaderIsChecked : Prop :=
  ∀ (n : Word32) (s : State), s.fe.fst = .type → s.fe.cnt = 3 →
    exec (.ihdr n) s = .next { s with
      kOut := s.kOut ++ [.hdr n 0x49484452#32]
      fe := { s.fe with
        len := n
        type := 0x49484452#32
        fst := if n = 0 then .trail else .data
        cnt := 0
        derr := if s.fe.derr = .ok ∧ (s.fe.descValid = true ∨ n.toNat ≠ 13) then .invalidChunkForContext else s.fe.derr } }

/-- R153: `IDAT` is announced on port K; without a committed descriptor it is a context error while layer D is active. -/
def Obligations.IdatHeaderNeedsDescriptor : Prop :=
  ∀ (n : Word32) (s : State), s.fe.fst = .type → s.fe.cnt = 3 →
    exec (.idat n) s = .next { s with
      kOut := s.kOut ++ [.hdr n 0x49444154#32]
      fe := { s.fe with
        len := n
        type := 0x49444154#32
        fst := if n = 0 then .trail else .data
        cnt := 0
        derr := if s.fe.derr = .ok ∧ s.fe.descValid = false then .invalidChunkForContext else s.fe.derr } }

/-- R154: `PLTE` is announced on port K; without a descriptor, with a colour type that forbids a palette, or with a length not
divisible by 3 it is a context error while layer D is active. -/
def Obligations.PlteHeaderIsJudgedInContext : Prop :=
  ∀ (n : Word32) (s : State), s.fe.fst = .type → s.fe.cnt = 3 →
    exec (.plte n) s = .next { s with
      kOut := s.kOut ++ [.hdr n 0x504C5445#32]
      fe := { s.fe with
        len := n
        type := 0x504C5445#32
        fst := if n = 0 then .trail else .data
        cnt := 0
        derr :=
          if s.fe.derr = .ok ∧ (s.fe.descValid = false ∨ s.fe.colorType.toNat = 0 ∨ s.fe.colorType.toNat = 4 ∨ n.toNat % 3 ≠ 0)
          then .invalidChunkForContext else s.fe.derr } }

/-- R155: `IEND` and an unrecognised chunk are announced on port K and change no state of layer D. -/
def Obligations.OpaqueHeaderChangesNoDescriptorState : Prop :=
  ∀ (n t : Word32) (s : State), s.fe.fst = .type → s.fe.cnt = 3 →
    exec (.iend n) s = .next { s with
      kOut := s.kOut ++ [.hdr n 0x49454E44#32]
      fe := { s.fe with len := n, type := 0x49454E44#32, fst := if n = 0 then .trail else .data, cnt := 0 } } ∧
    exec (.other n t) s = .next { s with
      kOut := s.kOut ++ [.hdr n t]
      fe := { s.fe with len := n, type := t, fst := if n = 0 then .trail else .data, cnt := 0 } }

/-! ### Payloads -/

/-- R156: payload byte `CNT` of the first `IHDR` goes to the register its index names; with byte 12 the colour type is decoded and its
row run, or `UnsupportedColorType` raised. Every byte goes to port K as well. -/
def Obligations.IhdrPayloadFillsTheDescriptor : Prop :=
  ∀ (n : Word32) (s : State) (b : Byte) (more : List SToken),
    s.fe.fst = .data → s.fe.type = 0x49484452#32 → s.fe.derr = .ok → s.fe.len = 13 → s.fe.cnt.toNat ≤ 12 →
    s.sIn = .byte b :: more →
    (s.fe.cnt.toNat ≤ 11 →
      exec (.ihdr n) s = .next { s with
        sIn := more
        kOut := s.kOut ++ [.pay b]
        fe := { s.fe with
          cnt := s.fe.cnt + 1
          width :=
            if s.fe.cnt.toNat ≤ 3 then BitVec.ofNat 32 (s.fe.width.toNat * 256 + b.toNat) else s.fe.width
          height :=
            if 4 ≤ s.fe.cnt.toNat ∧ s.fe.cnt.toNat ≤ 7 then BitVec.ofNat 32 (s.fe.height.toNat * 256 + b.toNat)
            else s.fe.height
          bitDepth := if s.fe.cnt.toNat = 8 then b else s.fe.bitDepth
          colorType := if s.fe.cnt.toNat = 9 then b else s.fe.colorType
          compression := if s.fe.cnt.toNat = 10 then b else s.fe.compression
          filterMeth := if s.fe.cnt.toNat = 11 then b else s.fe.filterMeth } }) ∧
    (s.fe.cnt.toNat = 12 →
      (∀ i, decode .colourType [s.fe.colorType] = .ok i [] →
        exec (.ihdr n) s =
          andThen (exec i { s with sIn := more, kOut := s.kOut ++ [.pay b], fe := { s.fe with interlace := b } })
            (fun u => .next { u with fe := { u.fe with fst := .trail, cnt := 0 } })) ∧
      (∀ r, decode .colourType [s.fe.colorType] = .reject r →
        exec (.ihdr n) s = .next { s with
          sIn := more
          kOut := s.kOut ++ [.pay b]
          fe := { s.fe with interlace := b, derr := .unsupportedColorType, fst := .trail, cnt := 0 } }))

/-- R157 to R159: the five colour types, with the channel counts of the fixed table. The commit tests the interlace method, computes
the derived quantities in unbounded naturals, tests the capacity and sets `DESC_VALID`; any other colour type is
`UnsupportedColorType` with `CH`, `BPP`, `BPS` and `DESC_VALID` as they were. -/
def Obligations.ColourTypeCommitsTheDescriptor : Prop :=
  (∀ (i : Instr) (c : Nat), (i, c) ∈ [(Instr.gray, 1), (.rgb, 3), (.indexed, 1), (.graya, 2), (.rgba, 4)] →
    ∀ s : State, s.fe.fst = .data → s.fe.type = 0x49484452#32 → s.fe.cnt = 12 → s.fe.derr = .ok →
      let bpp := (c * s.fe.bitDepth.toNat + 7) / 8
      let bps := (s.fe.width.toNat * c * s.fe.bitDepth.toNat + 7) / 8
      bpp ≤ 128 ∧ bps < 2 ^ 39 ∧ (s.fe.bitDepth = 8 ∨ s.fe.bitDepth = 16 → bps = s.fe.width.toNat * bpp) ∧
      (0 < bps → 1 ≤ bpp) ∧
      exec i s = .next
        (if s.fe.interlace ≠ 0 then { s with fe := { s.fe with derr := .notImplemented } }
        else if s.lbBytes < bps then
          { s with
            fe := { s.fe with
              ch := BitVec.ofNat 3 c, bpp := BitVec.ofNat 8 bpp, bps := BitVec.ofNat 39 bps
              derr := .lineBufferOverflow } }
        else
          { s with
            fe := { s.fe with
              ch := BitVec.ofNat 3 c, bpp := BitVec.ofNat 8 bpp, bps := BitVec.ofNat 39 bps, descValid := true } })) ∧
  (∀ (n : Word32) (s : State) (b : Byte) (more : List SToken),
    s.fe.fst = .data → s.fe.type = 0x49484452#32 → s.fe.derr = .ok → s.fe.len = 13 → s.fe.cnt = 12 →
    s.sIn = .byte b :: more → s.fe.colorType.toNat ∉ [0, 2, 3, 4, 6] →
    ∃ t, exec (.ihdr n) s = .next t ∧ t.fe.derr = .unsupportedColorType ∧ t.fe.ch = s.fe.ch ∧ t.fe.bpp = s.fe.bpp ∧
      t.fe.bps = s.fe.bps ∧ t.fe.descValid = s.fe.descValid)

/-- R160: an `IDAT` payload byte goes to port K, and while layer D is active to port C as well. -/
def Obligations.IdatPayloadIsForwarded : Prop :=
  ∀ (n : Word32) (s : State) (b : Byte) (more : List SToken),
    s.fe.fst = .data → s.fe.type = 0x49444154#32 → s.fe.cnt.toNat < s.fe.len.toNat → s.sIn = .byte b :: more →
    exec (.idat n) s = .next { s with
      sIn := more
      kOut := s.kOut ++ [.pay b]
      cOut := if s.fe.derr = .ok then s.cOut ++ [.byte b] else s.cOut
      fe := { s.fe with
        fst := if s.fe.cnt.toNat + 1 = s.fe.len.toNat then .trail else .data
        cnt := if s.fe.cnt.toNat + 1 = s.fe.len.toNat then 0 else s.fe.cnt + 1 } }

/-- R161: a payload byte of any other class goes to port K and nowhere else; so does an `IHDR` payload byte once layer D is
inactive (R150). -/
def Obligations.OpaquePayloadGoesToPortKOnly : Prop :=
  ∀ (n t : Word32) (i : Instr) (cls : ChunkClass) (s : State) (b : Byte) (more : List SToken),
    (i, cls) ∈ [(Instr.plte n, ChunkClass.plte), (.iend n, .iend), (.other n t, .other)] ∨
      (i = .ihdr n ∧ cls = .ihdr ∧ s.fe.derr ≠ .ok) →
    s.fe.fst = .data → classOf s.fe.type = cls → s.fe.cnt.toNat < s.fe.len.toNat → s.sIn = .byte b :: more →
    exec i s = .next { s with
      sIn := more
      kOut := s.kOut ++ [.pay b]
      fe := { s.fe with
        fst := if s.fe.cnt.toNat + 1 = s.fe.len.toNat then .trail else .data
        cnt := if s.fe.cnt.toNat + 1 = s.fe.len.toNat then 0 else s.fe.cnt + 1 } }

/-! ### Trailing values and the end of a container -/

/-- R139 and R144: the trailing value is assembled and carried to `KTrl` whatever it is; then the next chunk, or after `IEND` the end
of the container, where a missing descriptor is a context error (R162). -/
def Obligations.TrailingValueIsCarriedUnchecked : Prop :=
  ∀ (n t : Word32) (i : Instr) (cls : ChunkClass) (s : State) (b : Byte) (more : List SToken),
    (i, cls) ∈ [(Instr.ihdr n, ChunkClass.ihdr), (.idat n, .idat), (.plte n, .plte), (.iend n, .iend), (.other n t, .other)] →
    s.fe.fst = .trail → classOf s.fe.type = cls → s.fe.cnt.toNat ≤ 3 → s.sIn = .byte b :: more →
    let v := BitVec.ofNat 32 (s.fe.trl.toNat * 256 + b.toNat)
    exec i s = .next
      (if s.fe.cnt.toNat ≠ 3 then { s with sIn := more, fe := { s.fe with trl := v, cnt := s.fe.cnt + 1 } }
      else if cls = .iend then
        { s with
          sIn := more
          kOut := s.kOut ++ [.trl v]
          cOut := s.cOut ++ [.cEnd]
          fe := { s.fe with
            trl := v
            fst := .halt
            derr :=
              if s.fe.ferr = .ok ∧ s.fe.derr = .ok ∧ s.fe.descValid = false then .invalidChunkForContext
              else s.fe.derr } }
      else
        { s with sIn := more, kOut := s.kOut ++ [.trl v], fe := { s.fe with trl := v, fst := .len, cnt := 0 } })

/-- R138 and R140: the input ends inside a payload or a trailing value. -/
def Obligations.InputEndInsideChunkIsTruncated : Prop :=
  ∀ (n t : Word32) (i : Instr) (cls : ChunkClass) (s : State) (more : List SToken),
    (i, cls) ∈ [(Instr.ihdr n, ChunkClass.ihdr), (.idat n, .idat), (.plte n, .plte), (.iend n, .iend), (.other n t, .other)] →
    s.fe.fst = .data ∨ s.fe.fst = .trail → classOf s.fe.type = cls → s.sIn = .eos :: more →
    exec i s = .next { s with
      sIn := more, cOut := s.cOut ++ [.cEnd], fe := { s.fe with fst := .halt, ferr := .truncated } }

/-- R141 and R162: whichever step halts FE, it runs `D_end` on the new `FERR` and emits `CEnd`, the only one of the call and its last C
token; `CNT` keeps its value. -/
def Obligations.HaltingRunsEndCheckAndEmitsOneEnd : Prop :=
  ∀ s t : State, Inv s → feStep s = .next t → s.fe.fst ≠ .halt → t.fe.fst = .halt →
    t.fe.derr =
        (if t.fe.ferr = .ok ∧ s.fe.derr = .ok ∧ s.fe.descValid = false then .invalidChunkForContext else s.fe.derr) ∧
      t.cOut = s.cOut ++ [.cEnd] ∧ CToken.cEnd ∉ s.cOut ∧ t.fe.cnt = s.fe.cnt

/-! ### Filter rows -/

/-- R202 and R187: a legal filter-type byte selects its row's operation, and a row of no bytes is done at once; an illegal one is
`UnknownFilterType`, is not stored, and drains PU. -/
def Obligations.FilterTypeByteSelectsTheRow : Prop :=
  (∀ (i : Instr) (f : FilterType),
    (i, f) ∈ [(Instr.none, FilterType.none), (.sub, .sub), (.up, .up), (.avg, .avg), (.paeth, .paeth)] →
    ∀ s : State, s.pu.pst = .filt →
      exec i s = .next
        (if s.fe.bps.toNat = 0 then
          { s with
            pu := { s.pu with
              ft := f, col := 0, row := s.pu.row + 1, pst := if s.pu.row + 1 = s.fe.height then .tail else .filt } }
        else { s with pu := { s.pu with ft := f, col := 0, pst := .data } })) ∧
  (∀ (s : State) (b : Byte) (more : List ZToken), s.pu.pst = .filt → s.zIn = .byte b :: more → 4 < b.toNat →
    puStep s = .next { s with zIn := more, pu := { s.pu with perr := .unknownFilterType, pst := .drain } })

/-- R204 and R205 with R180 and R181: one row byte. The neighbours are reconstructed bytes of the line buffers or 0 outside the row and
the image; the result is `(x + pred) mod 256`, written to `CUR` at `COL` and emitted, with the end-of-row mark on the last byte; then
the row ends: `PREV` takes the row, `ROW` counts it. No other byte of either buffer changes. -/
def Obligations.RowByteIsReconstructed : Prop :=
  ∀ (i : Instr) (f : FilterType),
    (i, f) ∈ [(Instr.none, FilterType.none), (.sub, .sub), (.up, .up), (.avg, .avg), (.paeth, .paeth)] →
    ∀ (s : State) (x : Byte) (more : List ZToken), BuffersCanonical s →
      s.pu.pst = .data → s.pu.ft = f → s.pu.col.toNat < s.fe.bps.toNat → s.fe.bps.toNat ≤ s.lbBytes →
      s.zIn = .byte x :: more →
      let k := s.pu.col.toNat
      let bpp := s.fe.bpp.toNat
      let a := if bpp ≤ k then (LineBuffer.read s.pu.cur (k - bpp)).toNat else 0
      let b := if 0 < s.pu.row.toNat then (LineBuffer.read s.pu.prev k).toNat else 0
      let c := if 0 < s.pu.row.toNat ∧ bpp ≤ k then (LineBuffer.read s.pu.prev (k - bpp)).toNat else 0
      let y := BitVec.ofNat 8 ((x.toNat + predictor f a b c) % 256)
      ∃ t, exec i s = .next t ∧
        t = { s with
          zIn := more
          pOut := s.pOut ++ [{ b := y, eol := decide (k + 1 = s.fe.bps.toNat) }]
          pu := { s.pu with
            cur := t.pu.cur
            prev := t.pu.prev
            row := if k + 1 = s.fe.bps.toNat then s.pu.row + 1 else s.pu.row
            col := if k + 1 = s.fe.bps.toNat then s.pu.col else s.pu.col + 1
            pst :=
              if k + 1 = s.fe.bps.toNat then (if s.pu.row + 1 = s.fe.height then .tail else .filt) else .data } } ∧
        (∀ j, LineBuffer.read t.pu.cur j = if j = k then y else LineBuffer.read s.pu.cur j) ∧
        (∀ j, LineBuffer.read t.pu.prev j =
          if k + 1 = s.fe.bps.toNat ∧ j < s.fe.bps.toNat then LineBuffer.read t.pu.cur j else LineBuffer.read s.pu.prev j)

/-- R203 and R206: an end token before the last row is done. -/
def Obligations.EndTokenBeforeLastRowHaltsThePlane : Prop :=
  ∀ (s : State) (more : List ZToken), s.pu.pst = .filt ∨ s.pu.pst = .data →
    (s.zIn = .zEnd :: more →
      puStep s = .next { s with zIn := more, pu := { s.pu with perr := .truncatedPixelData, pst := .halt } }) ∧
    (s.zIn = .zErr :: more →
      puStep s = .next { s with zIn := more, pu := { s.pu with perr := .decompressionFailed, pst := .halt } })

/-- R207 to R210: after the last row, and while draining, bytes are discarded; the end token judges the bit depth only after the last
row, and a decompression failure overrides a recorded code. -/
def Obligations.TailAndDrainConsumeToTheEnd : Prop :=
  ∀ (s : State) (more : List ZToken), s.pu.pst = .tail ∨ s.pu.pst = .drain →
    (∀ b, s.zIn = .byte b :: more → puStep s = .next { s with zIn := more }) ∧
    (s.zIn = .zEnd :: more →
      puStep s = .next { s with
        zIn := more
        pu := { s.pu with
          pst := .halt
          perr :=
            if s.pu.pst = .tail ∧ s.fe.bitDepth.toNat ≠ 8 ∧ s.fe.bitDepth.toNat ≠ 16 then .unsupportedBitDepth
            else s.pu.perr } }) ∧
    (s.zIn = .zErr :: more →
      puStep s = .next { s with zIn := more, pu := { s.pu with pst := .halt, perr := .decompressionFailed } })

/-- R201: PU waits for the descriptor, or for the halt that says there will be none; it consumes no token. -/
def Obligations.PlaneWaitsForTheDescriptor : Prop :=
  ∀ s : State, s.pu.pst = .wait →
    puStep s = .next
      (if s.fe.descValid = true then
        { s with pu := { s.pu with row := 0, col := 0, pst := if s.fe.height = 0 then .tail else .filt } }
      else if s.fe.fst = .halt then { s with pu := { s.pu with pst := .drain } }
      else s)

/-- R180 and R182 to R186: each reversal operation adds its predictor modulo 256, the predictor in naturals and never above 255
(the average's sum in 9 bits, Paeth's distances in integers); with the extremes of R188. -/
def Obligations.ReversalAddsPredictorModulo256 : Prop :=
  (∀ (f : FilterType) (x : Byte) (n : Neighbours),
    predictor f n.a.toNat n.b.toNat n.c.toNat ≤ 255 ∧
    (recon f x n).toNat = (x.toNat + predictor f n.a.toNat n.b.toNat n.c.toNat) % 256) ∧
  (∀ b c : Byte, recon .sub 255 ⟨255, b, c⟩ = 254) ∧ (∀ c : Byte, recon .avg 255 ⟨255, 255, c⟩ = 254) ∧
  recon .paeth 0 ⟨0, 0, 0⟩ = 0

/-- R192: what the Paeth predictor picks, and (d) the order of the tests, which decides every tie: left, then up, then up-left. -/
def Obligations.PaethPicksOneOfItsNeighbours : Prop :=
  (∀ a b c : Byte,
    let d := fun (v : Byte) => ((a.toNat : Int) + b.toNat - c.toNat - v.toNat).natAbs
    (d a ≤ d b → d a ≤ d c → paeth a b c = a) ∧
    (¬ (d a ≤ d b ∧ d a ≤ d c) → d b ≤ d c → paeth a b c = b) ∧
    (¬ (d a ≤ d b ∧ d a ≤ d c) → ¬ d b ≤ d c → paeth a b c = c)) ∧
  paeth 8 11 10 = 8 ∧ paeth 11 8 10 = 8 ∧
  (∀ a b c : Byte, paeth a b c = a ∨ paeth a b c = b ∨ paeth a b c = c) ∧
  (∀ a b : Byte, paeth a b b = a) ∧
  (∀ a b : Byte, a ≠ b → paeth a b a = b) ∧
  paeth 0 0 0 = 0 ∧ paeth 20 10 15 = 15 ∧ paeth 1 3 2 = 2 ∧ paeth 3 1 3 = 1 ∧ paeth 2 2 0 = 2 ∧
  (∀ a b c : Byte, ∀ v ∈ [a, b, c],
    ((a.toNat : Int) + b.toNat - c.toNat - (paeth a b c).toNat).natAbs ≤ ((a.toNat : Int) + b.toNat - c.toNat - v.toNat).natAbs)

/-- R232 to R237: each forward row subtracts the predictor of its raw neighbours modulo 256, byte by byte, and is written after its
filter-type byte (R239). The record it runs on is the model's own (log entry 15). A type above 4 fails. -/
def Obligations.ForwardRowSubtractsThePredictor : Prop :=
  (∀ (i : Instr) (f : FilterType) (ft : Byte),
    (i, f, ft) ∈ [(Instr.fwdNone, FilterType.none, 0#8), (.fwdSub, .sub, 1#8), (.fwdUp, .up, 2#8), (.fwdAvg, .avg, 3#8),
      (.fwdPaeth, .paeth, 4#8)] →
    (∀ (s : State) (row : List Byte) (rest : List (List Byte)), s.enc.rows = row :: rest →
      ∃ out : List Byte,
        exec i s = .next { s with
          enc := { s.enc with rows := rest, prev := some row, out := s.enc.out ++ ft :: out } } ∧
        filter ft row s.enc.prev s.enc.bpp = .ok out ∧
        out.length = row.length ∧
        ∀ k < row.length,
          let raw := fun (j : Nat) => (row.getD j 0).toNat
          let up := fun (j : Nat) =>
            match s.enc.prev with
            | some p => (p.getD j 0).toNat
            | Option.none => 0
          let a := if s.enc.bpp ≤ k then raw (k - s.enc.bpp) else 0
          let c := if s.enc.bpp ≤ k then up (k - s.enc.bpp) else 0
          ((out.getD k 0).toNat : Int) = ((raw k : Int) - predictor f a (up k) c) % 256) ∧
    (∀ s : State, s.enc.rows = [] → exec i s = .next s)) ∧
  (∀ (ft : Byte) (row : List Byte) (prev : Option (List Byte)) (bpp : Nat), 4 < ft.toNat →
    filter ft row prev bpp = .fail .unknownFilterType)

/-! ### Status and reset -/

/-- R42 to R50: the words of the status port, bit by bit; unnamed words and bits read 0, address bits 1:0 are ignored, and after reset
every word reads 0. -/
def Obligations.StatusWordsShowTheRegisters : Prop :=
  (∀ s : State,
    let w := statusRead s
    (w 0x00#6).extractLsb' 0 3 = s.fe.fst.code ∧ (w 0x00#6).extractLsb' 3 3 = s.pu.pst.code ∧
    (w 0x00#6).extractLsb' 6 1 = BitVec.ofBool s.fe.descValid ∧ (w 0x00#6).extractLsb' 7 1 = BitVec.ofBool (done s) ∧
    (w 0x00#6).extractLsb' 8 4 = s.fe.ferr.code ∧ (w 0x00#6).extractLsb' 12 4 = s.fe.derr.code ∧
    (w 0x00#6).extractLsb' 16 4 = s.pu.perr.code ∧ (w 0x00#6).extractLsb' 20 4 = (result s).code ∧
    (w 0x00#6).extractLsb' 24 3 = ftCode s.pu.ft ∧ (w 0x00#6).extractLsb' 27 1 = BitVec.ofBool (fail s) ∧
    (w 0x00#6).extractLsb' 28 4 = 0 ∧
    w 0x04#6 = s.fe.width ∧ w 0x08#6 = s.fe.height ∧
    (w 0x0C#6).extractLsb' 0 8 = s.fe.bitDepth ∧ (w 0x0C#6).extractLsb' 8 8 = s.fe.colorType ∧
    (w 0x0C#6).extractLsb' 16 8 = s.fe.compression ∧ (w 0x0C#6).extractLsb' 24 8 = s.fe.filterMeth ∧
    (w 0x10#6).extractLsb' 0 8 = s.fe.interlace ∧ (w 0x10#6).extractLsb' 8 3 = s.fe.ch ∧ (w 0x10#6).extractLsb' 11 5 = 0 ∧
    (w 0x10#6).extractLsb' 16 8 = s.fe.bpp ∧ (w 0x10#6).extractLsb' 24 8 = 0 ∧
    (w 0x14#6).toNat = s.fe.bps.toNat % 2 ^ 32 ∧ (w 0x18#6).toNat = s.fe.bps.toNat / 2 ^ 32 ∧
    w 0x1C#6 = s.pu.row ∧ (w 0x20#6).toNat = s.pu.col.toNat % 2 ^ 32 ∧ (w 0x24#6).toNat = s.pu.col.toNat / 2 ^ 32 ∧
    w 0x28#6 = s.fe.len ∧ w 0x2C#6 = s.fe.type ∧ w 0x30#6 = s.fe.trl ∧ w 0x34#6 = s.fe.cnt ∧
    w 0x38#6 = 0 ∧ w 0x3C#6 = 0) ∧
  (∀ (s : State) (a b : BitVec 6), a.toNat / 4 = b.toNat / 4 → statusRead s a = statusRead s b) ∧
  (∀ a : BitVec 6, statusRead State.reset a = 0)

/-- The codes of `FST` and `PST` (R21, R32), of `FT` (R35) and of the errors (R115). -/
def Obligations.RegisterCodesFollowTheTables : Prop :=
  ([FState.sig, .len, .type, .data, .trail, .halt].map FState.code) = [0, 1, 2, 3, 4, 5] ∧
  ([PState.wait, .filt, .data, .tail, .drain, .halt].map PState.code) = [0, 1, 2, 3, 4, 5] ∧
  ([FilterType.none, .sub, .up, .avg, .paeth].map ftCode) = [0, 1, 2, 3, 4] ∧
  ([ErrCode.ok, .badSignature, .truncated, .unknownFilterType, .decompressionFailed, .truncatedPixelData, .unsupportedBitDepth,
    .unsupportedColorType, .invalidChunkForContext, .notImplemented, .lineBufferOverflow, .checksumMismatch].map ErrCode.code)
    = [0, 1, 2, 3, 4, 5, 6, 7, 8, 9, 10, 11]

/-- R38: `DONE`, `RESULT` with the priority F, D, P, and `FAIL`. -/
def Obligations.ResultFollowsLayerPriority : Prop :=
  ∀ s : State,
    (done s = true ↔ s.fe.fst = .halt ∧ s.pu.pst = .halt) ∧
    (s.fe.ferr ≠ .ok → result s = s.fe.ferr) ∧
    (s.fe.ferr = .ok → s.fe.derr ≠ .ok → result s = s.fe.derr) ∧
    (s.fe.ferr = .ok → s.fe.derr = .ok → result s = s.pu.perr) ∧
    (fail s = true ↔ done s = true ∧ (result s).code ≠ 0)

/-- R52: the register values after reset. The line buffers' contents are not part of the rule (log entry 5). -/
def Obligations.ResetGivesTheRegisterValues : Prop :=
  let r := State.reset
  r.fe.fst = .sig ∧ r.fe.cnt = 0 ∧ r.fe.len = 0 ∧ r.fe.type = 0 ∧ r.fe.trl = 0 ∧ r.fe.ferr.code = 0 ∧ r.fe.derr.code = 0 ∧
  r.fe.descValid = false ∧ r.fe.width = 0 ∧ r.fe.height = 0 ∧ r.fe.bitDepth = 0 ∧ r.fe.colorType = 0 ∧
  r.fe.compression = 0 ∧ r.fe.filterMeth = 0 ∧ r.fe.interlace = 0 ∧ r.fe.ch = 0 ∧ r.fe.bpp = 0 ∧ r.fe.bps = 0 ∧
  r.pu.pst = .wait ∧ r.pu.row = 0 ∧ r.pu.col = 0 ∧ ftCode r.pu.ft = 0 ∧ r.pu.perr.code = 0 ∧
  done r = false ∧ (result r).code = 0 ∧ fail r = false

/-- R290: an edge with `rst = 1` gives every register its value of R52 whatever the block was doing, and while `rst = 1` nothing is
ready or valid. -/
def Obligations.ResetStartsACallFromAnyState : Prop :=
  (∀ (s : State) (input : List Byte) (ends : Bool) (turns : List Event), s.sched = .rst input ends :: turns →
    ∃ t, step s = .next t ∧ t.fe = State.reset.fe ∧ t.pu.pst = .wait ∧ t.pu.row = 0 ∧ t.pu.col = 0 ∧ t.pu.ft = .none ∧
      t.pu.perr = .ok) ∧
  (∀ s : State, (pins true s).sReady = false ∧ (pins true s).zReady = false ∧ (pins true s).kValid = false ∧
    (pins true s).cValid = false ∧ (pins true s).pValid = false)

/-! ### Frames -/

/-- What a SIG step leaves unchanged: all of PU with every line-buffer byte, the header, trailing and descriptor registers, `DERR`,
`DESC_VALID`, streams K, Z and P; `FERR` changes only to `BadSignature`. -/
def Obligations.SignatureFrame : Prop :=
  ∀ s t : State, exec .sig s = .next t →
    EnvironmentKept s t ∧ DescriptorKept s t ∧ t.pu = s.pu ∧
    (∀ a, LineBuffer.read t.pu.cur a = LineBuffer.read s.pu.cur a ∧ LineBuffer.read t.pu.prev a = LineBuffer.read s.pu.prev a) ∧
    t.fe.len = s.fe.len ∧ t.fe.type = s.fe.type ∧ t.fe.trl = s.fe.trl ∧ t.fe.derr = s.fe.derr ∧
    t.fe.descValid = s.fe.descValid ∧ (t.fe.ferr = s.fe.ferr ∨ t.fe.ferr = .badSignature ∧ t.fe.fst = .halt) ∧
    t.kOut = s.kOut ∧ t.pOut = s.pOut ∧ t.zIn = s.zIn

/-- What a chunk instruction leaves unchanged: all of PU with every line-buffer byte, streams Z and P; `LEN` and `TYPE` unless it is
being selected; `TRL` unless a trailing byte is taken; the descriptor registers and `DESC_VALID` unless it is an `IHDR` payload byte
with layer D active; `FERR` unless the input ended; a recorded `DERR` always; port C unless FE halts or it is an `IDAT` payload byte with layer D active. That in `F_SIG`, `F_LEN` and
`F_HALT`, where no chunk instruction is in progress, the whole state stays is the model's choice (log entry 9). -/
def Obligations.ChunkFrame : Prop :=
  ∀ (n tag : Word32) (i : Instr), i ∈ [Instr.ihdr n, .idat n, .iend n, .plte n, .other n tag] →
    ∀ s t : State, exec i s = .next t →
      EnvironmentKept s t ∧ t.pu = s.pu ∧
      (∀ a, LineBuffer.read t.pu.cur a = LineBuffer.read s.pu.cur a ∧
        LineBuffer.read t.pu.prev a = LineBuffer.read s.pu.prev a) ∧
      t.pOut = s.pOut ∧ t.zIn = s.zIn ∧
      (s.fe.fst ≠ .type → t.fe.len = s.fe.len ∧ t.fe.type = s.fe.type) ∧
      (s.fe.fst ≠ .trail → t.fe.trl = s.fe.trl) ∧
      (¬ (i = .ihdr n ∧ s.fe.fst = .data ∧ s.fe.derr = .ok) → DescriptorKept s t ∧ t.fe.descValid = s.fe.descValid) ∧
      (t.fe.ferr = s.fe.ferr ∨ t.fe.ferr = .truncated ∧ t.fe.fst = .halt ∧ ∃ more, s.sIn = .eos :: more) ∧
      (s.fe.derr ≠ .ok → t.fe.derr = s.fe.derr) ∧
      (¬ (i = .idat n ∧ s.fe.fst = .data ∧ s.fe.derr = .ok) → t.fe.fst ≠ .halt → t.cOut = s.cOut) ∧
      (s.fe.fst = .sig ∨ s.fe.fst = .len ∨ s.fe.fst = .halt → t = s)

/-- What a colour type's commit leaves unchanged: everything but `CH`, `BPP`, `BPS`, `DESC_VALID` and `DERR`; a recorded `DERR`
always. That all of the state stays where no commit is in progress (`CNT` other than 12) is the model's choice (log entry 9). -/
def Obligations.ColourTypeFrame : Prop :=
  ∀ i ∈ [Instr.gray, .rgb, .indexed, .graya, .rgba], ∀ s t : State, exec i s = .next t →
    t = { s with
      fe := { s.fe with
        ch := t.fe.ch, bpp := t.fe.bpp, bps := t.fe.bps, descValid := t.fe.descValid, derr := t.fe.derr } } ∧
    (∀ a, LineBuffer.read t.pu.cur a = LineBuffer.read s.pu.cur a ∧ LineBuffer.read t.pu.prev a = LineBuffer.read s.pu.prev a) ∧
    (s.fe.derr ≠ .ok → t = s) ∧ (s.fe.cnt ≠ 12 → t = s)

/-- What a filter instruction leaves unchanged: all of FE, streams S, K and C, and of the line buffers every byte but `CUR` at `COL`
when a row byte is taken, and at the end of a row the bytes of `PREV` below `BPS`. At selection `CUR`, `PREV`, `PERR` and P are
unchanged; in a row `FT` is, and `PERR` unless an end token came. That outside `P_FILT` and `P_DATA`, where no filter instruction is in
progress, the whole state stays is the model's choice (log entry 9). -/
def Obligations.FilterFrame : Prop :=
  ∀ i ∈ [Instr.none, .sub, .up, .avg, .paeth], ∀ s t : State, BuffersCanonical s → exec i s = .next t →
    EnvironmentKept s t ∧ t.fe = s.fe ∧ t.sIn = s.sIn ∧ t.kOut = s.kOut ∧ t.cOut = s.cOut ∧
    (s.pu.pst = .filt →
      t.zIn = s.zIn ∧ t.pOut = s.pOut ∧ t.pu.perr = s.pu.perr ∧
      ∀ a, LineBuffer.read t.pu.cur a = LineBuffer.read s.pu.cur a ∧
        LineBuffer.read t.pu.prev a = LineBuffer.read s.pu.prev a) ∧
    (s.pu.pst = .data →
      t.pu.ft = s.pu.ft ∧
      (t.pu.perr = s.pu.perr ∨ ∃ more, s.zIn = .zEnd :: more ∨ s.zIn = .zErr :: more) ∧
      (∀ a, a ≠ s.pu.col.toNat → LineBuffer.read t.pu.cur a = LineBuffer.read s.pu.cur a) ∧
      (∀ a, s.fe.bps.toNat ≤ a ∨ s.pu.col.toNat + 1 ≠ s.fe.bps.toNat →
        LineBuffer.read t.pu.prev a = LineBuffer.read s.pu.prev a) ∧
      ((∀ x more, s.zIn ≠ .byte x :: more) → t.pOut = s.pOut ∧ t.pu.cur = s.pu.cur ∧ t.pu.prev = s.pu.prev ∧
        t.pu.row = s.pu.row ∧ t.pu.col = s.pu.col)) ∧
    (s.pu.pst ≠ .filt → s.pu.pst ≠ .data → t = s)

/-- What a forward instruction leaves unchanged: every register, stream and line-buffer byte of the block and its environment, and of
the record (log entry 15) the stride and the failure; bytes already written stay. -/
def Obligations.ForwardFrame : Prop :=
  ∀ i ∈ [Instr.fwdNone, .fwdSub, .fwdUp, .fwdAvg, .fwdPaeth], ∀ s t : State, exec i s = .next t →
    t = { s with enc := t.enc } ∧
    (∀ a, LineBuffer.read t.pu.cur a = LineBuffer.read s.pu.cur a ∧ LineBuffer.read t.pu.prev a = LineBuffer.read s.pu.prev a) ∧
    t.enc.bpp = s.enc.bpp ∧ t.enc.err = s.enc.err ∧ s.enc.out <+: t.enc.out

/-! ### Invariants -/

/-- The invariant (R54 and the facts the rules derive beside it) holds right after reset. -/
def Obligations.InvariantHoldsAtReset : Prop := Inv State.reset

/-- Every step keeps the invariant, from every state that meets it. -/
def Obligations.StepKeepsTheInvariant : Prop := ∀ s t : State, Inv s → step s = .next t → Inv t

/-- No state that meets the invariant faults, so no line-buffer access is out of range (R70) and no counter leaves its field; and
the only refusal is of an environment that breaks its contract (log entry 13). -/
def Obligations.NoFaultUnderTheInvariant : Prop :=
  (∀ s : State, Inv s → ∀ f, step s ≠ .fault f) ∧ (∀ (s : State) (r : Refusal), step s = .refused r → r = .environmentContract)

/-- R54 (e), R26 to R28, R36: within a call the halts are absorbing, `FERR`, `DERR` and `DESC_VALID` never change once set, and a set
`PERR` changes only to `DecompressionFailed`. -/
def Obligations.HaltsAndCodesStayWithinACall : Prop :=
  ∀ s t : State, Inv s → NoReset s → step s = .next t →
    (s.fe.fst = .halt → t.fe = s.fe) ∧ (s.pu.pst = .halt → t.pu = s.pu) ∧
    (s.fe.ferr ≠ .ok → t.fe.ferr = s.fe.ferr) ∧ (s.fe.derr ≠ .ok → t.fe.derr = s.fe.derr) ∧
    (s.fe.descValid = true → t.fe.descValid = true) ∧
    (s.pu.perr ≠ .ok → t.pu.perr = s.pu.perr ∨ t.pu.perr = .decompressionFailed)

/-- R28 and R80: a committed descriptor and its derived quantities never change within the call, and before PU reads them they are
committed. -/
def Obligations.CommittedDescriptorNeverChanges : Prop :=
  ∀ s t : State, Inv s → NoReset s → step s = .next t →
    (s.fe.descValid = true → DescriptorKept s t) ∧
    (t.pu.pst = .filt ∨ t.pu.pst = .data ∨ t.pu.pst = .tail → t.fe.descValid = true)

/-- R72, for the model's own inflater agent (log entry 8): every step keeps what INFL has delivered consistent with `inflate` of the
C bytes of the call, and nothing offered after its end token, on which alone PU halts. R73, for SRC: no step offers a token after
`SEos`. A call starts so. -/
def Obligations.StepKeepsTheEnvironmentContracts : Prop :=
  (∀ s t : State, Inv s → DeliveryKept s → step s = .next t → DeliveryKept t) ∧
  (∀ s t : State, DeliveryOrdered s → step s = .next t → DeliveryOrdered t) ∧
  (∀ s t : State, SourceKept s → step s = .next t → SourceKept t) ∧
  (∀ (lb : Nat) (bs : List Byte) (turns : List Event),
    DeliveryKept (callStart lb bs turns) ∧ DeliveryOrdered (callStart lb bs turns) ∧ SourceKept (callStart lb bs turns))

/-! ### Handshake and agents -/

/-- R130: FE's turn with a token on offer. It is enabled exactly when FE is not halted and every port the step emits on is ready;
disabled it changes nothing; enabled it consumes exactly that token and emits exactly what the state and the token fix. On the pins
(`20_memory.md` R62): with a token on offer `s_ready` is 1 exactly when the step happens, and each of K and C transfers exactly when
the step happens and emits on it. -/
def Obligations.FrontEndTakesOneTokenPerStep : Prop :=
  (∀ s : State, s.sIn = [] → feStep s = .next s) ∧
  (∀ (s : State) (tok : SToken) (more : List SToken), s.sIn = tok :: more →
    (feEnabled s = true ↔
      s.fe.fst ≠ .halt ∧ (kOffer s tok ≠ Option.none → s.kReady = true) ∧ (cOffer s tok ≠ Option.none → s.cReady = true)) ∧
    (feEnabled s = false → feStep s = .next s) ∧
    (feEnabled s = true → ∀ t, feStep s = .next t →
      t.sIn = more ∧ t.kOut = s.kOut ++ (kOffer s tok).toList ∧ t.cOut = s.cOut ++ (cOffer s tok).toList) ∧
    ((pins false s).sReady = true ↔ feEnabled s = true) ∧
    ((pins false s).kValid = true ∧ s.kReady = true ↔ feEnabled s = true ∧ kOffer s tok ≠ Option.none) ∧
    ((pins false s).cValid = true ∧ s.cReady = true ↔ feEnabled s = true ∧ cOffer s tok ≠ Option.none))

/-- R200: PU's turn. Outside `P_WAIT` it takes exactly one offered token, in the four states that accept one, when port P is ready or
the step emits nothing; it emits one P token on a row byte and nothing otherwise. On the pins (`20_memory.md` R62): with a token on offer
`z_ready` is 1 exactly when the step happens, and P transfers exactly when it happens on a row byte. -/
def Obligations.PlaneUnitTakesOneTokenPerStep : Prop :=
  ∀ s : State, s.pu.pst ≠ .wait →
    (s.zIn = [] → puStep s = .next s) ∧
    (∀ (tok : ZToken) (more : List ZToken), s.zIn = tok :: more →
      (puEnabled s = true ↔
        s.pu.pst ≠ .halt ∧ (s.pu.pst = .data → (∃ x, tok = .byte x) → s.pReady = true)) ∧
      (puEnabled s = false → puStep s = .next s) ∧
      (puEnabled s = true → ∀ t, puStep s = .next t →
        t.zIn = more ∧
        ((s.pu.pst = .data ∧ (∃ x, tok = .byte x) ∧ ∃ p, t.pOut = s.pOut ++ [p]) ∨
          (¬ (s.pu.pst = .data ∧ ∃ x, tok = .byte x) ∧ t.pOut = s.pOut))) ∧
      ((pins false s).zReady = true ↔ puEnabled s = true) ∧
      ((pins false s).pValid = true ∧ s.pReady = true ↔ puEnabled s = true ∧ s.pu.pst = .data ∧ ∃ x, tok = .byte x))

/-- `20_memory.md` section 2: within a call no emitted token is lost, changed or reordered, and input tokens leave only from the front.
That after `F_HALT` the S tokens on offer stay is the model's choice (log entry 24: SRC never withdraws one, though R146 and R73 let it). -/
def Obligations.StreamsAreFirstInFirstOut : Prop :=
  ∀ s t : State, NoReset s → step s = .next t →
    s.kOut <+: t.kOut ∧ s.cOut <+: t.cOut ∧ s.pOut <+: t.pOut ∧
    (∃ taken more, taken.length ≤ 1 ∧ taken ++ t.sIn = s.sIn ++ more) ∧
    (∃ taken more, taken.length ≤ 1 ∧ taken ++ t.zIn = s.zIn ++ more)

/-- R79: FE and PU share only what FE writes and PU reads. An FE step leaves PU's state and streams, a PU step leaves FE's; and what
PU does depends on FE through `FST`, `DESC_VALID`, `HEIGHT`, `BITDEPTH`, `BPP` and `BPS` alone. -/
def Obligations.AgentsShareOnlyReadOnlyRegisters : Prop :=
  (∀ s t : State, feStep s = .next t → t.pu = s.pu ∧ t.zIn = s.zIn ∧ t.pOut = s.pOut) ∧
  (∀ s t : State, puStep s = .next t → t.fe = s.fe ∧ t.sIn = s.sIn ∧ t.kOut = s.kOut ∧ t.cOut = s.cOut) ∧
  (∀ s u t : State, u.pu = s.pu → u.zIn = s.zIn → u.pOut = s.pOut → u.pReady = s.pReady → u.lbBytes = s.lbBytes →
    u.fe.fst = s.fe.fst → u.fe.descValid = s.fe.descValid → u.fe.height = s.fe.height → u.fe.bitDepth = s.fe.bitDepth →
    u.fe.bpp = s.fe.bpp → u.fe.bps = s.fe.bps → puStep s = .next t →
    ∃ v, puStep u = .next v ∧ v.pu = t.pu ∧ v.zIn = t.zIn ∧ v.pOut = t.pOut)

/-- The ground of R83: where both agents of the block are enabled, their two steps give the same state in either order. -/
def Obligations.EnabledAgentStepsCommute : Prop :=
  ∀ (s : State) (turns : List Event), Inv s → feEnabled s = true → puEnabled s = true →
    ∃ t, Host.Core.run Sys2Proof.core 2 { s with sched := .fe :: .pu :: turns } = .next t ∧
      Host.Core.run Sys2Proof.core 2 { s with sched := .pu :: .fe :: turns } = .next t ∧ t.sched = turns

/-- `70_reset_and_hazards.md` section 2: after `DONE` no register changes and no token is taken or emitted until reset, every handshake pin
is low, and no Z token is on offer, where the order of stream Z is kept (O45 states that every step keeps it). That the S tokens on offer
stay is the model's choice (log entry 24: SRC never withdraws one, though R146 and R73 let it). -/
def Obligations.DoneCallChangesNothing : Prop :=
  ∀ s : State, done s = true →
    ((pins false s).sReady = false ∧ (pins false s).zReady = false ∧ (pins false s).kValid = false ∧
      (pins false s).cValid = false ∧ (pins false s).pValid = false) ∧
    (DeliveryOrdered s → s.zIn = []) ∧
    (∀ t, NoReset s → step s = .next t →
      (DeliveryOrdered s → t.zIn = []) ∧
      t.fe = s.fe ∧ t.pu = s.pu ∧ t.kOut = s.kOut ∧ t.cOut = s.cOut ∧ t.pOut = s.pOut ∧ s.sIn <+: t.sIn ∧
      (∀ a, statusRead t a = statusRead s a) ∧ done t = true ∧ result t = result s)

/-! ### Refinements -/

/-- R189: a whole row. From the first byte of a row, PU's turns over the row's bytes emit exactly `unfilter` of the row, with the
previous row absent exactly for row 0, and leave it in `PREV`. -/
def Obligations.RowOfStepsIsUnfilter : Prop :=
  ∀ (s : State) (xs : List Byte) (more : List ZToken),
    Inv s → s.pu.pst = .data → s.pu.col = 0 → s.pReady = true → xs.length = s.fe.bps.toNat →
    s.zIn = xs.map .byte ++ more →
    let prev := if s.pu.row = 0 then Option.none else some ((List.range xs.length).map (LineBuffer.read s.pu.prev))
    ∃ t out, runPlane xs.length s = .next t ∧ unfilter s.pu.ft.byte xs prev s.fe.bpp.toNat = .ok out ∧
      out.length = xs.length ∧ t.pOut.map PToken.b = s.pOut.map PToken.b ++ out ∧ t.zIn = more ∧
      t.pu.row = s.pu.row + 1 ∧ t.pu.pst = (if s.pu.row + 1 = s.fe.height then .tail else .filt) ∧
      ∀ j < xs.length, LineBuffer.read t.pu.prev j = out.getD j 0

/-- R147: on every finite input, FE run on the bytes and then `SEos` halts with the layer-F result (R143) that `decode` gives, whatever
the capacity. -/
def Obligations.FrontEndRunIsDecode : Prop :=
  ∀ (lb : Nat) (bs : List Byte), ∃ t, runFront (bs.length + 1) (callStart lb bs []) = .next t ∧ t.fe.fst = .halt ∧
    layerFResult t = some (decodeContainer bs)

/-- Where layer F succeeds, layer D's code, descriptor and forwarded bytes are those of the fold over the chunks (`41_dispatch.md`
section 6; the clause on inputs where layer F fails is not stated). -/
def Obligations.LayerDIsTheFoldOverChunks : Prop :=
  ∀ (lb : Nat) (bs : List Byte) (cs : List Chunk) (t : State),
    runFront (bs.length + 1) (callStart lb bs []) = .next t → decodeContainer bs = .ok cs →
    match fold lb cs with
    | .fail e => t.fe.derr = e
    | .ok (d, idat) =>
      t.fe.derr = .ok ∧ t.fe.descValid = true ∧ descriptorOf t = d ∧ t.fe.ch.toNat = d.channels ∧ t.fe.bpp.toNat = d.bpp ∧
        t.fe.bps.toNat = d.bps ∧ cBytes t = idat

/-- R215: PU run from `P_WAIT` over any Z stream ends with the code of the function-level reference, and on success has emitted the
reconstructed rows. -/
def Obligations.PlaneRunIsTheRowLoop : Prop :=
  ∀ (s : State) (zs : List Byte), Inv s → s.pu.pst = .wait → s.fe.descValid = true → s.pReady = true →
    (s.zIn = zs.map .byte ++ [.zEnd] →
      ∃ t, runPlane (zs.length + 2) s = .next t ∧ t.pu.pst = .halt ∧ t.zIn = [] ∧
        match planeRows (descriptorOf s) zs with
        | .fail e => t.pu.perr = e
        | .ok rows => t.pu.perr = .ok ∧ t.pOut.map PToken.b = rows.flatten) ∧
    (s.zIn = zs.map .byte ++ [.zErr] →
      ∃ t, runPlane (zs.length + 2) s = .next t ∧ t.pu.pst = .halt ∧ t.zIn = [] ∧ t.pu.perr = .decompressionFailed)

/-- Law 1 of `44_forward_reference.md` section 5: `decode` undoes `encode` on chunks of consistent length with no inner `IEND`; on any
others `encode` is refused (`93_implementation_defined.md` I9; log entry 26). -/
def Obligations.ContainerRoundTrip : Prop :=
  (∀ cs : List Chunk, (∀ c ∈ cs, c.consistent = true) → (∀ c ∈ cs.dropLast, c.typeTag ≠ iendTag) →
    ∃ bs, encodeContainer cs = some bs ∧ decodeContainer bs = .ok cs) ∧
  (∀ cs : List Chunk, (∃ c ∈ cs, c.consistent = false) → encodeContainer cs = Option.none)

/-- Law 2 of `44_forward_reference.md` section 5: `unfilter` undoes `filter`, for every filter type, every stride of at least 1, every
row whatever its length and every previous row. -/
def Obligations.FilterRoundTrip : Prop :=
  ∀ (ft : Byte) (row : List Byte) (prev : Option (List Byte)) (bpp : Nat), ft.toNat ≤ 4 → 1 ≤ bpp →
    ∃ out, filter ft row prev bpp = .ok out ∧ unfilter ft out prev bpp = .ok row

/-- Law 3 of `44_forward_reference.md` section 5: `decode_plane` undoes `encode_plane` on every valid matrix of the descriptor's shape,
under the parameter property of `00_scope.md` R7. -/
def Obligations.PlaneRoundTrip : Prop :=
  ∀ (inflate : List Byte → Option (List Byte)) (deflate : List Byte → List Byte), (∀ x, inflate (deflate x) = some x) →
    ∀ (d : Descriptor) (m : PixelMatrix) (f : FilterType),
      d.colorType.toNat ∈ [0, 2, 3, 4, 6] → d.bitDepth = 8 ∨ d.bitDepth = 16 → m.fits d →
      ∃ z, encodePlane deflate m d f = some z ∧ decodePlane inflate z d = .ok m

/-- R258: a call on a finite input, run under any schedule of the agents, sinks and INFL to `DONE`, is observed to give exactly
`decode_png` of the input, and its K stream gives `decode` of it. A schedule that breaks the contracts of R72 or R73 is refused
and so has no such run (log entry 13). -/
def Obligations.WholeCallIsDecodePng : Prop :=
  ∀ (lb n : Nat) (bs : List Byte) (turns : List Event) (t : State),
    (∀ e ∈ turns, Event.isReset e = false) →
    Host.Core.run Sys2Proof.core n (callStart lb bs turns) = .next t → done t = true →
    callResult t = some (decodePng Config.inflate lb bs) ∧ chunkResult t = some (decodeContainer bs)

/-- R298: under the default order (log entry 4) every call on a finite input reaches `DONE`. -/
def Obligations.EveryFiniteCallReachesDone : Prop :=
  ∀ (lb : Nat) (bs : List Byte), ∃ n t, Host.Core.run Sys2Proof.core n (callStart lb bs []) = .next t ∧ done t = true
end

