-- ==== Sys2Proof/Laws/Encoding.lean ====
section
/-! SUPPORT. Small facts of the encoding tables. -/

namespace Sys2Proof

@[simp] theorem classOf_ihdrTag : classOf ihdrTag = .ihdr := by decide
@[simp] theorem classOf_idatTag : classOf idatTag = .idat := by decide
@[simp] theorem classOf_iendTag : classOf iendTag = .iend := by decide
@[simp] theorem classOf_plteTag : classOf plteTag = .plte := by decide

/-- A tag of each class but `OTHER` is the class's one tag. -/
theorem classOf_cases (t : Word32) :
    (t = ihdrTag ∧ classOf t = .ihdr) ∨ (t = idatTag ∧ classOf t = .idat) ∨ (t = iendTag ∧ classOf t = .iend) ∨
      (t = plteTag ∧ classOf t = .plte) ∨ classOf t = .other := by
  unfold classOf
  split
  · simp_all
  · split
    · simp_all
    · split
      · simp_all
      · split
        · simp_all
        · simp

theorem classOf_eq_iend_iff (t : Word32) : classOf t = .iend ↔ t = iendTag := by
  rcases classOf_cases t with ⟨rfl, h⟩ | ⟨rfl, h⟩ | ⟨rfl, h⟩ | ⟨rfl, h⟩ | h
  · decide
  · decide
  · decide
  · decide
  · rw [h]
    constructor
    · intro hc; cases hc
    · intro ht; subst ht; simp at h

/-- The check of WellFormed says exactly that a tag is of class `OTHER`. -/
theorem other_wf_iff (n t : Word32) : (Instr.other n t).wf = true ↔ classOf t = .other := by
  rcases classOf_cases t with ⟨rfl, h⟩ | ⟨rfl, h⟩ | ⟨rfl, h⟩ | ⟨rfl, h⟩ | h
  · rw [h]; simp [Instr.wf, ihdrTag]
  · rw [h]; simp [Instr.wf, idatTag]
  · rw [h]; simp [Instr.wf, iendTag]
  · rw [h]; simp [Instr.wf, plteTag]
  · simp only [h, iff_true]
    unfold classOf at h
    split at h
    · cases h
    · split at h
      · cases h
      · split at h
        · cases h
        · split at h
          · cases h
          · rename_i h1 h2 h3 h4
            simp only [ihdrTag, idatTag, iendTag, plteTag] at h1 h2 h3 h4
            simp [Instr.wf, h1, h2, h3, h4]

/-- Splitting a 32-bit value into bytes and joining them gives it back. -/
@[simp] theorem be32_extract (v : Word32) :
    be32 (v.extractLsb' 24 8) (v.extractLsb' 16 8) (v.extractLsb' 8 8) (v.extractLsb' 0 8) = v := by
  apply BitVec.eq_of_getLsbD_eq
  intro i hi
  simp only [be32, BitVec.getLsbD_append, BitVec.getLsbD_extractLsb']
  have byte : ∀ base k, k < 8 → base + k = i → (decide (k < 8) && v.getLsbD (base + k)) = v.getLsbD i := by
    intro base k hk hb
    simp [hk, hb]
  split
  · exact byte 0 i ‹_› (by omega)
  · split
    · exact byte 8 (i - 8) ‹_› (by omega)
    · split
      · exact byte 16 (i - 8 - 8) ‹_› (by omega)
      · exact byte 24 (i - 8 - 8 - 8) (by omega) (by omega)

end Sys2Proof
end

