-- ==== Sys2Proof/Laws/LineBuffer.lean ====
section
/-! SUPPORT. The laws of the line buffers: a read after a write, the canonical form kept by every operation, the row copy, and
that canonical buffers with equal reads are equal data. -/

namespace Sys2Proof.Machine.LineBuffer

theorem wf_cons (k : Nat) (v : Byte) (rest : LineBuffer) :
    wf ((k, v) :: rest) = true ↔ v ≠ blank ∧ (∀ c ∈ rest, k < c.1) ∧ wf rest = true := by
  simp [wf, and_assoc]

theorem read_of_forall_gt (buf : LineBuffer) (a : Nat) (h : ∀ c ∈ buf, a < c.1) : read buf a = blank := by
  induction buf with
  | nil => rfl
  | cons c rest ih =>
    obtain ⟨k, v⟩ := c
    have hk : a < k := h (k, v) (by simp)
    simp only [read]
    rw [if_neg (by omega)]
    exact ih (fun c hc => h c (by simp [hc]))

/-- What a write leaves listed: the written address, or addresses listed before. -/
theorem mem_write {buf : LineBuffer} {a : Nat} {v : Byte} {c : Host.Cell} (h : c ∈ write buf a v) :
    c.1 = a ∨ c ∈ buf := by
  induction buf with
  | nil =>
    simp only [write] at h
    split at h
    · simp at h
    · simp only [List.mem_singleton] at h; simp [h]
  | cons d rest ih =>
    obtain ⟨k, w⟩ := d
    simp only [write] at h
    split at h
    · split at h
      · exact .inr h
      · rcases List.mem_cons.1 h with h | h
        · exact .inl (by simp [h])
        · exact .inr h
    · split at h
      · split at h
        · exact .inr (by simp [h])
        · rcases List.mem_cons.1 h with h | h
          · exact .inl (by simp [h])
          · exact .inr (by simp [h])
      · rcases List.mem_cons.1 h with h | h
        · exact .inr (by simp [h])
        · rcases ih h with h | h
          · exact .inl h
          · exact .inr (by simp [h])

/-- A write keeps the canonical form. -/
theorem wf_write (buf : LineBuffer) (a : Nat) (v : Byte) (h : wf buf = true) : wf (write buf a v) = true := by
  induction buf with
  | nil =>
    simp only [write]
    split
    · rfl
    · rename_i hv
      simp [wf, hv]
  | cons d rest ih =>
    obtain ⟨k, w⟩ := d
    obtain ⟨hw, hgt, hrest⟩ := (wf_cons k w rest).1 h
    simp only [write]
    split
    · rename_i hak
      split
      · exact h
      · rename_i hv
        refine (wf_cons a v _).2 ⟨hv, ?_, h⟩
        intro c hc
        rcases List.mem_cons.1 hc with hc | hc
        · simpa [hc] using hak
        · exact lt_trans hak (hgt c hc)
    · rename_i hak
      split
      · rename_i haeq
        split
        · exact hrest
        · rename_i hv
          exact (wf_cons a v _).2 ⟨hv, fun c hc => haeq ▸ hgt c hc, hrest⟩
      · rename_i hane
        refine (wf_cons k w _).2 ⟨hw, ?_, ih hrest⟩
        intro c hc
        rcases mem_write hc with hc | hc
        · omega
        · exact hgt c hc

/-- A read of the written address gives the written byte. -/
theorem read_write_same (buf : LineBuffer) (a : Nat) (v : Byte) (h : wf buf = true) : read (write buf a v) a = v := by
  induction buf with
  | nil =>
    simp only [write]
    split
    · rename_i hv; simp [read, hv]
    · simp [read]
  | cons d rest ih =>
    obtain ⟨k, w⟩ := d
    obtain ⟨-, hgt, hrest⟩ := (wf_cons k w rest).1 h
    simp only [write]
    split
    · rename_i hak
      split
      · rename_i hv
        rw [read_of_forall_gt _ _ (by
          intro c hc
          rcases List.mem_cons.1 hc with hc | hc
          · simpa [hc] using hak
          · exact lt_trans hak (hgt c hc)), hv]
      · simp [read]
    · rename_i hak
      split
      · rename_i haeq
        split
        · rename_i hv
          rw [read_of_forall_gt _ _ (fun c hc => haeq ▸ hgt c hc), hv]
        · simp [read]
      · rename_i hane
        simp only [read, if_neg hane]
        exact ih hrest

/-- A read of any other address gives what it gave before. -/
theorem read_write_other (buf : LineBuffer) (a a' : Nat) (v : Byte) (h : wf buf = true) (hne : a' ≠ a) :
    read (write buf a v) a' = read buf a' := by
  induction buf with
  | nil =>
    simp only [write]
    split
    · rfl
    · simp [read, hne]
  | cons d rest ih =>
    obtain ⟨k, w⟩ := d
    obtain ⟨-, hgt, hrest⟩ := (wf_cons k w rest).1 h
    simp only [write]
    split
    · split
      · rfl
      · simp [read, hne]
    · split
      · rename_i haeq
        have hk : a' ≠ k := haeq ▸ hne
        split
        · simp [read, hk]
        · simp [read, hne, hk]
      · simp only [read]
        rw [ih hrest]

theorem within_write {n : Nat} {buf : LineBuffer} {a : Nat} (v : Byte) (ha : a < n)
    (h : Safety.LineBuffer.within n buf) : Safety.LineBuffer.within n (write buf a v) := by
  intro c hc
  rcases mem_write hc with hc | hc
  · simpa [hc] using ha
  · exact h c hc

theorem wf_filter (p : Host.Cell → Bool) (buf : LineBuffer) (h : wf buf = true) : wf (buf.filter p) = true := by
  induction buf with
  | nil => rfl
  | cons d rest ih =>
    obtain ⟨k, w⟩ := d
    obtain ⟨hw, hgt, hrest⟩ := (wf_cons k w rest).1 h
    simp only [List.filter]
    split
    · exact (wf_cons k w _).2 ⟨hw, fun c hc => hgt c (List.mem_of_mem_filter hc), ih hrest⟩
    · exact ih hrest

theorem wf_append (l r : LineBuffer) (hl : wf l = true) (hr : wf r = true) (h : ∀ c ∈ l, ∀ d ∈ r, c.1 < d.1) :
    wf (l ++ r) = true := by
  induction l with
  | nil => exact hr
  | cons c rest ih =>
    obtain ⟨k, w⟩ := c
    obtain ⟨hw, hgt, hrest⟩ := (wf_cons k w rest).1 hl
    refine (wf_cons k w _).2 ⟨hw, ?_, ih hrest (fun c hc => h c (by simp [hc]))⟩
    intro d hd
    rcases List.mem_append.1 hd with hd | hd
    · exact hgt d hd
    · exact h (k, w) (by simp) d hd

/-- The row copy keeps the canonical form. -/
theorem wf_copyBelow (n : Nat) (src dst : LineBuffer) (hs : wf src = true) (hd : wf dst = true) :
    wf (copyBelow n src dst) = true := by
  refine wf_append _ _ (wf_filter _ _ hs) (wf_filter _ _ hd) ?_
  intro c hc d hd
  have h1 := (List.mem_filter.1 hc).2
  have h2 := (List.mem_filter.1 hd).2
  simp only [decide_eq_true_eq] at h1 h2
  omega

theorem within_copyBelow {n m : Nat} {src dst : LineBuffer} (hs : Safety.LineBuffer.within n src)
    (hd : Safety.LineBuffer.within n dst) : Safety.LineBuffer.within n (copyBelow m src dst) := by
  intro c hc
  rcases List.mem_append.1 hc with hc | hc
  · exact hs c (List.mem_of_mem_filter hc)
  · exact hd c (List.mem_of_mem_filter hc)

theorem read_filter (p : Nat → Bool) (buf : LineBuffer) (a : Nat) :
    read (buf.filter (fun c => p c.1)) a = if p a then read buf a else blank := by
  induction buf with
  | nil => simp [read]
  | cons d rest ih =>
    obtain ⟨k, w⟩ := d
    simp only [List.filter]
    by_cases hak : a = k
    · subst hak
      cases hp : p a
      · simpa [hp] using ih
      · simp [read]
    · cases p k <;> simp [read, hak, ih]

theorem read_append (l r : LineBuffer) (a : Nat) :
    read (l ++ r) a = if a ∈ l.map Prod.fst then read l a else read r a := by
  induction l with
  | nil => simp
  | cons d rest ih =>
    obtain ⟨k, w⟩ := d
    by_cases hak : a = k
    · simp [read, hak]
    · simp [read, hak, ih]

theorem read_not_listed (buf : LineBuffer) (a : Nat) (h : a ∉ buf.map Prod.fst) : read buf a = blank := by
  induction buf with
  | nil => rfl
  | cons d rest ih =>
    obtain ⟨k, w⟩ := d
    simp only [List.map_cons, List.mem_cons, not_or] at h
    simp [read, h.1, ih h.2]

/-- After the row copy an address below the row length reads as in the source, any other as before. -/
theorem read_copyBelow (n : Nat) (src dst : LineBuffer) (a : Nat) :
    read (copyBelow n src dst) a = if a < n then read src a else read dst a := by
  have hs := read_filter (fun k => decide (k < n)) src a
  have hd := read_filter (fun k => decide (n ≤ k)) dst a
  rw [copyBelow, read_append]
  by_cases ha : a < n
  · have hna : ¬ n ≤ a := by omega
    simp only [ha, hna, decide_true, decide_false, if_true, Bool.false_eq_true, if_false] at hs hd ⊢
    split
    · exact hs
    · rename_i hnot
      rw [hd, ← hs, read_not_listed _ _ hnot]
  · have hna : n ≤ a := by omega
    simp only [ha, hna, decide_true, decide_false, if_true, Bool.false_eq_true, if_false] at hs hd ⊢
    rw [if_neg, hd]
    intro hmem
    obtain ⟨c, hc, rfl⟩ := List.mem_map.1 hmem
    have := (List.mem_filter.1 hc).2
    simp only [decide_eq_true_eq] at this
    exact ha this

/-- Canonical buffers that read alike everywhere are equal data. -/
theorem eq_of_read_eq (l r : LineBuffer) (hl : wf l = true) (hr : wf r = true) (h : ∀ a, read l a = read r a) : l = r := by
  induction l generalizing r with
  | nil =>
    cases r with
    | nil => rfl
    | cons d rest =>
      obtain ⟨k, w⟩ := d
      have := h k
      simp only [read, if_true] at this
      exact absurd this.symm ((wf_cons k w rest).1 hr).1
  | cons c rest ih =>
    obtain ⟨k, w⟩ := c
    obtain ⟨hw, hgt, hrest⟩ := (wf_cons k w rest).1 hl
    cases r with
    | nil =>
      have := h k
      simp only [read, if_true] at this
      exact absurd this hw
    | cons d rest' =>
      obtain ⟨k', w'⟩ := d
      obtain ⟨hw', hgt', hrest'⟩ := (wf_cons k' w' rest').1 hr
      have hk : k = k' := by
        rcases lt_trichotomy k k' with hlt | heq | hlt
        · have h1 := h k
          rw [read_of_forall_gt ((k', w') :: rest') k (by
            intro c hc
            rcases List.mem_cons.1 hc with hc | hc
            · simpa [hc] using hlt
            · exact lt_trans hlt (hgt' c hc))] at h1
          simp only [read, if_true] at h1
          exact absurd h1 hw
        · exact heq
        · have h1 := h k'
          rw [read_of_forall_gt ((k, w) :: rest) k' (by
            intro c hc
            rcases List.mem_cons.1 hc with hc | hc
            · simpa [hc] using hlt
            · exact lt_trans hlt (hgt c hc))] at h1
          simp only [read, if_true] at h1
          exact absurd h1.symm hw'
      subst hk
      have hww : w = w' := by simpa [read] using h k
      subst hww
      refine congrArg _ (ih rest' hrest hrest' (fun a => ?_))
      by_cases hak : a = k
      · subst hak
        rw [read_of_forall_gt rest a hgt, read_of_forall_gt rest' a hgt']
      · simpa [read, hak] using h a

end Sys2Proof.Machine.LineBuffer
end

