-- ==== Sys2Proof/Laws/State.lean ====
section
/-! SUPPORT. What each shared update does to each field, true by unfolding, so that no later proof unfolds a record update. -/

namespace Sys2Proof.Machine

variable (s : State)

/-! ### emitK -/

@[simp] theorem emitK_fe (t : KToken) : (emitK t s).fe = s.fe := rfl
@[simp] theorem emitK_pu (t : KToken) : (emitK t s).pu = s.pu := rfl
@[simp] theorem emitK_sIn (t : KToken) : (emitK t s).sIn = s.sIn := rfl
@[simp] theorem emitK_srcEnded (t : KToken) : (emitK t s).srcEnded = s.srcEnded := rfl
@[simp] theorem emitK_zIn (t : KToken) : (emitK t s).zIn = s.zIn := rfl
@[simp] theorem emitK_kOut (t : KToken) : (emitK t s).kOut = s.kOut ++ [t] := rfl
@[simp] theorem emitK_cOut (t : KToken) : (emitK t s).cOut = s.cOut := rfl
@[simp] theorem emitK_pOut (t : KToken) : (emitK t s).pOut = s.pOut := rfl
@[simp] theorem emitK_kReady (t : KToken) : (emitK t s).kReady = s.kReady := rfl
@[simp] theorem emitK_cReady (t : KToken) : (emitK t s).cReady = s.cReady := rfl
@[simp] theorem emitK_pReady (t : KToken) : (emitK t s).pReady = s.pReady := rfl
@[simp] theorem emitK_infl (t : KToken) : (emitK t s).infl = s.infl := rfl
@[simp] theorem emitK_lbBytes (t : KToken) : (emitK t s).lbBytes = s.lbBytes := rfl
@[simp] theorem emitK_enc (t : KToken) : (emitK t s).enc = s.enc := rfl
@[simp] theorem emitK_sched (t : KToken) : (emitK t s).sched = s.sched := rfl

/-! ### emitC -/

@[simp] theorem emitC_fe (t : CToken) : (emitC t s).fe = s.fe := rfl
@[simp] theorem emitC_pu (t : CToken) : (emitC t s).pu = s.pu := rfl
@[simp] theorem emitC_sIn (t : CToken) : (emitC t s).sIn = s.sIn := rfl
@[simp] theorem emitC_srcEnded (t : CToken) : (emitC t s).srcEnded = s.srcEnded := rfl
@[simp] theorem emitC_zIn (t : CToken) : (emitC t s).zIn = s.zIn := rfl
@[simp] theorem emitC_kOut (t : CToken) : (emitC t s).kOut = s.kOut := rfl
@[simp] theorem emitC_cOut (t : CToken) : (emitC t s).cOut = s.cOut ++ [t] := rfl
@[simp] theorem emitC_pOut (t : CToken) : (emitC t s).pOut = s.pOut := rfl
@[simp] theorem emitC_kReady (t : CToken) : (emitC t s).kReady = s.kReady := rfl
@[simp] theorem emitC_cReady (t : CToken) : (emitC t s).cReady = s.cReady := rfl
@[simp] theorem emitC_pReady (t : CToken) : (emitC t s).pReady = s.pReady := rfl
@[simp] theorem emitC_infl (t : CToken) : (emitC t s).infl = s.infl := rfl
@[simp] theorem emitC_lbBytes (t : CToken) : (emitC t s).lbBytes = s.lbBytes := rfl
@[simp] theorem emitC_enc (t : CToken) : (emitC t s).enc = s.enc := rfl
@[simp] theorem emitC_sched (t : CToken) : (emitC t s).sched = s.sched := rfl

/-! ### emitP -/

@[simp] theorem emitP_fe (t : PToken) : (emitP t s).fe = s.fe := rfl
@[simp] theorem emitP_pu (t : PToken) : (emitP t s).pu = s.pu := rfl
@[simp] theorem emitP_sIn (t : PToken) : (emitP t s).sIn = s.sIn := rfl
@[simp] theorem emitP_srcEnded (t : PToken) : (emitP t s).srcEnded = s.srcEnded := rfl
@[simp] theorem emitP_zIn (t : PToken) : (emitP t s).zIn = s.zIn := rfl
@[simp] theorem emitP_kOut (t : PToken) : (emitP t s).kOut = s.kOut := rfl
@[simp] theorem emitP_cOut (t : PToken) : (emitP t s).cOut = s.cOut := rfl
@[simp] theorem emitP_pOut (t : PToken) : (emitP t s).pOut = s.pOut ++ [t] := rfl
@[simp] theorem emitP_kReady (t : PToken) : (emitP t s).kReady = s.kReady := rfl
@[simp] theorem emitP_cReady (t : PToken) : (emitP t s).cReady = s.cReady := rfl
@[simp] theorem emitP_pReady (t : PToken) : (emitP t s).pReady = s.pReady := rfl
@[simp] theorem emitP_infl (t : PToken) : (emitP t s).infl = s.infl := rfl
@[simp] theorem emitP_lbBytes (t : PToken) : (emitP t s).lbBytes = s.lbBytes := rfl
@[simp] theorem emitP_enc (t : PToken) : (emitP t s).enc = s.enc := rfl
@[simp] theorem emitP_sched (t : PToken) : (emitP t s).sched = s.sched := rfl

/-! ### popS -/

@[simp] theorem popS_fe : (popS s).fe = s.fe := rfl
@[simp] theorem popS_pu : (popS s).pu = s.pu := rfl
@[simp] theorem popS_sIn : (popS s).sIn = s.sIn.tail := rfl
@[simp] theorem popS_srcEnded : (popS s).srcEnded = s.srcEnded := rfl
@[simp] theorem popS_zIn : (popS s).zIn = s.zIn := rfl
@[simp] theorem popS_kOut : (popS s).kOut = s.kOut := rfl
@[simp] theorem popS_cOut : (popS s).cOut = s.cOut := rfl
@[simp] theorem popS_pOut : (popS s).pOut = s.pOut := rfl
@[simp] theorem popS_kReady : (popS s).kReady = s.kReady := rfl
@[simp] theorem popS_cReady : (popS s).cReady = s.cReady := rfl
@[simp] theorem popS_pReady : (popS s).pReady = s.pReady := rfl
@[simp] theorem popS_infl : (popS s).infl = s.infl := rfl
@[simp] theorem popS_lbBytes : (popS s).lbBytes = s.lbBytes := rfl
@[simp] theorem popS_enc : (popS s).enc = s.enc := rfl
@[simp] theorem popS_sched : (popS s).sched = s.sched := rfl

/-! ### popZ -/

@[simp] theorem popZ_fe : (popZ s).fe = s.fe := rfl
@[simp] theorem popZ_pu : (popZ s).pu = s.pu := rfl
@[simp] theorem popZ_sIn : (popZ s).sIn = s.sIn := rfl
@[simp] theorem popZ_srcEnded : (popZ s).srcEnded = s.srcEnded := rfl
@[simp] theorem popZ_zIn : (popZ s).zIn = s.zIn.tail := rfl
@[simp] theorem popZ_kOut : (popZ s).kOut = s.kOut := rfl
@[simp] theorem popZ_cOut : (popZ s).cOut = s.cOut := rfl
@[simp] theorem popZ_pOut : (popZ s).pOut = s.pOut := rfl
@[simp] theorem popZ_kReady : (popZ s).kReady = s.kReady := rfl
@[simp] theorem popZ_cReady : (popZ s).cReady = s.cReady := rfl
@[simp] theorem popZ_pReady : (popZ s).pReady = s.pReady := rfl
@[simp] theorem popZ_infl : (popZ s).infl = s.infl := rfl
@[simp] theorem popZ_lbBytes : (popZ s).lbBytes = s.lbBytes := rfl
@[simp] theorem popZ_enc : (popZ s).enc = s.enc := rfl
@[simp] theorem popZ_sched : (popZ s).sched = s.sched := rfl

/-! ### setFst -/

@[simp] theorem setFst_fst (q : FState) : (setFst q s).fe.fst = q := rfl
@[simp] theorem setFst_cnt (q : FState) : (setFst q s).fe.cnt = s.fe.cnt := rfl
@[simp] theorem setFst_len (q : FState) : (setFst q s).fe.len = s.fe.len := rfl
@[simp] theorem setFst_type (q : FState) : (setFst q s).fe.type = s.fe.type := rfl
@[simp] theorem setFst_trl (q : FState) : (setFst q s).fe.trl = s.fe.trl := rfl
@[simp] theorem setFst_ferr (q : FState) : (setFst q s).fe.ferr = s.fe.ferr := rfl
@[simp] theorem setFst_derr (q : FState) : (setFst q s).fe.derr = s.fe.derr := rfl
@[simp] theorem setFst_descValid (q : FState) : (setFst q s).fe.descValid = s.fe.descValid := rfl
@[simp] theorem setFst_width (q : FState) : (setFst q s).fe.width = s.fe.width := rfl
@[simp] theorem setFst_height (q : FState) : (setFst q s).fe.height = s.fe.height := rfl
@[simp] theorem setFst_bitDepth (q : FState) : (setFst q s).fe.bitDepth = s.fe.bitDepth := rfl
@[simp] theorem setFst_colorType (q : FState) : (setFst q s).fe.colorType = s.fe.colorType := rfl
@[simp] theorem setFst_compression (q : FState) : (setFst q s).fe.compression = s.fe.compression := rfl
@[simp] theorem setFst_filterMeth (q : FState) : (setFst q s).fe.filterMeth = s.fe.filterMeth := rfl
@[simp] theorem setFst_interlace (q : FState) : (setFst q s).fe.interlace = s.fe.interlace := rfl
@[simp] theorem setFst_ch (q : FState) : (setFst q s).fe.ch = s.fe.ch := rfl
@[simp] theorem setFst_bpp (q : FState) : (setFst q s).fe.bpp = s.fe.bpp := rfl
@[simp] theorem setFst_bps (q : FState) : (setFst q s).fe.bps = s.fe.bps := rfl
@[simp] theorem setFst_pu (q : FState) : (setFst q s).pu = s.pu := rfl
@[simp] theorem setFst_sIn (q : FState) : (setFst q s).sIn = s.sIn := rfl
@[simp] theorem setFst_srcEnded (q : FState) : (setFst q s).srcEnded = s.srcEnded := rfl
@[simp] theorem setFst_zIn (q : FState) : (setFst q s).zIn = s.zIn := rfl
@[simp] theorem setFst_kOut (q : FState) : (setFst q s).kOut = s.kOut := rfl
@[simp] theorem setFst_cOut (q : FState) : (setFst q s).cOut = s.cOut := rfl
@[simp] theorem setFst_pOut (q : FState) : (setFst q s).pOut = s.pOut := rfl
@[simp] theorem setFst_kReady (q : FState) : (setFst q s).kReady = s.kReady := rfl
@[simp] theorem setFst_cReady (q : FState) : (setFst q s).cReady = s.cReady := rfl
@[simp] theorem setFst_pReady (q : FState) : (setFst q s).pReady = s.pReady := rfl
@[simp] theorem setFst_infl (q : FState) : (setFst q s).infl = s.infl := rfl
@[simp] theorem setFst_lbBytes (q : FState) : (setFst q s).lbBytes = s.lbBytes := rfl
@[simp] theorem setFst_enc (q : FState) : (setFst q s).enc = s.enc := rfl
@[simp] theorem setFst_sched (q : FState) : (setFst q s).sched = s.sched := rfl

/-! ### enterField -/

@[simp] theorem enterField_fst (q : FState) : (enterField q s).fe.fst = q := rfl
@[simp] theorem enterField_cnt (q : FState) : (enterField q s).fe.cnt = 0 := rfl
@[simp] theorem enterField_len (q : FState) : (enterField q s).fe.len = s.fe.len := rfl
@[simp] theorem enterField_type (q : FState) : (enterField q s).fe.type = s.fe.type := rfl
@[simp] theorem enterField_trl (q : FState) : (enterField q s).fe.trl = s.fe.trl := rfl
@[simp] theorem enterField_ferr (q : FState) : (enterField q s).fe.ferr = s.fe.ferr := rfl
@[simp] theorem enterField_derr (q : FState) : (enterField q s).fe.derr = s.fe.derr := rfl
@[simp] theorem enterField_descValid (q : FState) : (enterField q s).fe.descValid = s.fe.descValid := rfl
@[simp] theorem enterField_width (q : FState) : (enterField q s).fe.width = s.fe.width := rfl
@[simp] theorem enterField_height (q : FState) : (enterField q s).fe.height = s.fe.height := rfl
@[simp] theorem enterField_bitDepth (q : FState) : (enterField q s).fe.bitDepth = s.fe.bitDepth := rfl
@[simp] theorem enterField_colorType (q : FState) : (enterField q s).fe.colorType = s.fe.colorType := rfl
@[simp] theorem enterField_compression (q : FState) : (enterField q s).fe.compression = s.fe.compression := rfl
@[simp] theorem enterField_filterMeth (q : FState) : (enterField q s).fe.filterMeth = s.fe.filterMeth := rfl
@[simp] theorem enterField_interlace (q : FState) : (enterField q s).fe.interlace = s.fe.interlace := rfl
@[simp] theorem enterField_ch (q : FState) : (enterField q s).fe.ch = s.fe.ch := rfl
@[simp] theorem enterField_bpp (q : FState) : (enterField q s).fe.bpp = s.fe.bpp := rfl
@[simp] theorem enterField_bps (q : FState) : (enterField q s).fe.bps = s.fe.bps := rfl
@[simp] theorem enterField_pu (q : FState) : (enterField q s).pu = s.pu := rfl
@[simp] theorem enterField_sIn (q : FState) : (enterField q s).sIn = s.sIn := rfl
@[simp] theorem enterField_srcEnded (q : FState) : (enterField q s).srcEnded = s.srcEnded := rfl
@[simp] theorem enterField_zIn (q : FState) : (enterField q s).zIn = s.zIn := rfl
@[simp] theorem enterField_kOut (q : FState) : (enterField q s).kOut = s.kOut := rfl
@[simp] theorem enterField_cOut (q : FState) : (enterField q s).cOut = s.cOut := rfl
@[simp] theorem enterField_pOut (q : FState) : (enterField q s).pOut = s.pOut := rfl
@[simp] theorem enterField_kReady (q : FState) : (enterField q s).kReady = s.kReady := rfl
@[simp] theorem enterField_cReady (q : FState) : (enterField q s).cReady = s.cReady := rfl
@[simp] theorem enterField_pReady (q : FState) : (enterField q s).pReady = s.pReady := rfl
@[simp] theorem enterField_infl (q : FState) : (enterField q s).infl = s.infl := rfl
@[simp] theorem enterField_lbBytes (q : FState) : (enterField q s).lbBytes = s.lbBytes := rfl
@[simp] theorem enterField_enc (q : FState) : (enterField q s).enc = s.enc := rfl
@[simp] theorem enterField_sched (q : FState) : (enterField q s).sched = s.sched := rfl

/-! ### nextByte -/

@[simp] theorem nextByte_fst : (nextByte s).fe.fst = s.fe.fst := rfl
@[simp] theorem nextByte_cnt : (nextByte s).fe.cnt = s.fe.cnt + 1 := rfl
@[simp] theorem nextByte_len : (nextByte s).fe.len = s.fe.len := rfl
@[simp] theorem nextByte_type : (nextByte s).fe.type = s.fe.type := rfl
@[simp] theorem nextByte_trl : (nextByte s).fe.trl = s.fe.trl := rfl
@[simp] theorem nextByte_ferr : (nextByte s).fe.ferr = s.fe.ferr := rfl
@[simp] theorem nextByte_derr : (nextByte s).fe.derr = s.fe.derr := rfl
@[simp] theorem nextByte_descValid : (nextByte s).fe.descValid = s.fe.descValid := rfl
@[simp] theorem nextByte_width : (nextByte s).fe.width = s.fe.width := rfl
@[simp] theorem nextByte_height : (nextByte s).fe.height = s.fe.height := rfl
@[simp] theorem nextByte_bitDepth : (nextByte s).fe.bitDepth = s.fe.bitDepth := rfl
@[simp] theorem nextByte_colorType : (nextByte s).fe.colorType = s.fe.colorType := rfl
@[simp] theorem nextByte_compression : (nextByte s).fe.compression = s.fe.compression := rfl
@[simp] theorem nextByte_filterMeth : (nextByte s).fe.filterMeth = s.fe.filterMeth := rfl
@[simp] theorem nextByte_interlace : (nextByte s).fe.interlace = s.fe.interlace := rfl
@[simp] theorem nextByte_ch : (nextByte s).fe.ch = s.fe.ch := rfl
@[simp] theorem nextByte_bpp : (nextByte s).fe.bpp = s.fe.bpp := rfl
@[simp] theorem nextByte_bps : (nextByte s).fe.bps = s.fe.bps := rfl
@[simp] theorem nextByte_pu : (nextByte s).pu = s.pu := rfl
@[simp] theorem nextByte_sIn : (nextByte s).sIn = s.sIn := rfl
@[simp] theorem nextByte_srcEnded : (nextByte s).srcEnded = s.srcEnded := rfl
@[simp] theorem nextByte_zIn : (nextByte s).zIn = s.zIn := rfl
@[simp] theorem nextByte_kOut : (nextByte s).kOut = s.kOut := rfl
@[simp] theorem nextByte_cOut : (nextByte s).cOut = s.cOut := rfl
@[simp] theorem nextByte_pOut : (nextByte s).pOut = s.pOut := rfl
@[simp] theorem nextByte_kReady : (nextByte s).kReady = s.kReady := rfl
@[simp] theorem nextByte_cReady : (nextByte s).cReady = s.cReady := rfl
@[simp] theorem nextByte_pReady : (nextByte s).pReady = s.pReady := rfl
@[simp] theorem nextByte_infl : (nextByte s).infl = s.infl := rfl
@[simp] theorem nextByte_lbBytes : (nextByte s).lbBytes = s.lbBytes := rfl
@[simp] theorem nextByte_enc : (nextByte s).enc = s.enc := rfl
@[simp] theorem nextByte_sched : (nextByte s).sched = s.sched := rfl

/-! ### setPst -/

@[simp] theorem setPst_fe (q : PState) : (setPst q s).fe = s.fe := rfl
@[simp] theorem setPst_pst (q : PState) : (setPst q s).pu.pst = q := rfl
@[simp] theorem setPst_row (q : PState) : (setPst q s).pu.row = s.pu.row := rfl
@[simp] theorem setPst_col (q : PState) : (setPst q s).pu.col = s.pu.col := rfl
@[simp] theorem setPst_ft (q : PState) : (setPst q s).pu.ft = s.pu.ft := rfl
@[simp] theorem setPst_perr (q : PState) : (setPst q s).pu.perr = s.pu.perr := rfl
@[simp] theorem setPst_prev (q : PState) : (setPst q s).pu.prev = s.pu.prev := rfl
@[simp] theorem setPst_cur (q : PState) : (setPst q s).pu.cur = s.pu.cur := rfl
@[simp] theorem setPst_sIn (q : PState) : (setPst q s).sIn = s.sIn := rfl
@[simp] theorem setPst_srcEnded (q : PState) : (setPst q s).srcEnded = s.srcEnded := rfl
@[simp] theorem setPst_zIn (q : PState) : (setPst q s).zIn = s.zIn := rfl
@[simp] theorem setPst_kOut (q : PState) : (setPst q s).kOut = s.kOut := rfl
@[simp] theorem setPst_cOut (q : PState) : (setPst q s).cOut = s.cOut := rfl
@[simp] theorem setPst_pOut (q : PState) : (setPst q s).pOut = s.pOut := rfl
@[simp] theorem setPst_kReady (q : PState) : (setPst q s).kReady = s.kReady := rfl
@[simp] theorem setPst_cReady (q : PState) : (setPst q s).cReady = s.cReady := rfl
@[simp] theorem setPst_pReady (q : PState) : (setPst q s).pReady = s.pReady := rfl
@[simp] theorem setPst_infl (q : PState) : (setPst q s).infl = s.infl := rfl
@[simp] theorem setPst_lbBytes (q : PState) : (setPst q s).lbBytes = s.lbBytes := rfl
@[simp] theorem setPst_enc (q : PState) : (setPst q s).enc = s.enc := rfl
@[simp] theorem setPst_sched (q : PState) : (setPst q s).sched = s.sched := rfl

/-! ### raiseF -/

@[simp] theorem raiseF_fst (k : ErrCode) : (raise .F k s).fe.fst = s.fe.fst := rfl
@[simp] theorem raiseF_cnt (k : ErrCode) : (raise .F k s).fe.cnt = s.fe.cnt := rfl
@[simp] theorem raiseF_len (k : ErrCode) : (raise .F k s).fe.len = s.fe.len := rfl
@[simp] theorem raiseF_type (k : ErrCode) : (raise .F k s).fe.type = s.fe.type := rfl
@[simp] theorem raiseF_trl (k : ErrCode) : (raise .F k s).fe.trl = s.fe.trl := rfl
@[simp] theorem raiseF_ferr (k : ErrCode) : (raise .F k s).fe.ferr = k := rfl
@[simp] theorem raiseF_derr (k : ErrCode) : (raise .F k s).fe.derr = s.fe.derr := rfl
@[simp] theorem raiseF_descValid (k : ErrCode) : (raise .F k s).fe.descValid = s.fe.descValid := rfl
@[simp] theorem raiseF_width (k : ErrCode) : (raise .F k s).fe.width = s.fe.width := rfl
@[simp] theorem raiseF_height (k : ErrCode) : (raise .F k s).fe.height = s.fe.height := rfl
@[simp] theorem raiseF_bitDepth (k : ErrCode) : (raise .F k s).fe.bitDepth = s.fe.bitDepth := rfl
@[simp] theorem raiseF_colorType (k : ErrCode) : (raise .F k s).fe.colorType = s.fe.colorType := rfl
@[simp] theorem raiseF_compression (k : ErrCode) : (raise .F k s).fe.compression = s.fe.compression := rfl
@[simp] theorem raiseF_filterMeth (k : ErrCode) : (raise .F k s).fe.filterMeth = s.fe.filterMeth := rfl
@[simp] theorem raiseF_interlace (k : ErrCode) : (raise .F k s).fe.interlace = s.fe.interlace := rfl
@[simp] theorem raiseF_ch (k : ErrCode) : (raise .F k s).fe.ch = s.fe.ch := rfl
@[simp] theorem raiseF_bpp (k : ErrCode) : (raise .F k s).fe.bpp = s.fe.bpp := rfl
@[simp] theorem raiseF_bps (k : ErrCode) : (raise .F k s).fe.bps = s.fe.bps := rfl
@[simp] theorem raiseF_pu (k : ErrCode) : (raise .F k s).pu = s.pu := rfl
@[simp] theorem raiseF_sIn (k : ErrCode) : (raise .F k s).sIn = s.sIn := rfl
@[simp] theorem raiseF_srcEnded (k : ErrCode) : (raise .F k s).srcEnded = s.srcEnded := rfl
@[simp] theorem raiseF_zIn (k : ErrCode) : (raise .F k s).zIn = s.zIn := rfl
@[simp] theorem raiseF_kOut (k : ErrCode) : (raise .F k s).kOut = s.kOut := rfl
@[simp] theorem raiseF_cOut (k : ErrCode) : (raise .F k s).cOut = s.cOut := rfl
@[simp] theorem raiseF_pOut (k : ErrCode) : (raise .F k s).pOut = s.pOut := rfl
@[simp] theorem raiseF_kReady (k : ErrCode) : (raise .F k s).kReady = s.kReady := rfl
@[simp] theorem raiseF_cReady (k : ErrCode) : (raise .F k s).cReady = s.cReady := rfl
@[simp] theorem raiseF_pReady (k : ErrCode) : (raise .F k s).pReady = s.pReady := rfl
@[simp] theorem raiseF_infl (k : ErrCode) : (raise .F k s).infl = s.infl := rfl
@[simp] theorem raiseF_lbBytes (k : ErrCode) : (raise .F k s).lbBytes = s.lbBytes := rfl
@[simp] theorem raiseF_enc (k : ErrCode) : (raise .F k s).enc = s.enc := rfl
@[simp] theorem raiseF_sched (k : ErrCode) : (raise .F k s).sched = s.sched := rfl

/-! ### raiseD -/

@[simp] theorem raiseD_fst (k : ErrCode) : (raise .D k s).fe.fst = s.fe.fst := rfl
@[simp] theorem raiseD_cnt (k : ErrCode) : (raise .D k s).fe.cnt = s.fe.cnt := rfl
@[simp] theorem raiseD_len (k : ErrCode) : (raise .D k s).fe.len = s.fe.len := rfl
@[simp] theorem raiseD_type (k : ErrCode) : (raise .D k s).fe.type = s.fe.type := rfl
@[simp] theorem raiseD_trl (k : ErrCode) : (raise .D k s).fe.trl = s.fe.trl := rfl
@[simp] theorem raiseD_ferr (k : ErrCode) : (raise .D k s).fe.ferr = s.fe.ferr := rfl
@[simp] theorem raiseD_derr (k : ErrCode) : (raise .D k s).fe.derr = k := rfl
@[simp] theorem raiseD_descValid (k : ErrCode) : (raise .D k s).fe.descValid = s.fe.descValid := rfl
@[simp] theorem raiseD_width (k : ErrCode) : (raise .D k s).fe.width = s.fe.width := rfl
@[simp] theorem raiseD_height (k : ErrCode) : (raise .D k s).fe.height = s.fe.height := rfl
@[simp] theorem raiseD_bitDepth (k : ErrCode) : (raise .D k s).fe.bitDepth = s.fe.bitDepth := rfl
@[simp] theorem raiseD_colorType (k : ErrCode) : (raise .D k s).fe.colorType = s.fe.colorType := rfl
@[simp] theorem raiseD_compression (k : ErrCode) : (raise .D k s).fe.compression = s.fe.compression := rfl
@[simp] theorem raiseD_filterMeth (k : ErrCode) : (raise .D k s).fe.filterMeth = s.fe.filterMeth := rfl
@[simp] theorem raiseD_interlace (k : ErrCode) : (raise .D k s).fe.interlace = s.fe.interlace := rfl
@[simp] theorem raiseD_ch (k : ErrCode) : (raise .D k s).fe.ch = s.fe.ch := rfl
@[simp] theorem raiseD_bpp (k : ErrCode) : (raise .D k s).fe.bpp = s.fe.bpp := rfl
@[simp] theorem raiseD_bps (k : ErrCode) : (raise .D k s).fe.bps = s.fe.bps := rfl
@[simp] theorem raiseD_pu (k : ErrCode) : (raise .D k s).pu = s.pu := rfl
@[simp] theorem raiseD_sIn (k : ErrCode) : (raise .D k s).sIn = s.sIn := rfl
@[simp] theorem raiseD_srcEnded (k : ErrCode) : (raise .D k s).srcEnded = s.srcEnded := rfl
@[simp] theorem raiseD_zIn (k : ErrCode) : (raise .D k s).zIn = s.zIn := rfl
@[simp] theorem raiseD_kOut (k : ErrCode) : (raise .D k s).kOut = s.kOut := rfl
@[simp] theorem raiseD_cOut (k : ErrCode) : (raise .D k s).cOut = s.cOut := rfl
@[simp] theorem raiseD_pOut (k : ErrCode) : (raise .D k s).pOut = s.pOut := rfl
@[simp] theorem raiseD_kReady (k : ErrCode) : (raise .D k s).kReady = s.kReady := rfl
@[simp] theorem raiseD_cReady (k : ErrCode) : (raise .D k s).cReady = s.cReady := rfl
@[simp] theorem raiseD_pReady (k : ErrCode) : (raise .D k s).pReady = s.pReady := rfl
@[simp] theorem raiseD_infl (k : ErrCode) : (raise .D k s).infl = s.infl := rfl
@[simp] theorem raiseD_lbBytes (k : ErrCode) : (raise .D k s).lbBytes = s.lbBytes := rfl
@[simp] theorem raiseD_enc (k : ErrCode) : (raise .D k s).enc = s.enc := rfl
@[simp] theorem raiseD_sched (k : ErrCode) : (raise .D k s).sched = s.sched := rfl

/-! ### raiseP -/

@[simp] theorem raiseP_fe (k : ErrCode) : (raise .P k s).fe = s.fe := rfl
@[simp] theorem raiseP_pst (k : ErrCode) : (raise .P k s).pu.pst = s.pu.pst := rfl
@[simp] theorem raiseP_row (k : ErrCode) : (raise .P k s).pu.row = s.pu.row := rfl
@[simp] theorem raiseP_col (k : ErrCode) : (raise .P k s).pu.col = s.pu.col := rfl
@[simp] theorem raiseP_ft (k : ErrCode) : (raise .P k s).pu.ft = s.pu.ft := rfl
@[simp] theorem raiseP_perr (k : ErrCode) : (raise .P k s).pu.perr = k := rfl
@[simp] theorem raiseP_prev (k : ErrCode) : (raise .P k s).pu.prev = s.pu.prev := rfl
@[simp] theorem raiseP_cur (k : ErrCode) : (raise .P k s).pu.cur = s.pu.cur := rfl
@[simp] theorem raiseP_sIn (k : ErrCode) : (raise .P k s).sIn = s.sIn := rfl
@[simp] theorem raiseP_srcEnded (k : ErrCode) : (raise .P k s).srcEnded = s.srcEnded := rfl
@[simp] theorem raiseP_zIn (k : ErrCode) : (raise .P k s).zIn = s.zIn := rfl
@[simp] theorem raiseP_kOut (k : ErrCode) : (raise .P k s).kOut = s.kOut := rfl
@[simp] theorem raiseP_cOut (k : ErrCode) : (raise .P k s).cOut = s.cOut := rfl
@[simp] theorem raiseP_pOut (k : ErrCode) : (raise .P k s).pOut = s.pOut := rfl
@[simp] theorem raiseP_kReady (k : ErrCode) : (raise .P k s).kReady = s.kReady := rfl
@[simp] theorem raiseP_cReady (k : ErrCode) : (raise .P k s).cReady = s.cReady := rfl
@[simp] theorem raiseP_pReady (k : ErrCode) : (raise .P k s).pReady = s.pReady := rfl
@[simp] theorem raiseP_infl (k : ErrCode) : (raise .P k s).infl = s.infl := rfl
@[simp] theorem raiseP_lbBytes (k : ErrCode) : (raise .P k s).lbBytes = s.lbBytes := rfl
@[simp] theorem raiseP_enc (k : ErrCode) : (raise .P k s).enc = s.enc := rfl
@[simp] theorem raiseP_sched (k : ErrCode) : (raise .P k s).sched = s.sched := rfl

/-! ### shiftLen -/

@[simp] theorem shiftLen_fst (b : Byte) : (shiftLen b s).fe.fst = s.fe.fst := rfl
@[simp] theorem shiftLen_cnt (b : Byte) : (shiftLen b s).fe.cnt = s.fe.cnt := rfl
@[simp] theorem shiftLen_len (b : Byte) : (shiftLen b s).fe.len = shiftIn s.fe.len b := rfl
@[simp] theorem shiftLen_type (b : Byte) : (shiftLen b s).fe.type = s.fe.type := rfl
@[simp] theorem shiftLen_trl (b : Byte) : (shiftLen b s).fe.trl = s.fe.trl := rfl
@[simp] theorem shiftLen_ferr (b : Byte) : (shiftLen b s).fe.ferr = s.fe.ferr := rfl
@[simp] theorem shiftLen_derr (b : Byte) : (shiftLen b s).fe.derr = s.fe.derr := rfl
@[simp] theorem shiftLen_descValid (b : Byte) : (shiftLen b s).fe.descValid = s.fe.descValid := rfl
@[simp] theorem shiftLen_width (b : Byte) : (shiftLen b s).fe.width = s.fe.width := rfl
@[simp] theorem shiftLen_height (b : Byte) : (shiftLen b s).fe.height = s.fe.height := rfl
@[simp] theorem shiftLen_bitDepth (b : Byte) : (shiftLen b s).fe.bitDepth = s.fe.bitDepth := rfl
@[simp] theorem shiftLen_colorType (b : Byte) : (shiftLen b s).fe.colorType = s.fe.colorType := rfl
@[simp] theorem shiftLen_compression (b : Byte) : (shiftLen b s).fe.compression = s.fe.compression := rfl
@[simp] theorem shiftLen_filterMeth (b : Byte) : (shiftLen b s).fe.filterMeth = s.fe.filterMeth := rfl
@[simp] theorem shiftLen_interlace (b : Byte) : (shiftLen b s).fe.interlace = s.fe.interlace := rfl
@[simp] theorem shiftLen_ch (b : Byte) : (shiftLen b s).fe.ch = s.fe.ch := rfl
@[simp] theorem shiftLen_bpp (b : Byte) : (shiftLen b s).fe.bpp = s.fe.bpp := rfl
@[simp] theorem shiftLen_bps (b : Byte) : (shiftLen b s).fe.bps = s.fe.bps := rfl
@[simp] theorem shiftLen_pu (b : Byte) : (shiftLen b s).pu = s.pu := rfl
@[simp] theorem shiftLen_sIn (b : Byte) : (shiftLen b s).sIn = s.sIn := rfl
@[simp] theorem shiftLen_srcEnded (b : Byte) : (shiftLen b s).srcEnded = s.srcEnded := rfl
@[simp] theorem shiftLen_zIn (b : Byte) : (shiftLen b s).zIn = s.zIn := rfl
@[simp] theorem shiftLen_kOut (b : Byte) : (shiftLen b s).kOut = s.kOut := rfl
@[simp] theorem shiftLen_cOut (b : Byte) : (shiftLen b s).cOut = s.cOut := rfl
@[simp] theorem shiftLen_pOut (b : Byte) : (shiftLen b s).pOut = s.pOut := rfl
@[simp] theorem shiftLen_kReady (b : Byte) : (shiftLen b s).kReady = s.kReady := rfl
@[simp] theorem shiftLen_cReady (b : Byte) : (shiftLen b s).cReady = s.cReady := rfl
@[simp] theorem shiftLen_pReady (b : Byte) : (shiftLen b s).pReady = s.pReady := rfl
@[simp] theorem shiftLen_infl (b : Byte) : (shiftLen b s).infl = s.infl := rfl
@[simp] theorem shiftLen_lbBytes (b : Byte) : (shiftLen b s).lbBytes = s.lbBytes := rfl
@[simp] theorem shiftLen_enc (b : Byte) : (shiftLen b s).enc = s.enc := rfl
@[simp] theorem shiftLen_sched (b : Byte) : (shiftLen b s).sched = s.sched := rfl

/-! ### shiftType -/

@[simp] theorem shiftType_fst (b : Byte) : (shiftType b s).fe.fst = s.fe.fst := rfl
@[simp] theorem shiftType_cnt (b : Byte) : (shiftType b s).fe.cnt = s.fe.cnt := rfl
@[simp] theorem shiftType_len (b : Byte) : (shiftType b s).fe.len = s.fe.len := rfl
@[simp] theorem shiftType_type (b : Byte) : (shiftType b s).fe.type = shiftIn s.fe.type b := rfl
@[simp] theorem shiftType_trl (b : Byte) : (shiftType b s).fe.trl = s.fe.trl := rfl
@[simp] theorem shiftType_ferr (b : Byte) : (shiftType b s).fe.ferr = s.fe.ferr := rfl
@[simp] theorem shiftType_derr (b : Byte) : (shiftType b s).fe.derr = s.fe.derr := rfl
@[simp] theorem shiftType_descValid (b : Byte) : (shiftType b s).fe.descValid = s.fe.descValid := rfl
@[simp] theorem shiftType_width (b : Byte) : (shiftType b s).fe.width = s.fe.width := rfl
@[simp] theorem shiftType_height (b : Byte) : (shiftType b s).fe.height = s.fe.height := rfl
@[simp] theorem shiftType_bitDepth (b : Byte) : (shiftType b s).fe.bitDepth = s.fe.bitDepth := rfl
@[simp] theorem shiftType_colorType (b : Byte) : (shiftType b s).fe.colorType = s.fe.colorType := rfl
@[simp] theorem shiftType_compression (b : Byte) : (shiftType b s).fe.compression = s.fe.compression := rfl
@[simp] theorem shiftType_filterMeth (b : Byte) : (shiftType b s).fe.filterMeth = s.fe.filterMeth := rfl
@[simp] theorem shiftType_interlace (b : Byte) : (shiftType b s).fe.interlace = s.fe.interlace := rfl
@[simp] theorem shiftType_ch (b : Byte) : (shiftType b s).fe.ch = s.fe.ch := rfl
@[simp] theorem shiftType_bpp (b : Byte) : (shiftType b s).fe.bpp = s.fe.bpp := rfl
@[simp] theorem shiftType_bps (b : Byte) : (shiftType b s).fe.bps = s.fe.bps := rfl
@[simp] theorem shiftType_pu (b : Byte) : (shiftType b s).pu = s.pu := rfl
@[simp] theorem shiftType_sIn (b : Byte) : (shiftType b s).sIn = s.sIn := rfl
@[simp] theorem shiftType_srcEnded (b : Byte) : (shiftType b s).srcEnded = s.srcEnded := rfl
@[simp] theorem shiftType_zIn (b : Byte) : (shiftType b s).zIn = s.zIn := rfl
@[simp] theorem shiftType_kOut (b : Byte) : (shiftType b s).kOut = s.kOut := rfl
@[simp] theorem shiftType_cOut (b : Byte) : (shiftType b s).cOut = s.cOut := rfl
@[simp] theorem shiftType_pOut (b : Byte) : (shiftType b s).pOut = s.pOut := rfl
@[simp] theorem shiftType_kReady (b : Byte) : (shiftType b s).kReady = s.kReady := rfl
@[simp] theorem shiftType_cReady (b : Byte) : (shiftType b s).cReady = s.cReady := rfl
@[simp] theorem shiftType_pReady (b : Byte) : (shiftType b s).pReady = s.pReady := rfl
@[simp] theorem shiftType_infl (b : Byte) : (shiftType b s).infl = s.infl := rfl
@[simp] theorem shiftType_lbBytes (b : Byte) : (shiftType b s).lbBytes = s.lbBytes := rfl
@[simp] theorem shiftType_enc (b : Byte) : (shiftType b s).enc = s.enc := rfl
@[simp] theorem shiftType_sched (b : Byte) : (shiftType b s).sched = s.sched := rfl

/-! ### shiftTrl -/

@[simp] theorem shiftTrl_fst (b : Byte) : (shiftTrl b s).fe.fst = s.fe.fst := rfl
@[simp] theorem shiftTrl_cnt (b : Byte) : (shiftTrl b s).fe.cnt = s.fe.cnt := rfl
@[simp] theorem shiftTrl_len (b : Byte) : (shiftTrl b s).fe.len = s.fe.len := rfl
@[simp] theorem shiftTrl_type (b : Byte) : (shiftTrl b s).fe.type = s.fe.type := rfl
@[simp] theorem shiftTrl_trl (b : Byte) : (shiftTrl b s).fe.trl = shiftIn s.fe.trl b := rfl
@[simp] theorem shiftTrl_ferr (b : Byte) : (shiftTrl b s).fe.ferr = s.fe.ferr := rfl
@[simp] theorem shiftTrl_derr (b : Byte) : (shiftTrl b s).fe.derr = s.fe.derr := rfl
@[simp] theorem shiftTrl_descValid (b : Byte) : (shiftTrl b s).fe.descValid = s.fe.descValid := rfl
@[simp] theorem shiftTrl_width (b : Byte) : (shiftTrl b s).fe.width = s.fe.width := rfl
@[simp] theorem shiftTrl_height (b : Byte) : (shiftTrl b s).fe.height = s.fe.height := rfl
@[simp] theorem shiftTrl_bitDepth (b : Byte) : (shiftTrl b s).fe.bitDepth = s.fe.bitDepth := rfl
@[simp] theorem shiftTrl_colorType (b : Byte) : (shiftTrl b s).fe.colorType = s.fe.colorType := rfl
@[simp] theorem shiftTrl_compression (b : Byte) : (shiftTrl b s).fe.compression = s.fe.compression := rfl
@[simp] theorem shiftTrl_filterMeth (b : Byte) : (shiftTrl b s).fe.filterMeth = s.fe.filterMeth := rfl
@[simp] theorem shiftTrl_interlace (b : Byte) : (shiftTrl b s).fe.interlace = s.fe.interlace := rfl
@[simp] theorem shiftTrl_ch (b : Byte) : (shiftTrl b s).fe.ch = s.fe.ch := rfl
@[simp] theorem shiftTrl_bpp (b : Byte) : (shiftTrl b s).fe.bpp = s.fe.bpp := rfl
@[simp] theorem shiftTrl_bps (b : Byte) : (shiftTrl b s).fe.bps = s.fe.bps := rfl
@[simp] theorem shiftTrl_pu (b : Byte) : (shiftTrl b s).pu = s.pu := rfl
@[simp] theorem shiftTrl_sIn (b : Byte) : (shiftTrl b s).sIn = s.sIn := rfl
@[simp] theorem shiftTrl_srcEnded (b : Byte) : (shiftTrl b s).srcEnded = s.srcEnded := rfl
@[simp] theorem shiftTrl_zIn (b : Byte) : (shiftTrl b s).zIn = s.zIn := rfl
@[simp] theorem shiftTrl_kOut (b : Byte) : (shiftTrl b s).kOut = s.kOut := rfl
@[simp] theorem shiftTrl_cOut (b : Byte) : (shiftTrl b s).cOut = s.cOut := rfl
@[simp] theorem shiftTrl_pOut (b : Byte) : (shiftTrl b s).pOut = s.pOut := rfl
@[simp] theorem shiftTrl_kReady (b : Byte) : (shiftTrl b s).kReady = s.kReady := rfl
@[simp] theorem shiftTrl_cReady (b : Byte) : (shiftTrl b s).cReady = s.cReady := rfl
@[simp] theorem shiftTrl_pReady (b : Byte) : (shiftTrl b s).pReady = s.pReady := rfl
@[simp] theorem shiftTrl_infl (b : Byte) : (shiftTrl b s).infl = s.infl := rfl
@[simp] theorem shiftTrl_lbBytes (b : Byte) : (shiftTrl b s).lbBytes = s.lbBytes := rfl
@[simp] theorem shiftTrl_enc (b : Byte) : (shiftTrl b s).enc = s.enc := rfl
@[simp] theorem shiftTrl_sched (b : Byte) : (shiftTrl b s).sched = s.sched := rfl

/-! ### latchHeader -/

@[simp] theorem latchHeader_fst (n t : Word32) : (latchHeader n t s).fe.fst = s.fe.fst := rfl
@[simp] theorem latchHeader_cnt (n t : Word32) : (latchHeader n t s).fe.cnt = s.fe.cnt := rfl
@[simp] theorem latchHeader_len (n t : Word32) : (latchHeader n t s).fe.len = n := rfl
@[simp] theorem latchHeader_type (n t : Word32) : (latchHeader n t s).fe.type = t := rfl
@[simp] theorem latchHeader_trl (n t : Word32) : (latchHeader n t s).fe.trl = s.fe.trl := rfl
@[simp] theorem latchHeader_ferr (n t : Word32) : (latchHeader n t s).fe.ferr = s.fe.ferr := rfl
@[simp] theorem latchHeader_derr (n t : Word32) : (latchHeader n t s).fe.derr = s.fe.derr := rfl
@[simp] theorem latchHeader_descValid (n t : Word32) : (latchHeader n t s).fe.descValid = s.fe.descValid := rfl
@[simp] theorem latchHeader_width (n t : Word32) : (latchHeader n t s).fe.width = s.fe.width := rfl
@[simp] theorem latchHeader_height (n t : Word32) : (latchHeader n t s).fe.height = s.fe.height := rfl
@[simp] theorem latchHeader_bitDepth (n t : Word32) : (latchHeader n t s).fe.bitDepth = s.fe.bitDepth := rfl
@[simp] theorem latchHeader_colorType (n t : Word32) : (latchHeader n t s).fe.colorType = s.fe.colorType := rfl
@[simp] theorem latchHeader_compression (n t : Word32) : (latchHeader n t s).fe.compression = s.fe.compression := rfl
@[simp] theorem latchHeader_filterMeth (n t : Word32) : (latchHeader n t s).fe.filterMeth = s.fe.filterMeth := rfl
@[simp] theorem latchHeader_interlace (n t : Word32) : (latchHeader n t s).fe.interlace = s.fe.interlace := rfl
@[simp] theorem latchHeader_ch (n t : Word32) : (latchHeader n t s).fe.ch = s.fe.ch := rfl
@[simp] theorem latchHeader_bpp (n t : Word32) : (latchHeader n t s).fe.bpp = s.fe.bpp := rfl
@[simp] theorem latchHeader_bps (n t : Word32) : (latchHeader n t s).fe.bps = s.fe.bps := rfl
@[simp] theorem latchHeader_pu (n t : Word32) : (latchHeader n t s).pu = s.pu := rfl
@[simp] theorem latchHeader_sIn (n t : Word32) : (latchHeader n t s).sIn = s.sIn := rfl
@[simp] theorem latchHeader_srcEnded (n t : Word32) : (latchHeader n t s).srcEnded = s.srcEnded := rfl
@[simp] theorem latchHeader_zIn (n t : Word32) : (latchHeader n t s).zIn = s.zIn := rfl
@[simp] theorem latchHeader_kOut (n t : Word32) : (latchHeader n t s).kOut = s.kOut := rfl
@[simp] theorem latchHeader_cOut (n t : Word32) : (latchHeader n t s).cOut = s.cOut := rfl
@[simp] theorem latchHeader_pOut (n t : Word32) : (latchHeader n t s).pOut = s.pOut := rfl
@[simp] theorem latchHeader_kReady (n t : Word32) : (latchHeader n t s).kReady = s.kReady := rfl
@[simp] theorem latchHeader_cReady (n t : Word32) : (latchHeader n t s).cReady = s.cReady := rfl
@[simp] theorem latchHeader_pReady (n t : Word32) : (latchHeader n t s).pReady = s.pReady := rfl
@[simp] theorem latchHeader_infl (n t : Word32) : (latchHeader n t s).infl = s.infl := rfl
@[simp] theorem latchHeader_lbBytes (n t : Word32) : (latchHeader n t s).lbBytes = s.lbBytes := rfl
@[simp] theorem latchHeader_enc (n t : Word32) : (latchHeader n t s).enc = s.enc := rfl
@[simp] theorem latchHeader_sched (n t : Word32) : (latchHeader n t s).sched = s.sched := rfl

/-! ### storeDerived -/

@[simp] theorem storeDerived_fst (c : Nat) : (storeDerived c s).fe.fst = s.fe.fst := rfl
@[simp] theorem storeDerived_cnt (c : Nat) : (storeDerived c s).fe.cnt = s.fe.cnt := rfl
@[simp] theorem storeDerived_len (c : Nat) : (storeDerived c s).fe.len = s.fe.len := rfl
@[simp] theorem storeDerived_type (c : Nat) : (storeDerived c s).fe.type = s.fe.type := rfl
@[simp] theorem storeDerived_trl (c : Nat) : (storeDerived c s).fe.trl = s.fe.trl := rfl
@[simp] theorem storeDerived_ferr (c : Nat) : (storeDerived c s).fe.ferr = s.fe.ferr := rfl
@[simp] theorem storeDerived_derr (c : Nat) : (storeDerived c s).fe.derr = s.fe.derr := rfl
@[simp] theorem storeDerived_descValid (c : Nat) : (storeDerived c s).fe.descValid = s.fe.descValid := rfl
@[simp] theorem storeDerived_width (c : Nat) : (storeDerived c s).fe.width = s.fe.width := rfl
@[simp] theorem storeDerived_height (c : Nat) : (storeDerived c s).fe.height = s.fe.height := rfl
@[simp] theorem storeDerived_bitDepth (c : Nat) : (storeDerived c s).fe.bitDepth = s.fe.bitDepth := rfl
@[simp] theorem storeDerived_colorType (c : Nat) : (storeDerived c s).fe.colorType = s.fe.colorType := rfl
@[simp] theorem storeDerived_compression (c : Nat) : (storeDerived c s).fe.compression = s.fe.compression := rfl
@[simp] theorem storeDerived_filterMeth (c : Nat) : (storeDerived c s).fe.filterMeth = s.fe.filterMeth := rfl
@[simp] theorem storeDerived_interlace (c : Nat) : (storeDerived c s).fe.interlace = s.fe.interlace := rfl
@[simp] theorem storeDerived_ch (c : Nat) : (storeDerived c s).fe.ch = BitVec.ofNat 3 c := rfl
@[simp] theorem storeDerived_bpp (c : Nat) : (storeDerived c s).fe.bpp = BitVec.ofNat 8 (bytesPerPixel c s.fe.bitDepth) := rfl
@[simp] theorem storeDerived_bps (c : Nat) : (storeDerived c s).fe.bps = BitVec.ofNat 39 (bytesPerScanline s.fe.width c s.fe.bitDepth) := rfl
@[simp] theorem storeDerived_pu (c : Nat) : (storeDerived c s).pu = s.pu := rfl
@[simp] theorem storeDerived_sIn (c : Nat) : (storeDerived c s).sIn = s.sIn := rfl
@[simp] theorem storeDerived_srcEnded (c : Nat) : (storeDerived c s).srcEnded = s.srcEnded := rfl
@[simp] theorem storeDerived_zIn (c : Nat) : (storeDerived c s).zIn = s.zIn := rfl
@[simp] theorem storeDerived_kOut (c : Nat) : (storeDerived c s).kOut = s.kOut := rfl
@[simp] theorem storeDerived_cOut (c : Nat) : (storeDerived c s).cOut = s.cOut := rfl
@[simp] theorem storeDerived_pOut (c : Nat) : (storeDerived c s).pOut = s.pOut := rfl
@[simp] theorem storeDerived_kReady (c : Nat) : (storeDerived c s).kReady = s.kReady := rfl
@[simp] theorem storeDerived_cReady (c : Nat) : (storeDerived c s).cReady = s.cReady := rfl
@[simp] theorem storeDerived_pReady (c : Nat) : (storeDerived c s).pReady = s.pReady := rfl
@[simp] theorem storeDerived_infl (c : Nat) : (storeDerived c s).infl = s.infl := rfl
@[simp] theorem storeDerived_lbBytes (c : Nat) : (storeDerived c s).lbBytes = s.lbBytes := rfl
@[simp] theorem storeDerived_enc (c : Nat) : (storeDerived c s).enc = s.enc := rfl
@[simp] theorem storeDerived_sched (c : Nat) : (storeDerived c s).sched = s.sched := rfl

/-! ### writeCur -/

@[simp] theorem writeCur_fe (y : Byte) : (writeCur y s).fe = s.fe := rfl
@[simp] theorem writeCur_pst (y : Byte) : (writeCur y s).pu.pst = s.pu.pst := rfl
@[simp] theorem writeCur_row (y : Byte) : (writeCur y s).pu.row = s.pu.row := rfl
@[simp] theorem writeCur_col (y : Byte) : (writeCur y s).pu.col = s.pu.col := rfl
@[simp] theorem writeCur_ft (y : Byte) : (writeCur y s).pu.ft = s.pu.ft := rfl
@[simp] theorem writeCur_perr (y : Byte) : (writeCur y s).pu.perr = s.pu.perr := rfl
@[simp] theorem writeCur_prev (y : Byte) : (writeCur y s).pu.prev = s.pu.prev := rfl
@[simp] theorem writeCur_cur (y : Byte) : (writeCur y s).pu.cur = LineBuffer.write s.pu.cur s.pu.col.toNat y := rfl
@[simp] theorem writeCur_sIn (y : Byte) : (writeCur y s).sIn = s.sIn := rfl
@[simp] theorem writeCur_srcEnded (y : Byte) : (writeCur y s).srcEnded = s.srcEnded := rfl
@[simp] theorem writeCur_zIn (y : Byte) : (writeCur y s).zIn = s.zIn := rfl
@[simp] theorem writeCur_kOut (y : Byte) : (writeCur y s).kOut = s.kOut := rfl
@[simp] theorem writeCur_cOut (y : Byte) : (writeCur y s).cOut = s.cOut := rfl
@[simp] theorem writeCur_pOut (y : Byte) : (writeCur y s).pOut = s.pOut := rfl
@[simp] theorem writeCur_kReady (y : Byte) : (writeCur y s).kReady = s.kReady := rfl
@[simp] theorem writeCur_cReady (y : Byte) : (writeCur y s).cReady = s.cReady := rfl
@[simp] theorem writeCur_pReady (y : Byte) : (writeCur y s).pReady = s.pReady := rfl
@[simp] theorem writeCur_infl (y : Byte) : (writeCur y s).infl = s.infl := rfl
@[simp] theorem writeCur_lbBytes (y : Byte) : (writeCur y s).lbBytes = s.lbBytes := rfl
@[simp] theorem writeCur_enc (y : Byte) : (writeCur y s).enc = s.enc := rfl
@[simp] theorem writeCur_sched (y : Byte) : (writeCur y s).sched = s.sched := rfl

/-! ### nextCol -/

@[simp] theorem nextCol_fe : (nextCol s).fe = s.fe := rfl
@[simp] theorem nextCol_pst : (nextCol s).pu.pst = s.pu.pst := rfl
@[simp] theorem nextCol_row : (nextCol s).pu.row = s.pu.row := rfl
@[simp] theorem nextCol_col : (nextCol s).pu.col = s.pu.col + 1 := rfl
@[simp] theorem nextCol_ft : (nextCol s).pu.ft = s.pu.ft := rfl
@[simp] theorem nextCol_perr : (nextCol s).pu.perr = s.pu.perr := rfl
@[simp] theorem nextCol_prev : (nextCol s).pu.prev = s.pu.prev := rfl
@[simp] theorem nextCol_cur : (nextCol s).pu.cur = s.pu.cur := rfl
@[simp] theorem nextCol_sIn : (nextCol s).sIn = s.sIn := rfl
@[simp] theorem nextCol_srcEnded : (nextCol s).srcEnded = s.srcEnded := rfl
@[simp] theorem nextCol_zIn : (nextCol s).zIn = s.zIn := rfl
@[simp] theorem nextCol_kOut : (nextCol s).kOut = s.kOut := rfl
@[simp] theorem nextCol_cOut : (nextCol s).cOut = s.cOut := rfl
@[simp] theorem nextCol_pOut : (nextCol s).pOut = s.pOut := rfl
@[simp] theorem nextCol_kReady : (nextCol s).kReady = s.kReady := rfl
@[simp] theorem nextCol_cReady : (nextCol s).cReady = s.cReady := rfl
@[simp] theorem nextCol_pReady : (nextCol s).pReady = s.pReady := rfl
@[simp] theorem nextCol_infl : (nextCol s).infl = s.infl := rfl
@[simp] theorem nextCol_lbBytes : (nextCol s).lbBytes = s.lbBytes := rfl
@[simp] theorem nextCol_enc : (nextCol s).enc = s.enc := rfl
@[simp] theorem nextCol_sched : (nextCol s).sched = s.sched := rfl

/-! ### rowDone -/

@[simp] theorem rowDone_fe : (rowDone s).fe = s.fe := rfl
@[simp] theorem rowDone_pst : (rowDone s).pu.pst = if s.pu.row + 1 = s.fe.height then .tail else .filt := rfl
@[simp] theorem rowDone_row : (rowDone s).pu.row = s.pu.row + 1 := rfl
@[simp] theorem rowDone_col : (rowDone s).pu.col = s.pu.col := rfl
@[simp] theorem rowDone_ft : (rowDone s).pu.ft = s.pu.ft := rfl
@[simp] theorem rowDone_perr : (rowDone s).pu.perr = s.pu.perr := rfl
@[simp] theorem rowDone_prev : (rowDone s).pu.prev = LineBuffer.copyBelow s.fe.bps.toNat s.pu.cur s.pu.prev := rfl
@[simp] theorem rowDone_cur : (rowDone s).pu.cur = s.pu.cur := rfl
@[simp] theorem rowDone_sIn : (rowDone s).sIn = s.sIn := rfl
@[simp] theorem rowDone_srcEnded : (rowDone s).srcEnded = s.srcEnded := rfl
@[simp] theorem rowDone_zIn : (rowDone s).zIn = s.zIn := rfl
@[simp] theorem rowDone_kOut : (rowDone s).kOut = s.kOut := rfl
@[simp] theorem rowDone_cOut : (rowDone s).cOut = s.cOut := rfl
@[simp] theorem rowDone_pOut : (rowDone s).pOut = s.pOut := rfl
@[simp] theorem rowDone_kReady : (rowDone s).kReady = s.kReady := rfl
@[simp] theorem rowDone_cReady : (rowDone s).cReady = s.cReady := rfl
@[simp] theorem rowDone_pReady : (rowDone s).pReady = s.pReady := rfl
@[simp] theorem rowDone_infl : (rowDone s).infl = s.infl := rfl
@[simp] theorem rowDone_lbBytes : (rowDone s).lbBytes = s.lbBytes := rfl
@[simp] theorem rowDone_enc : (rowDone s).enc = s.enc := rfl
@[simp] theorem rowDone_sched : (rowDone s).sched = s.sched := rfl

/-! ### storeIhdrByte: what no payload byte touches -/

@[simp] theorem storeIhdrByte_pu (k : Nat) (b : Byte) : (storeIhdrByte k b s).pu = s.pu := by
  unfold storeIhdrByte; split_ifs <;> rfl
@[simp] theorem storeIhdrByte_sIn (k : Nat) (b : Byte) : (storeIhdrByte k b s).sIn = s.sIn := by
  unfold storeIhdrByte; split_ifs <;> rfl
@[simp] theorem storeIhdrByte_srcEnded (k : Nat) (b : Byte) : (storeIhdrByte k b s).srcEnded = s.srcEnded := by
  unfold storeIhdrByte; split_ifs <;> rfl
@[simp] theorem storeIhdrByte_zIn (k : Nat) (b : Byte) : (storeIhdrByte k b s).zIn = s.zIn := by
  unfold storeIhdrByte; split_ifs <;> rfl
@[simp] theorem storeIhdrByte_kOut (k : Nat) (b : Byte) : (storeIhdrByte k b s).kOut = s.kOut := by
  unfold storeIhdrByte; split_ifs <;> rfl
@[simp] theorem storeIhdrByte_cOut (k : Nat) (b : Byte) : (storeIhdrByte k b s).cOut = s.cOut := by
  unfold storeIhdrByte; split_ifs <;> rfl
@[simp] theorem storeIhdrByte_pOut (k : Nat) (b : Byte) : (storeIhdrByte k b s).pOut = s.pOut := by
  unfold storeIhdrByte; split_ifs <;> rfl
@[simp] theorem storeIhdrByte_kReady (k : Nat) (b : Byte) : (storeIhdrByte k b s).kReady = s.kReady := by
  unfold storeIhdrByte; split_ifs <;> rfl
@[simp] theorem storeIhdrByte_cReady (k : Nat) (b : Byte) : (storeIhdrByte k b s).cReady = s.cReady := by
  unfold storeIhdrByte; split_ifs <;> rfl
@[simp] theorem storeIhdrByte_pReady (k : Nat) (b : Byte) : (storeIhdrByte k b s).pReady = s.pReady := by
  unfold storeIhdrByte; split_ifs <;> rfl
@[simp] theorem storeIhdrByte_infl (k : Nat) (b : Byte) : (storeIhdrByte k b s).infl = s.infl := by
  unfold storeIhdrByte; split_ifs <;> rfl
@[simp] theorem storeIhdrByte_lbBytes (k : Nat) (b : Byte) : (storeIhdrByte k b s).lbBytes = s.lbBytes := by
  unfold storeIhdrByte; split_ifs <;> rfl
@[simp] theorem storeIhdrByte_enc (k : Nat) (b : Byte) : (storeIhdrByte k b s).enc = s.enc := by
  unfold storeIhdrByte; split_ifs <;> rfl
@[simp] theorem storeIhdrByte_sched (k : Nat) (b : Byte) : (storeIhdrByte k b s).sched = s.sched := by
  unfold storeIhdrByte; split_ifs <;> rfl
@[simp] theorem storeIhdrByte_fst (k : Nat) (b : Byte) : (storeIhdrByte k b s).fe.fst = s.fe.fst := by
  unfold storeIhdrByte; split_ifs <;> rfl
@[simp] theorem storeIhdrByte_cnt (k : Nat) (b : Byte) : (storeIhdrByte k b s).fe.cnt = s.fe.cnt := by
  unfold storeIhdrByte; split_ifs <;> rfl
@[simp] theorem storeIhdrByte_len (k : Nat) (b : Byte) : (storeIhdrByte k b s).fe.len = s.fe.len := by
  unfold storeIhdrByte; split_ifs <;> rfl
@[simp] theorem storeIhdrByte_type (k : Nat) (b : Byte) : (storeIhdrByte k b s).fe.type = s.fe.type := by
  unfold storeIhdrByte; split_ifs <;> rfl
@[simp] theorem storeIhdrByte_trl (k : Nat) (b : Byte) : (storeIhdrByte k b s).fe.trl = s.fe.trl := by
  unfold storeIhdrByte; split_ifs <;> rfl
@[simp] theorem storeIhdrByte_ferr (k : Nat) (b : Byte) : (storeIhdrByte k b s).fe.ferr = s.fe.ferr := by
  unfold storeIhdrByte; split_ifs <;> rfl
@[simp] theorem storeIhdrByte_derr (k : Nat) (b : Byte) : (storeIhdrByte k b s).fe.derr = s.fe.derr := by
  unfold storeIhdrByte; split_ifs <;> rfl
@[simp] theorem storeIhdrByte_descValid (k : Nat) (b : Byte) : (storeIhdrByte k b s).fe.descValid = s.fe.descValid := by
  unfold storeIhdrByte; split_ifs <;> rfl
@[simp] theorem storeIhdrByte_ch (k : Nat) (b : Byte) : (storeIhdrByte k b s).fe.ch = s.fe.ch := by
  unfold storeIhdrByte; split_ifs <;> rfl
@[simp] theorem storeIhdrByte_bpp (k : Nat) (b : Byte) : (storeIhdrByte k b s).fe.bpp = s.fe.bpp := by
  unfold storeIhdrByte; split_ifs <;> rfl
@[simp] theorem storeIhdrByte_bps (k : Nat) (b : Byte) : (storeIhdrByte k b s).fe.bps = s.fe.bps := by
  unfold storeIhdrByte; split_ifs <;> rfl

end Sys2Proof.Machine
end

