-- ==== Sys2Proof/Laws/Moves.lean ====
section
/-! SUPPORT. What a step can do, said once: one case list for an FE step, one for a PU step, one for a turn of the machine, and
the lemma that a next state comes by one of these cases. Later proofs split on a move instead of unfolding the step. -/

namespace Sys2Proof.Machine

@[simp] theorem andThen_next (s : State) (f : State → Outcome) : andThen (.next s) f = f s := rfl
@[simp] theorem andThen_fault (r : Fault) (f : State → Outcome) : andThen (.fault r) f = .fault r := rfl
@[simp] theorem andThen_refused (r : Refusal) (f : State → Outcome) : andThen (.refused r) f = .refused r := rfl

/-- A composed outcome is a next state only through a next state. -/
theorem andThen_eq_next {o : Outcome} {f : State → Outcome} {t : State} (h : andThen o f = .next t) :
    ∃ u, o = .next u ∧ f u = .next t := by
  cases o with
  | next u => exact ⟨u, rfl, h⟩
  | fault r => cases h
  | refused r => cases h

/-! ### The commit -/

/-- What `commit` leaves where FE stands at the commit. -/
def committed (s : State) : State :=
  match colourTypeOf s.fe.colorType with
  | some c => commitChannels (channels c) s
  | Option.none => raise .D .unsupportedColorType s

/-- Where FE stands at the commit, `commit` answers the state the colour type calls for. -/
theorem commit_eq {s : State} (h : atCommit s) : commit s = .next (committed s) := by
  unfold commit committed
  cases colourTypeOf s.fe.colorType with
  | none => rfl
  | some c => cases c <;> simp only [execGray, execRgb, execIndexed, execGraya, execRgba, commitHere, if_pos h]

/-! ### Moves of the front end -/

/-- The header action of a class (`41_dispatch.md` section 2). -/
def headerAction : ChunkClass → State → State
  | .ihdr => dHeaderIhdr
  | .idat => dHeaderIdat
  | .iend => dHeaderNone
  | .plte => dHeaderPlte
  | .other => dHeaderNone

/-- The moves of FE (`40_framer.md` R148), each with what holds where it is taken. -/
inductive FeMove (s : State) : State → Prop
  /-- No step. -/
  | hold : FeMove s s
  /-- R131, mismatch, and R132. -/
  | sigReject : s.fe.fst = .sig → FeMove s (rejectSignature (popS s))
  /-- R131, the eighth byte. -/
  | sigDone : s.fe.fst = .sig → s.fe.cnt = 7 → FeMove s (enterField .len (popS s))
  /-- R131, an earlier byte. -/
  | sigNext : s.fe.fst = .sig → s.fe.cnt ≠ 7 → s.fe.cnt.toNat < 8 → FeMove s (nextByte (popS s))
  /-- R134, the clean end. -/
  | lenEnd : s.fe.fst = .len → s.fe.cnt = 0 → FeMove s (haltFE (popS s))
  /-- R134 inside the field, R136, R138, R140. -/
  | truncate : s.fe.fst ≠ .halt → FeMove s (truncateChunk (popS s))
  /-- R133, the fourth byte. -/
  | lenDone (b : Byte) : s.fe.fst = .len → s.fe.cnt = 3 → FeMove s (enterField .type (shiftLen b (popS s)))
  /-- R133, an earlier byte. -/
  | lenNext (b : Byte) : s.fe.fst = .len → s.fe.cnt ≠ 3 → FeMove s (nextByte (shiftLen b (popS s)))
  /-- R135, an earlier byte. -/
  | typeNext (b : Byte) : s.fe.fst = .type → s.fe.cnt ≠ 3 → FeMove s (nextByte (shiftType b (popS s)))
  /-- R135, the fourth byte: the chunk is selected. -/
  | select (b : Byte) : s.fe.fst = .type → s.fe.cnt = 3 →
      FeMove s (selectChunk s.fe.len (shiftIn s.fe.type b)
        (headerAction (classOf (shiftIn s.fe.type b))) (shiftType b (popS s)))
  /-- R137 where layer D has nothing to do (R150, R161). -/
  | payOpaque (b : Byte) : s.fe.fst = .data →
      (s.fe.derr ≠ .ok ∨ (classOf s.fe.type ≠ .ihdr ∧ classOf s.fe.type ≠ .idat)) →
      FeMove s (afterPayload (emitK (.pay b) (popS s)))
  /-- R137 with R160. -/
  | payIdat (b : Byte) : s.fe.fst = .data → s.fe.derr = .ok → classOf s.fe.type = .idat →
      FeMove s (afterPayload (emitC (.byte b) (emitK (.pay b) (popS s))))
  /-- R137 with R156, before the last field. -/
  | payIhdr (b : Byte) : s.fe.fst = .data → s.fe.derr = .ok → classOf s.fe.type = .ihdr → s.fe.cnt.toNat < 12 →
      FeMove s (afterPayload (storeIhdrByte s.fe.cnt.toNat b (emitK (.pay b) (popS s))))
  /-- R137 with R156, the last field: the commit (R158, R159). -/
  | payCommit (b : Byte) : s.fe.fst = .data → s.fe.derr = .ok → classOf s.fe.type = .ihdr → s.fe.cnt = 12 →
      FeMove s (afterPayload (committed (storeIhdrByte 12 b (emitK (.pay b) (popS s)))))
  /-- R139, an earlier byte. -/
  | trailNext (b : Byte) : s.fe.fst = .trail → s.fe.cnt ≠ 3 → FeMove s (nextByte (shiftTrl b (popS s)))
  /-- R139, the fourth byte of any chunk but `IEND`. -/
  | trailDone (b : Byte) : s.fe.fst = .trail → s.fe.cnt = 3 → classOf s.fe.type ≠ .iend →
      FeMove s (enterField .len (emitK (.trl (shiftIn s.fe.trl b)) (shiftTrl b (popS s))))
  /-- R139, the fourth byte of `IEND`. -/
  | trailEnd (b : Byte) : s.fe.fst = .trail → s.fe.cnt = 3 → classOf s.fe.type = .iend →
      FeMove s (haltFE (emitK (.trl (shiftIn s.fe.trl b)) (shiftTrl b (popS s))))

theorem execSig_move {s t : State} (h : execSig s = .next t) : FeMove s t := by
  unfold execSig at h
  split at h
  · rename_i hf
    split at h
    · cases h; exact .hold
    · cases h; exact .sigReject hf
    · split at h
      · cases h
      · rename_i k hk
        have hlt : s.fe.cnt.toNat < 8 := by
          have := (List.getElem?_eq_some_iff.1 hk).1
          simpa [signature] using this
        split at h
        · split at h
          · rename_i h7; cases h; exact .sigDone hf h7
          · rename_i h7; cases h; exact .sigNext hf h7 hlt
        · cases h; exact .sigReject hf
  all_goals (cases h; exact .hold)

/-- The payload action of each class, as the meanings pass it. -/
def payloadAction : ChunkClass → Byte → State → Outcome
  | .ihdr => dPayloadIhdr
  | .idat => dPayloadIdat
  | .iend => dPayloadNone
  | .plte => dPayloadNone
  | .other => dPayloadNone

/-- The meaning of the instruction a header encodes, in terms of its class. -/
theorem exec_headerInstr (n t : Word32) (s : State) :
    exec (headerInstr n t) s
      = chunkStep (classOf t) n t (headerAction (classOf t)) (payloadAction (classOf t)) s := by
  unfold headerInstr
  rcases classOf_cases t with ⟨rfl, h⟩ | ⟨rfl, h⟩ | ⟨rfl, h⟩ | ⟨rfl, h⟩ | h
  all_goals rw [h]; rfl

theorem payloadStep_move {s t : State} (hf : s.fe.fst = .data)
    (h : payloadStep (payloadAction (classOf s.fe.type)) s = .next t) : FeMove s t := by
  unfold payloadStep at h
  split at h
  · cases h; exact .hold
  · cases h; exact .truncate (by simp [hf])
  · rename_i b r hs
    obtain ⟨u, hu, ht⟩ := andThen_eq_next h
    cases ht
    split at hu
    · rename_i hd
      cases hc : classOf s.fe.type with
      | ihdr =>
        rw [hc] at hu
        simp only [payloadAction, dPayloadIhdr] at hu
        split at hu
        · cases hu
        · rename_i h12
          split at hu
          · rename_i heq
            rw [commit_eq] at hu
            · cases hu
              have : s.fe.cnt = 12 := by simpa using heq
              simp only [emitK_fe, popS_fe, this]
              exact .payCommit b hf hd hc this
            · have heq' : s.fe.cnt = 12 := by simpa using heq
              exact ⟨by simpa using hf, by simpa using hc, by simpa using heq', by simpa using hd⟩
          · rename_i hne
            cases hu
            simp only [emitK_fe, popS_fe] at h12 hne ⊢
            refine .payIhdr b hf hd hc ?_
            have : s.fe.cnt.toNat ≠ 12 := fun hh => hne (BitVec.eq_of_toNat_eq (by simpa using hh))
            omega
      | idat => rw [hc] at hu; cases hu; exact .payIdat b hf hd hc
      | iend => rw [hc] at hu; cases hu; exact .payOpaque b hf (.inr (by simp [hc]))
      | plte => rw [hc] at hu; cases hu; exact .payOpaque b hf (.inr (by simp [hc]))
      | other => rw [hc] at hu; cases hu; exact .payOpaque b hf (.inr (by simp [hc]))
    · rename_i hd
      cases hu; exact .payOpaque b hf (.inl hd)

theorem trailingStep_move {s t : State} (hf : s.fe.fst = .trail)
    (h : trailingStep (decide (classOf s.fe.type = .iend)) s = .next t) : FeMove s t := by
  unfold trailingStep at h
  split at h
  · cases h; exact .hold
  · cases h; exact .truncate (by simp [hf])
  · rename_i b r hs
    split at h
    · rename_i h3
      by_cases hc : classOf s.fe.type = .iend
      · simp only [hc, decide_true, if_true] at h
        cases h; exact .trailEnd b hf h3 hc
      · simp only [hc, decide_false, Bool.false_eq_true, if_false] at h
        cases h; exact .trailDone b hf h3 hc
    · rename_i h3
      cases h; exact .trailNext b hf h3

/-- An FE step that answers a next state is one of the moves. -/
theorem feTake_move {s t : State} (h : feTake s = .next t) : FeMove s t := by
  unfold feTake at h
  split at h
  · exact execSig_move h
  · rename_i hf
    unfold lenStep at h
    split at h
    · cases h; exact .hold
    · split at h
      · cases h; exact .truncate (by simp [hf])
      · rename_i h0; cases h; exact .lenEnd hf (by simpa using h0)
    · rename_i b r hs
      simp only at h
      split at h
      · rename_i h3; cases h; exact .lenDone b hf h3
      · rename_i h3; cases h; exact .lenNext b hf h3
  · rename_i hf
    unfold typeStep at h
    split at h
    · cases h; exact .hold
    · cases h; exact .truncate (by simp [hf])
    · rename_i b r hs
      simp only at h
      split at h
      · rename_i h3
        rw [exec_headerInstr] at h
        simp only [chunkStep, shiftType_fst, shiftType_cnt, popS_fe, hf, h3, if_true] at h
        cases h; exact .select b hf h3
      · rename_i h3; cases h; exact .typeNext b hf h3
  · rename_i hf
    rw [exec_headerInstr] at h
    simp only [chunkStep, hf, if_true] at h
    exact payloadStep_move hf h
  · rename_i hf
    rw [exec_headerInstr] at h
    simp only [chunkStep, hf, if_true] at h
    exact trailingStep_move hf h
  · cases h; exact .hold

theorem feStep_move {s t : State} (h : feStep s = .next t) : FeMove s t := by
  unfold feStep at h
  split at h
  · exact feTake_move h
  · cases h; exact .hold

/-! ### Moves of the plane unit -/

/-- The moves of PU (`43_plane.md` R217), each with what holds where it is taken. -/
inductive PuMove (s : State) : State → Prop
  /-- No step. -/
  | hold : PuMove s s
  /-- R201. -/
  | start : s.pu.pst = .wait → PuMove s (startStep s)
  /-- R202, an illegal byte. -/
  | reject : s.pu.pst = .filt → PuMove s (rejectFilter (popZ s))
  /-- R202, a legal byte: the filter is selected. -/
  | select (f : FilterType) : s.pu.pst = .filt → PuMove s (selectFilter f (popZ s))
  /-- R203, R206. -/
  | cutShort (k : ErrCode) : s.pu.pst = .filt ∨ s.pu.pst = .data →
      k = .truncatedPixelData ∨ k = .decompressionFailed → PuMove s (rowsCutShort k (popZ s))
  /-- R204. -/
  | rowByte (x : Byte) : s.pu.pst = .data → s.pu.col.toNat < s.lbBytes →
      PuMove s (reconstruct (recon s.pu.ft) x (popZ s))
  /-- R207, R210: a byte is discarded. -/
  | discard : s.pu.pst = .tail ∨ s.pu.pst = .drain → PuMove s (popZ s)
  /-- R208, a supported bit depth, and R210. -/
  | finish : (s.pu.pst = .tail ∧ supportedDepth s.fe.bitDepth = true) ∨ s.pu.pst = .drain →
      PuMove s (setPst .halt (popZ s))
  /-- R208, any other bit depth. -/
  | badDepth : s.pu.pst = .tail → supportedDepth s.fe.bitDepth = false →
      PuMove s (setPst .halt (raise .P .unsupportedBitDepth (popZ s)))
  /-- R209, R210. -/
  | failed : s.pu.pst = .tail ∨ s.pu.pst = .drain →
      PuMove s (setPst .halt (raise .P .decompressionFailed (popZ s)))

/-- The meaning of the instruction a filter type encodes, in terms of its type. -/
theorem exec_filterInstr (f : FilterType) (s : State) : exec f.instr s = filterStep f (recon f) s := by
  cases f <;> rfl

/-- A PU step that answers a next state is one of the moves. -/
theorem puTake_move {s t : State} (h : puTake s = .next t) : PuMove s t := by
  unfold puTake at h
  split at h
  · rename_i hp; cases h; exact .start hp
  · rename_i hp
    unfold filtStep at h
    split at h
    · cases h; exact .hold
    · split at h
      · rename_i f hf
        rw [exec_filterInstr] at h
        simp only [filterStep, popZ_pu, hp] at h
        cases h; exact .select f hp
      · cases h; exact .reject hp
    · cases h; exact .cutShort _ (.inl hp) (.inl rfl)
    · cases h; exact .cutShort _ (.inl hp) (.inr rfl)
  · rename_i hp
    rw [exec_filterInstr] at h
    simp only [filterStep, hp, if_true] at h
    unfold rowStep at h
    split at h
    · cases h; exact .hold
    · split at h
      · cases h
      · rename_i hlt; cases h; exact .rowByte _ hp (by omega)
    · cases h; exact .cutShort _ (.inr hp) (.inl rfl)
    · cases h; exact .cutShort _ (.inr hp) (.inr rfl)
  · rename_i hp
    unfold tailStep at h
    split at h
    · cases h; exact .hold
    · cases h; exact .discard (.inl hp)
    · split at h
      · rename_i hd; cases h; exact .finish (.inl ⟨hp, hd⟩)
      · rename_i hd; cases h; exact .badDepth hp (by simpa using hd)
    · cases h; exact .failed (.inl hp)
  · rename_i hp
    unfold drainStep at h
    split at h
    · cases h; exact .hold
    · cases h; exact .discard (.inr hp)
    · cases h; exact .finish (.inr hp)
    · cases h; exact .failed (.inr hp)
  · cases h; exact .hold

theorem puStep_move {s t : State} (h : puStep s = .next t) : PuMove s t := by
  unfold puStep at h
  split at h
  · exact puTake_move h
  · cases h; exact .hold

/-! ### Turns of the machine -/

/-- What an agent outside the block, or the reference encoder, can change: never a register of the block. -/
structure OutsideMove (s t : State) : Prop where
  fe : t.fe = s.fe
  pu : t.pu = s.pu
  kOut : t.kOut = s.kOut
  cOut : t.cOut = s.cOut
  pOut : t.pOut = s.pOut
  lbBytes : t.lbBytes = s.lbBytes
  sIn : ∃ more, t.sIn = s.sIn ++ more
  zIn : ∃ more, t.zIn = s.zIn ++ more

theorem outside_refl (s : State) : OutsideMove s s :=
  ⟨rfl, rfl, rfl, rfl, rfl, rfl, ⟨[], by simp⟩, ⟨[], by simp⟩⟩

theorem deliverAll_outside (bs : List Byte) (z : ZToken) (s : State) : OutsideMove s (deliverAll bs z s) :=
  ⟨rfl, rfl, rfl, rfl, rfl, rfl, ⟨[], by simp [deliverAll]⟩, ⟨bs.map .byte ++ [z], by simp [deliverAll]⟩⟩

theorem inflStep_outside {s t : State} (h : inflStep s = .next t) : OutsideMove s t := by
  unfold inflStep at h
  split at h
  · split at h
    · split at h
      · cases h; exact deliverAll_outside _ _ _
      · cases h
    · cases h; exact deliverAll_outside _ _ _
  · cases h; exact outside_refl s

theorem deliverStep_outside {z : ZToken} {s t : State} (h : deliverStep z s = .next t) : OutsideMove s t := by
  unfold deliverStep at h
  split at h
  · cases h
  · split at h
    · cases h; exact ⟨rfl, rfl, rfl, rfl, rfl, rfl, ⟨[], by simp⟩, ⟨_, rfl⟩⟩
    · split at h
      · cases h; exact deliverAll_outside _ _ _
      · cases h
    · split at h
      · cases h; exact deliverAll_outside _ _ _
      · cases h

theorem srcStep_outside {z : SToken} {s t : State} (h : srcStep z s = .next t) : OutsideMove s t := by
  unfold srcStep at h
  split at h
  · cases h
  · cases h; exact ⟨rfl, rfl, rfl, rfl, rfl, rfl, ⟨_, rfl⟩, ⟨[], by simp⟩⟩

/-- The meaning of a forward instruction, in terms of its type. -/
theorem exec_fwdInstr (f : FilterType) (s : State) : exec f.fwdInstr s = .next (forwardRow f.byte (filt f) s) := by
  cases f <;> rfl

theorem forwardRow_outside (b : Byte) (f : Byte → Neighbours → Byte) (s : State) : OutsideMove s (forwardRow b f s) := by
  unfold forwardRow
  split
  · exact outside_refl s
  · exact ⟨rfl, rfl, rfl, rfl, rfl, rfl, ⟨[], by simp⟩, ⟨[], by simp⟩⟩

theorem encodeRowStep_outside {b : Byte} {s t : State} (h : encodeRowStep b s = .next t) : OutsideMove s t := by
  unfold encodeRowStep at h
  split at h
  · cases h; exact outside_refl s
  · split at h
    · rw [exec_fwdInstr] at h; cases h; exact forwardRow_outside _ _ _
    · cases h; exact ⟨rfl, rfl, rfl, rfl, rfl, rfl, ⟨[], by simp⟩, ⟨[], by simp⟩⟩

/-- The turns of the machine: an agent of the block moves, something outside it moves, or the host resets. `s0` is the state the
turn starts from, `s` with its schedule entry taken. -/
inductive Turn (s : State) : State → Prop
  | front {s0 t : State} : (s0 = s ∨ ∃ rest, s0 = { s with sched := rest }) → FeMove s0 t → Turn s t
  | plane {s0 t : State} : (s0 = s ∨ ∃ rest, s0 = { s with sched := rest }) → PuMove s0 t → Turn s t
  | outside {t : State} : OutsideMove s t → Turn s t
  | reset (input : List Byte) (ends : Bool) (rest : List Event) : s.sched = .rst input ends :: rest →
      Turn s (assertReset input ends { s with sched := rest })

/-- A step that answers a next state is one of the turns. -/
theorem step_turn {s t : State} (h : step s = .next t) : Turn s t := by
  unfold step takeTurn at h
  split at h
  · unfold defaultTurn at h
    split at h
    · exact .front (.inl rfl) (feStep_move h)
    · split at h
      · exact .plane (.inl rfl) (puStep_move h)
      · split at h
        · exact .outside (inflStep_outside h)
        · cases h; exact .outside (outside_refl s)
  · rename_i e rest hs
    have lift : ∀ {u : State}, OutsideMove { s with sched := rest } u → OutsideMove s u :=
      fun o => ⟨o.fe, o.pu, o.kOut, o.cOut, o.pOut, o.lbBytes, o.sIn, o.zIn⟩
    have pins : ∀ {u : State}, u.fe = s.fe → u.pu = s.pu → u.kOut = s.kOut → u.cOut = s.cOut → u.pOut = s.pOut →
        u.lbBytes = s.lbBytes → u.sIn = s.sIn → u.zIn = s.zIn → OutsideMove s u :=
      fun h1 h2 h3 h4 h5 h6 h7 h8 => ⟨h1, h2, h3, h4, h5, h6, ⟨[], by simp [h7]⟩, ⟨[], by simp [h8]⟩⟩
    cases e with
    | fe => exact .front (.inr ⟨rest, rfl⟩) (feStep_move h)
    | pu => exact .plane (.inr ⟨rest, rfl⟩) (puStep_move h)
    | infl => exact .outside (lift (inflStep_outside h))
    | deliver z => exact .outside (lift (deliverStep_outside h))
    | src z => exact .outside (lift (srcStep_outside h))
    | setKReady b => cases h; exact .outside (pins rfl rfl rfl rfl rfl rfl rfl rfl)
    | setCReady b => cases h; exact .outside (pins rfl rfl rfl rfl rfl rfl rfl rfl)
    | setPReady b => cases h; exact .outside (pins rfl rfl rfl rfl rfl rfl rfl rfl)
    | rst input ends => cases h; exact .reset input ends rest hs
    | encodeRow b => exact .outside (lift (encodeRowStep_outside h))

end Sys2Proof.Machine
end

