-- ==== Sys2Proof/Laws/Ops.lean ====
section
/-! SUPPORT. One lemma per shared operation that says all it can do, for later proofs to cite instead of unfolding it. -/

namespace Sys2Proof.Machine

/-! ### Words -/

/-- `(v << 8) | b` is `256 v + b` modulo 2^32. -/
theorem shiftIn_eq_ofNat (v : Word32) (b : Byte) : shiftIn v b = BitVec.ofNat 32 (v.toNat * 256 + b.toNat) := by
  have disjoint : (v <<< 8) &&& (b.setWidth 32) = 0#32 := by
    apply BitVec.eq_of_getLsbD_eq
    intro i hi
    by_cases h : i < 8
    · simp [h]
    · simp [BitVec.getLsbD_of_ge b i (by omega)]
  unfold shiftIn
  rw [← BitVec.add_eq_or_of_and_eq_zero _ _ disjoint]
  apply BitVec.eq_of_toNat_eq
  simp [BitVec.toNat_add, BitVec.toNat_shiftLeft, Nat.shiftLeft_eq]

/-- A bit vector equals a numeral exactly when its value does. -/
theorem toNat_eq_iff {w : Nat} (x : BitVec w) (k : Nat) (hk : k < 2 ^ w) : x.toNat = k ↔ x = BitVec.ofNat w k := by
  constructor
  · intro h
    apply BitVec.eq_of_toNat_eq
    rw [BitVec.toNat_ofNat, h, Nat.mod_eq_of_lt hk]
  · intro h
    rw [h, BitVec.toNat_ofNat, Nat.mod_eq_of_lt hk]

/-- A byte above 4 is no filter type. -/
theorem filterTypeOf_eq_none {b : Byte} (h : 4 < b.toNat) : filterTypeOf b = Option.none := by
  have ne : ∀ k : Nat, k ≤ 4 → b ≠ BitVec.ofNat 8 k := by
    intro k hk e
    rw [e, BitVec.toNat_ofNat] at h
    omega
  have h0 := ne 0 (by omega)
  have h1 := ne 1 (by omega)
  have h2 := ne 2 (by omega)
  have h3 := ne 3 (by omega)
  have h4 := ne 4 (by omega)
  simp_all [filterTypeOf]

/-! ### The end of FE's run -/

/-- `D_end` with an error on record, or with a descriptor, does nothing. -/
theorem dEnd_of_error {s : State} (h : s.fe.ferr ≠ .ok ∨ s.fe.derr ≠ .ok ∨ s.fe.descValid = true) : dEnd s = s := by
  unfold dEnd
  rcases h with h | h | h <;> simp [h]

/-- All `halt_FE` does. -/
theorem haltFE_eq (s : State) :
    haltFE s = { s with
      cOut := s.cOut ++ [.cEnd]
      fe := { s.fe with
        fst := .halt
        derr :=
          if s.fe.ferr = .ok ∧ s.fe.derr = .ok ∧ s.fe.descValid = false then .invalidChunkForContext else s.fe.derr } } := by
  unfold haltFE dEnd
  split <;> rfl

/-- All that raising a layer-F error and halting does. -/
theorem haltFE_raise_eq (k : ErrCode) (hk : k ≠ .ok) (s : State) :
    haltFE (raise .F k s) = { s with cOut := s.cOut ++ [.cEnd], fe := { s.fe with fst := .halt, ferr := k } } := by
  rw [haltFE_eq]
  simp [hk, raise]

/-! ### Chunks -/

/-- All the advance after a payload byte does. -/
theorem afterPayload_eq (s : State) :
    afterPayload s = { s with
      fe := { s.fe with
        fst := if s.fe.cnt = s.fe.len - 1 then .trail else s.fe.fst
        cnt := if s.fe.cnt = s.fe.len - 1 then 0 else s.fe.cnt + 1 } } := by
  unfold afterPayload
  split <;> simp [*, enterField, nextByte]

/-- All the selection of a chunk does, for a header action that does nothing or raises the context error. -/
theorem selectChunk_eq (n t : Word32) (act : State → State) (s : State) :
    selectChunk n t act s
      = enterField (if n = 0 then .trail else .data)
          (if s.fe.derr = .ok then act (emitK (.hdr n t) (latchHeader n t s)) else emitK (.hdr n t) (latchHeader n t s)) := rfl

/-- A payload step that answers a next state consumed `SEos`, or a byte, or nothing was on offer. -/
theorem payloadStep_cases {act : Byte → State → Outcome} {s t : State} (h : payloadStep act s = .next t) :
    (s.sIn = [] ∧ t = s) ∨
    (∃ more, s.sIn = .eos :: more ∧ t = truncateChunk (popS s)) ∨
    (∃ b more u, s.sIn = .byte b :: more ∧ t = afterPayload u ∧
      ((s.fe.derr = .ok ∧ act b (emitK (.pay b) (popS s)) = .next u) ∨
        (s.fe.derr ≠ .ok ∧ u = emitK (.pay b) (popS s)))) := by
  unfold payloadStep at h
  split at h
  · rename_i hs; cases h; exact .inl ⟨hs, rfl⟩
  · rename_i more hs; cases h; exact .inr (.inl ⟨more, hs, rfl⟩)
  · rename_i b more hs
    obtain ⟨u, hu, ht⟩ := andThen_eq_next h
    cases ht
    split at hu
    · rename_i hd; exact .inr (.inr ⟨b, more, u, hs, rfl, .inl ⟨hd, hu⟩⟩)
    · rename_i hd; cases hu; exact .inr (.inr ⟨b, more, _, hs, rfl, .inr ⟨hd, rfl⟩⟩)

/-- The commit of a legal colour type ends in one of three ways. -/
theorem commitChannels_cases (c : Nat) (s : State) :
    (s.fe.interlace ≠ 0 ∧ commitChannels c s = raise .D .notImplemented s) ∨
    (s.fe.interlace = 0 ∧ s.lbBytes < (storeDerived c s).fe.bps.toNat ∧
      commitChannels c s = raise .D .lineBufferOverflow (storeDerived c s)) ∨
    (s.fe.interlace = 0 ∧ (storeDerived c s).fe.bps.toNat ≤ s.lbBytes ∧
      commitChannels c s = { storeDerived c s with fe := { (storeDerived c s).fe with descValid := true } }) := by
  unfold commitChannels
  split
  · rename_i h; exact .inl ⟨h, rfl⟩
  · rename_i h
    unfold checkCapacity
    split
    · rename_i hc; exact .inr (.inl ⟨not_not.1 h, hc, rfl⟩)
    · rename_i hc; exact .inr (.inr ⟨not_not.1 h, Nat.le_of_not_lt hc, rfl⟩)

/-- The derived quantities never reach the width of their registers. -/
theorem derived_lt (width : Word32) (c : ColourType) (bitDepth : Byte) :
    channels c ≤ 4 ∧ bytesPerPixel (channels c) bitDepth ≤ 128 ∧ bytesPerScanline width (channels c) bitDepth < 2 ^ 39 := by
  have hw := width.isLt
  have hd := bitDepth.isLt
  have hc : channels c ≤ 4 := by cases c <;> decide
  have h1 : channels c * bitDepth.toNat ≤ 4 * 255 := Nat.mul_le_mul hc (by omega)
  have h2 : width.toNat * (channels c * bitDepth.toNat) ≤ (2 ^ 32 - 1) * (4 * 255) := Nat.mul_le_mul (by omega) h1
  refine ⟨hc, ?_, ?_⟩
  · unfold bytesPerPixel ceilDiv8; omega
  · unfold bytesPerScanline ceilDiv8; rw [Nat.mul_assoc]; omega

/-! ### Rows -/

/-- A row of no bytes copies nothing. -/
theorem copyBelow_zero (src dst : LineBuffer) : LineBuffer.copyBelow 0 src dst = dst := by
  simp [LineBuffer.copyBelow]

/-- A row step that answers a next state consumed an end token, or a byte, or nothing was on offer. -/
theorem rowStep_cases {f : Byte → Neighbours → Byte} {s t : State} (h : rowStep f s = .next t) :
    (s.zIn = [] ∧ t = s) ∨
    (∃ x more, s.zIn = .byte x :: more ∧ s.pu.col.toNat < s.lbBytes ∧ t = reconstruct f x (popZ s)) ∨
    (∃ more, s.zIn = .zEnd :: more ∧ t = rowsCutShort .truncatedPixelData (popZ s)) ∨
    (∃ more, s.zIn = .zErr :: more ∧ t = rowsCutShort .decompressionFailed (popZ s)) := by
  unfold rowStep at h
  split at h
  · rename_i hz; cases h; exact .inl ⟨hz, rfl⟩
  · rename_i x more hz
    split at h
    · cases h
    · rename_i hl; cases h; exact .inr (.inl ⟨x, more, hz, Nat.lt_of_not_le hl, rfl⟩)
  · rename_i more hz; cases h; exact .inr (.inr (.inl ⟨more, hz, rfl⟩))
  · rename_i more hz; cases h; exact .inr (.inr (.inr ⟨more, hz, rfl⟩))

/-- What a row byte does to the line buffers, byte by byte. -/
theorem reconstruct_read (f : Byte → Neighbours → Byte) (x : Byte) (s : State) (hw : LineBuffer.wf s.pu.cur = true) (j : Nat) :
    LineBuffer.read (reconstruct f x s).pu.cur j
        = (if j = s.pu.col.toNat then f x (neighbours s) else LineBuffer.read s.pu.cur j) ∧
      LineBuffer.read (reconstruct f x s).pu.prev j
        = (if lastOfRow s = true ∧ j < s.fe.bps.toNat then LineBuffer.read (reconstruct f x s).pu.cur j
          else LineBuffer.read s.pu.prev j) := by
  have cur : ∀ y j, LineBuffer.read (LineBuffer.write s.pu.cur s.pu.col.toNat y) j
      = if j = s.pu.col.toNat then y else LineBuffer.read s.pu.cur j := by
    intro y j
    split
    · rename_i h; rw [h]; exact LineBuffer.read_write_same _ _ _ hw
    · rename_i h; exact LineBuffer.read_write_other _ _ _ _ hw h
  unfold reconstruct
  by_cases hl : lastOfRow s = true
  · simp only [hl, if_true]
    refine ⟨cur _ j, ?_⟩
    simp only [true_and]
    exact LineBuffer.read_copyBelow _ _ _ _
  · simp only [hl]
    refine ⟨cur _ j, ?_⟩
    simp [nextCol, emitP, writeCur]

/-- A meaning of a filter row keeps both line buffers in canonical form and inside the capacity. -/
theorem filterStep_buffers {ft : FilterType} {f : Byte → Neighbours → Byte} {s t : State} (hb : Safety.BuffersCanonical s)
    (h : filterStep ft f s = .next t) : Safety.BuffersCanonical t := by
  obtain ⟨hp, hc, hpw, hcw⟩ := hb
  have keep : Safety.BuffersCanonical s := ⟨hp, hc, hpw, hcw⟩
  unfold filterStep at h
  split at h
  · cases h
    unfold selectFilter
    simp only
    split
    · exact ⟨LineBuffer.wf_copyBelow _ _ _ hc hp, hc, LineBuffer.within_copyBelow hcw hpw, hcw⟩
    · exact keep
  · split at h
    · rcases rowStep_cases h with ⟨-, rfl⟩ | ⟨x, more, -, hl, rfl⟩ | ⟨more, -, rfl⟩ | ⟨more, -, rfl⟩
      · exact keep
      · have w := LineBuffer.wf_write s.pu.cur s.pu.col.toNat (f x (neighbours (popZ s))) hc
        have i := LineBuffer.within_write (n := s.lbBytes) (f x (neighbours (popZ s))) hl hcw
        unfold reconstruct
        simp only
        split
        · exact ⟨LineBuffer.wf_copyBelow _ _ _ w hp, w, LineBuffer.within_copyBelow i hpw, i⟩
        · exact ⟨hp, w, hpw, i⟩
      · exact keep
      · exact keep
    · cases h; exact keep
  all_goals (cases h; exact keep)

/-! ### The invariant -/

/-- The invariant speaks of the block's registers and buffers, streams C and P and the capacity alone. -/
theorem inv_of_same_block {s t : State} (h : Safety.Inv s) (fe : t.fe = s.fe) (pu : t.pu = s.pu) (cOut : t.cOut = s.cOut)
    (pOut : t.pOut = s.pOut) (lbBytes : t.lbBytes = s.lbBytes) : Safety.Inv t := by
  obtain ⟨i1, i2, i3, i4, i5, i6, i7, i8, i9, i10, i11, i12, i13, i14, i15⟩ := h
  constructor <;>
    simp only [Safety.CounterInField, Safety.RowInImage, Safety.DescriptorSound, Safety.IhdrInProgress, Safety.IdatInProgress,
      Safety.PlaneStarted, Safety.CodesOfLayer, Safety.FrontErrorHalts, Safety.HaltHasReason, Safety.PlaneErrorStops,
      Safety.DrainHasReason, Safety.BuffersCanonical, Safety.EndEmittedOnce, Safety.ForwardedNeedsDescriptor,
      Safety.PixelsCounted, fe, pu, cOut, pOut, lbBytes] <;>
    assumption

/-! ### Reset -/

/-- What reset leaves of the old state: the line buffers, the instance, the pins, the forward record and the turns to come. -/
theorem assertReset_keeps (input : List Byte) (ends : Bool) (s : State) :
    (assertReset input ends s).pu.prev = s.pu.prev ∧ (assertReset input ends s).pu.cur = s.pu.cur ∧
      (assertReset input ends s).lbBytes = s.lbBytes ∧ (assertReset input ends s).kReady = s.kReady ∧
      (assertReset input ends s).cReady = s.cReady ∧ (assertReset input ends s).pReady = s.pReady ∧
      (assertReset input ends s).enc = s.enc ∧ (assertReset input ends s).sched = s.sched :=
  ⟨rfl, rfl, rfl, rfl, rfl, rfl, rfl, rfl⟩

/-- An input presents `SEos` exactly if it ends. -/
@[simp] theorem eos_mem_presentInput (input : List Byte) (ends : Bool) : SToken.eos ∈ presentInput input ends ↔ ends = true := by
  cases ends <;> simp [presentInput]

end Sys2Proof.Machine
end

