-- ==== Sys2Proof/Laws/PerInstr.lean ====
section
/-! SUPPORT. Statements made per instruction: the encoding of every row has the width the opcode table gives its format
(`30_encoding.md` R118). -/

namespace Sys2Proof.Laws.EncodeWidth

/-- The instruction's encoding has as many bytes as its format. -/
def Statement (i : Instr) : Prop := (encode i).length = i.format.bytes

theorem sig : Statement (.sig) := rfl
theorem ihdr (n : Word32) : Statement (.ihdr n) := rfl
theorem idat (n : Word32) : Statement (.idat n) := rfl
theorem iend (n : Word32) : Statement (.iend n) := rfl
theorem plte (n : Word32) : Statement (.plte n) := rfl
theorem other (n t : Word32) : Statement (.other n t) := rfl
theorem gray : Statement (.gray) := rfl
theorem rgb : Statement (.rgb) := rfl
theorem indexed : Statement (.indexed) := rfl
theorem graya : Statement (.graya) := rfl
theorem rgba : Statement (.rgba) := rfl
theorem none : Statement (.none) := rfl
theorem sub : Statement (.sub) := rfl
theorem up : Statement (.up) := rfl
theorem avg : Statement (.avg) := rfl
theorem paeth : Statement (.paeth) := rfl
theorem fwdNone : Statement (.fwdNone) := rfl
theorem fwdSub : Statement (.fwdSub) := rfl
theorem fwdUp : Statement (.fwdUp) := rfl
theorem fwdAvg : Statement (.fwdAvg) := rfl
theorem fwdPaeth : Statement (.fwdPaeth) := rfl

end Sys2Proof.Laws.EncodeWidth
end

