-- ==== Sys2Proof/Tests/Slice0.lean ====
section
/-! SUPPORT. Tests: ill-formed terms refused, words written out from the encodings of the spec, one-step examples the rules give, and
for every statement with hypotheses a concrete input that meets them. -/

namespace Sys2Proof.Tests

open Sys2Proof.Machine Sys2Proof.Safety

/-! ### Small states -/

/-- The state after reset of an instance of 8 bytes. -/
def base : State := { State.reset with lbBytes := 8 }

/-- FE at a place, with tokens on offer. -/
def front (q : FState) (cnt len tag : Nat) (sIn : List SToken) : State :=
  { base with
    fe := { base.fe with fst := q, cnt := BitVec.ofNat 32 cnt, len := BitVec.ofNat 32 len, type := BitVec.ofNat 32 tag }
    sIn := sIn }

/-- FE at the last `IHDR` payload byte with this width, bit depth, colour type and interlace method. -/
def atByte12 (width : Nat) (bitDepth colorType interlace : Byte) : State :=
  { base with
    fe := { base.fe with
      fst := .data, cnt := 12, len := 13, type := ihdrTag, width := BitVec.ofNat 32 width, height := 2
      bitDepth := bitDepth, colorType := colorType, interlace := interlace }
    sIn := [.byte interlace] }

/-- FE in an `IDAT` payload of a 2 by 2 gray 8-bit image, PU at row `row`, byte `col`, with `PREV = [10, 20]` and tokens on offer. -/
def plane (q : PState) (row col : Nat) (f : FilterType) (zIn : List ZToken) : State :=
  { base with
    fe := { base.fe with
      fst := .data, cnt := 1, len := 5, type := idatTag, descValid := true, width := 2, height := 2, bitDepth := 8
      ch := 1, bpp := 1, bps := 2 }
    pu := { base.pu with
      pst := q, row := BitVec.ofNat 32 row, col := BitVec.ofNat 39 col, ft := f, prev := [(0, 10), (1, 20)] }
    sIn := [.byte 7, .eos]
    zIn := zIn
    pOut := List.replicate (row * 2 + col) { b := 1, eol := false } }

/-- The forward record holds this row, previous row and stride (R232 to R236). -/
def forward (row : List Byte) (prev : Option (List Byte)) (bpp : Nat) : State :=
  { base with enc := { base.enc with rows := [row], prev := prev, bpp := bpp } }

/-- The next state of an outcome, or the state after reset. -/
def got (o : Outcome) : State :=
  match o with
  | .next s => s
  | .fault _ => State.reset
  | .refused _ => State.reset

/-- The outcome is a next state. -/
def runs (o : Outcome) : Bool :=
  match o with
  | .next _ => true
  | .fault _ => false
  | .refused _ => false

/-! ### Well-formedness -/

theorem test_wf_other_ihdr : (Instr.other 5 0x49484452#32).wf = false := by decide
theorem test_wf_other_idat : (Instr.other 5 0x49444154#32).wf = false := by decide
theorem test_wf_other_iend : (Instr.other 5 0x49454E44#32).wf = false := by decide
theorem test_wf_other_plte : (Instr.other 5 0x504C5445#32).wf = false := by decide
theorem test_wf_other_text : (Instr.other 5 0x74455874#32).wf = true := by decide

/-! ### Words written out from the encodings (R91, R92, R94, R96, R99, R118) -/

theorem test_word_sig :
    decode .signature [0b10001001#8, 0b01010000#8, 0b01001110#8, 0b01000111#8, 0b00001101#8, 0b00001010#8, 0b00011010#8, 0b00001010#8]
      = .ok .sig [] := by decide
theorem test_word_ihdr :
    decode .chunkHeader [0#8, 0#8, 0#8, 0b00001101#8, 0b01001001#8, 0b01001000#8, 0b01000100#8, 0b01010010#8, 0x99#8]
      = .ok (.ihdr 13#32) [0x99#8] := by decide
theorem test_word_idat :
    decode .chunkHeader [0b10000000#8, 0#8, 0#8, 0b00000001#8, 0b01001001#8, 0b01000100#8, 0b01000001#8, 0b01010100#8]
      = .ok (.idat 0x80000001#32) [] := by decide
theorem test_word_iend :
    decode .chunkHeader [0#8, 0#8, 0#8, 0#8, 0b01001001#8, 0b01000101#8, 0b01001110#8, 0b01000100#8] = .ok (.iend 0#32) [] := by
  decide
theorem test_word_plte :
    decode .chunkHeader [0#8, 0#8, 0b00000011#8, 0#8, 0b01010000#8, 0b01001100#8, 0b01010100#8, 0b01000101#8]
      = .ok (.plte 768#32) [] := by decide
theorem test_word_other_lower_case :
    decode .chunkHeader [0#8, 0#8, 0#8, 3#8, 0b01101001#8, 0b01101000#8, 0b01100100#8, 0b01110010#8]
      = .ok (.other 3#32 0x69686472#32) [] := by decide
theorem test_word_colours :
    decode .colourType [0b00000000#8] = .ok .gray [] ∧ decode .colourType [0b00000010#8] = .ok .rgb [] ∧
    decode .colourType [0b00000011#8] = .ok .indexed [] ∧ decode .colourType [0b00000100#8] = .ok .graya [] ∧
    decode .colourType [0b00000110#8] = .ok .rgba [] := by decide
theorem test_word_colour_illegal :
    decode .colourType [1#8] = .reject .unsupportedColorType ∧ decode .colourType [5#8] = .reject .unsupportedColorType ∧
    decode .colourType [7#8] = .reject .unsupportedColorType := by decide
theorem test_word_filters :
    decode .filterByte [0b00000000#8] = .ok .none [] ∧ decode .filterByte [0b00000001#8] = .ok .sub [] ∧
    decode .filterByte [0b00000010#8] = .ok .up [] ∧ decode .filterByte [0b00000011#8] = .ok .avg [] ∧
    decode .filterByte [0b00000100#8] = .ok .paeth [] := by decide
theorem test_word_filter_illegal :
    decode .filterByte [5#8] = .reject .unknownFilterType ∧ decode .filterByte [0x84#8] = .reject .unknownFilterType := by decide
theorem test_word_forwards :
    decode .filterByteEncode [0b00000000#8] = .ok .fwdNone [] ∧ decode .filterByteEncode [0b00000001#8] = .ok .fwdSub [] ∧
    decode .filterByteEncode [0b00000010#8] = .ok .fwdUp [] ∧ decode .filterByteEncode [0b00000011#8] = .ok .fwdAvg [] ∧
    decode .filterByteEncode [0b00000100#8] = .ok .fwdPaeth [] := by decide

theorem test_table_words :
    decodeTableWord 64 0x89504E470D0A1A0A = some .sig ∧ decodeTableWord 64 0x0000000D49484452 = some (.ihdr 13) ∧
    decodeTableWord 64 0x49444154 = some (.idat 0) ∧ decodeTableWord 64 0 = some (.other 0 0) ∧
    decodeTableWord 8 4 = some .paeth ∧ decodeTableWord 8 6 = some .rgba ∧ decodeTableWord 8 5 = Option.none := by decide

theorem test_fetch_sig : (got (step (base.withFetchWord 64 0x89504E470D0A1A0A))).fe.cnt = 1 := by decide
theorem test_fetch_other :
    (got (step (base.withFetchWord 64 0x0000000374455874))).kOut = [.hdr 3 0x74455874#32] := by decide
theorem test_fetch_rgba : (got (step (base.withFetchWord 8 6))).fe.ch = 4 := by decide
theorem test_fetch_paeth : (got (step (base.withFetchWord 8 4))).pu.ft = .paeth := by decide

/-! ### One step of each instruction, from the rules' examples -/

-- R131: with `CNT = 7`, `SByte(0x0B)` raises `BadSignature`; R132: the input `89 50 4E` ends with `FERR = 1`
theorem test_sig_mismatch : (got (exec .sig (front .sig 7 0 0 [.byte 0x0B]))).fe.ferr.code = 1 := by decide
theorem test_sig_short : (got (exec .sig (front .sig 3 0 0 [.eos]))).fe.ferr.code = 1 := by decide
-- R152: an `IHDR` of 12 bytes sets `DERR = 8`; R156: `WIDTH` of 00 00 00 02
theorem test_ihdr_length : (got (exec (.ihdr 12) (front .type 3 12 0x49484452 []))).fe.derr.code = 8 := by decide
theorem test_ihdr_width : (got (exec (.ihdr 13) (front .data 3 13 0x49484452 [.byte 2]))).fe.width = 2 := by decide
-- R153: `IDAT` before a descriptor sets `DERR = 8`; R160: `[78 01]` emits `CByte(0x78)`
theorem test_idat_early : (got (exec (.idat 2) (front .type 3 2 0x49444154 []))).fe.derr.code = 8 := by decide
theorem test_idat_forwards :
    (got (exec (.idat 5) { plane .wait 0 0 .none [] with sIn := [.byte 0x78] })).cOut = [.byte 0x78] := by decide
-- R139: bytes AE 42 60 82 emit `KTrl(0xAE426082)`; R162: `SIG`, `IEND` ends with `DERR = 8`
theorem test_iend_trailing :
    (got (exec (.iend 0) { front .trail 3 0 0x49454E44 [.byte 0x82] with
      fe := { (front .trail 3 0 0x49454E44 []).fe with trl := 0x00AE4260#32 } })).kOut = [.trl 0xAE426082#32] := by decide
theorem test_iend_no_descriptor :
    (got (exec (.iend 0) (front .trail 3 0 0x49454E44 [.byte 0x82]))).fe.derr.code = 8 := by decide
-- R154: with `COLORTYPE = 3`, 4 bytes set `DERR = 8` and 6 bytes do not
theorem test_plte_four : (got (exec (.plte 4) { front .type 3 4 0x504C5445 [] with
    fe := { (front .type 3 4 0x504C5445 []).fe with descValid := true, colorType := 3 } })).fe.derr.code = 8 := by decide
theorem test_plte_six : (got (exec (.plte 6) { front .type 3 6 0x504C5445 [] with
    fe := { (front .type 3 6 0x504C5445 []).fe with descValid := true, colorType := 3 } })).fe.derr.code = 0 := by decide
-- R155: `CHUNK "tEXt" [61 00 62]` changes no D state; R161: the byte goes to port K
theorem test_other_header : (got (exec (.other 3 0x74455874#32) (front .type 3 3 0x74455874 []))).fe.derr.code = 0 := by decide
theorem test_other_payload :
    (got (exec (.other 3 0x74455874#32) (front .data 0 3 0x74455874 [.byte 0x61]))).kOut = [.pay 0x61] := by decide
-- R157 by hand, R158 and R159 examples
theorem test_gray_interlaced : (got (exec .gray (atByte12 2 8 0 1))).fe.derr.code = 9 := by decide
theorem test_rgb_quantities : (got (exec .rgb (atByte12 2 8 2 0))).fe.bps = 6 ∧ (got (exec .rgb (atByte12 2 8 2 0))).fe.bpp = 3 := by
  decide
theorem test_indexed_sub_byte : (got (exec .indexed (atByte12 9 1 3 0))).fe.bps = 2 := by decide
-- R62: a forwarded IDAT byte goes to K and C in one cycle, so neither is valid where the other is not ready; R143, R296
theorem test_joint_step_is_valid_together :
    (pins false { front .data 0 5 0x49444154 [.byte 1] with cReady := false }).kValid = false ∧
    (pins false { front .data 0 5 0x49444154 [.byte 1] with kReady := false }).cValid = false ∧
    (pins false (front .data 0 5 0x49444154 [.byte 1])).kValid = true ∧
    (pins false (front .data 0 5 0x49444154 [.byte 1])).cValid = true ∧
    (pins false { front .data 0 5 0 [.byte 1] with cReady := false }).kValid = true := by decide
-- R231's example, and I9
theorem test_encode_iend :
    encodeContainer [{ length := 0, typeTag := iendTag, data := [], trailing := 0xAE426082 }]
      = some [0x89, 0x50, 0x4E, 0x47, 0x0D, 0x0A, 0x1A, 0x0A, 0, 0, 0, 0, 0x49, 0x45, 0x4E, 0x44, 0xAE, 0x42, 0x60, 0x82] ∧
    encodeContainer [{ length := 1, typeTag := iendTag, data := [], trailing := 0 }] = Option.none := by decide
theorem test_chunk_result_waits_for_done :
    chunkResult { front .len 0 0 0 [] with kOut := [.hdr 0 1, .trl 2] } = Option.none ∧
    chunkResult { front .halt 0 0 0 [] with pu := { base.pu with pst := .halt }, kOut := [.hdr 1 1, .trl 2, .hdr 0 3, .trl 4] }
      = some (.ok [{ length := 0, typeTag := 3, data := [], trailing := 4 }]) := by decide
theorem test_graya_sixteen : (got (exec .graya (atByte12 1 16 4 0))).fe.bpp = 4 := by decide
theorem test_rgba_overflow :
    (got (exec .rgba { atByte12 100 8 6 0 with lbBytes := 256 })).fe.derr.code = 10 ∧
    (got (exec .rgba { atByte12 100 8 6 0 with lbBytes := 256 })).fe.bps = 400 := by decide
-- R182: 0xC8; R183: 246 + 150 wraps to 140; R184: 5 over 10 is 15; R185: 5, 25, 10 give 22; R186: 5 with 10, 20, 15 gives 20
theorem test_none : (got (exec .none (plane .data 0 0 .none [.byte 0xC8]))).pOut = [{ b := 0xC8, eol := false }] := by decide
theorem test_sub_wraps :
    (got (exec .sub { plane .data 0 1 .sub [.byte 246] with
      pu := { (plane .data 0 1 .sub []).pu with cur := [(0, 150)] } })).pu.cur = [(0, 150), (1, 140)] := by decide
theorem test_up :
    (got (exec .up { plane .data 1 0 .up [.byte 5] with pOut := [] })).pOut = [{ b := 15, eol := false }] := by decide
theorem test_avg :
    (got (exec .avg { plane .data 1 1 .avg [.byte 5] with
      pOut := [], pu := { (plane .data 1 1 .avg []).pu with cur := [(0, 25)], prev := [(0, 3), (1, 10)] } })).pOut
      = [{ b := 22, eol := true }] := by decide
theorem test_paeth_row_end :
    (got (exec .paeth { plane .data 1 1 .paeth [.byte 5] with
      pu := { (plane .data 1 1 .paeth []).pu with cur := [(0, 10)], prev := [(0, 15), (1, 20)] } })).pu.prev
      = [(0, 10), (1, 20)] := by decide
-- R232 to R236
theorem test_fwd_none : (got (exec .fwdNone (forward [0xC8] Option.none 1))).enc.out = [0, 0xC8] := by decide
theorem test_fwd_sub :
    (got (exec .fwdSub (forward [100, 150, 200, 110, 140, 4] Option.none 3))).enc.out = [1, 100, 150, 200, 10, 246, 60] := by decide
theorem test_fwd_up : (got (exec .fwdUp (forward [15, 25] (some [10, 20]) 1))).enc.out = [2, 5, 5] := by decide
theorem test_fwd_avg : (got (exec .fwdAvg (forward [25, 22] (some [3, 10]) 1))).enc.out.getLast? = some 5 := by decide
theorem test_fwd_paeth : (got (exec .fwdPaeth (forward [10, 20] (some [15, 20]) 1))).enc.out.getLast? = some 5 := by decide

/-! ### States that meet the invariant -/

/-- The invariant of a `plane` state: what depends on where PU stands is left to the caller. -/
theorem plane_inv (q : PState) (row col : Nat) (f : FilterType) (zIn : List ZToken)
    (h2 : RowInImage (plane q row col f zIn)) (h6 : PlaneStarted (plane q row col f zIn)) (hq : q ≠ .drain)
    (h15 : PixelsCounted (plane q row col f zIn)) : Inv (plane q row col f zIn) where
  counterInField := show (1#32).toNat < (5#32).toNat by decide
  rowInImage := h2
  descriptorSound := fun _ => show _ ∧ _ ∧ _ ∧ _ ∧ _ from
    ⟨rfl, show (2#39).toNat ≤ 8 by decide, rfl, show (1#8).toNat = bytesPerPixel 1 8 by decide,
      show (2#39).toNat = bytesPerScanline 2 1 8 by decide⟩
  ihdrInProgress := fun _ h => absurd h (show ¬ classOf idatTag = .ihdr by decide)
  idatInProgress := fun _ _ _ => rfl
  planeStarted := h6
  codesOfLayer := ⟨List.mem_cons_self, List.mem_cons_self, List.mem_cons_self⟩
  frontErrorHalts := fun h => absurd rfl h
  haltHasReason := fun h => absurd h (show ¬ FState.data = .halt by decide)
  planeErrorStops := fun h => absurd rfl h
  drainHasReason := fun h => absurd h hq
  buffersCanonical := ⟨show LineBuffer.wf [(0, 10), (1, 20)] = true by decide, rfl,
    show Safety.LineBuffer.within 8 [(0, 10), (1, 20)] by decide, fun _ h => nomatch h⟩
  endEmittedOnce := show CToken.cEnd ∉ [] by decide
  forwardedNeedsDescriptor := fun _ => rfl
  pixelsCounted := h15

theorem midRow_inv : Inv (plane .data 1 1 .up [.byte 5, .zEnd]) :=
  plane_inv _ _ _ _ _ (show (1#32).toNat < (2#32).toNat ∧ (1#39).toNat < (2#39).toNat by decide) rfl (by decide) rfl

theorem rowStart_inv : Inv (plane .data 1 0 .up [.byte 5, .byte 6, .zEnd]) :=
  plane_inv _ _ _ _ _ (show (1#32).toNat < (2#32).toNat ∧ (0#39).toNat < (2#39).toNat by decide) rfl (by decide) rfl

theorem firstRow_inv : Inv (plane .data 0 0 .paeth [.byte 5, .byte 6]) :=
  plane_inv _ _ _ _ _ (show (0#32).toNat < (2#32).toNat ∧ (0#39).toNat < (2#39).toNat by decide) rfl (by decide) rfl

theorem waiting_inv (zIn : List ZToken) : Inv (plane .wait 0 0 .none zIn) :=
  plane_inv _ _ _ _ _ trivial trivial (by decide) rfl

/-- FE halted on a truncated input after a layer-D error, PU at `q` with `UnknownFilterType` on record. -/
def stopped (q : PState) (zIn : List ZToken) : State :=
  { plane q 1 1 .up zIn with
    fe := { (plane q 1 1 .up zIn).fe with fst := .halt, ferr := .truncated, derr := .invalidChunkForContext }
    pu := { (plane q 1 1 .up zIn).pu with perr := .unknownFilterType }
    cOut := [.byte 3, .cEnd] }

theorem stopped_inv (q : PState) (zIn : List ZToken) (hq : q = .drain ∨ q = .halt) : Inv (stopped q zIn) where
  counterInField := trivial
  rowInImage := by rcases hq with rfl | rfl <;> trivial
  descriptorSound := fun _ => show _ ∧ _ ∧ _ ∧ _ ∧ _ from
    ⟨rfl, show (2#39).toNat ≤ 8 by decide, rfl, show (1#8).toNat = bytesPerPixel 1 8 by decide,
      show (2#39).toNat = bytesPerScanline 2 1 8 by decide⟩
  ihdrInProgress := fun h => nomatch h
  idatInProgress := fun h => nomatch h
  planeStarted := by rcases hq with rfl | rfl <;> exact .inl rfl
  codesOfLayer := ⟨show ErrCode.truncated ∈ _ by decide,
    show ErrCode.invalidChunkForContext ∈ _ by decide, show ErrCode.unknownFilterType ∈ _ by decide⟩
  frontErrorHalts := fun _ => rfl
  haltHasReason := fun _ h => nomatch h
  planeErrorStops := fun _ => hq
  drainHasReason := fun _ h => nomatch h
  buffersCanonical := ⟨show LineBuffer.wf [(0, 10), (1, 20)] = true by decide, rfl,
    show Safety.LineBuffer.within 8 [(0, 10), (1, 20)] by decide, fun _ h => nomatch h⟩
  endEmittedOnce := show [CToken.byte 3, .cEnd].getLast? = some .cEnd ∧ CToken.cEnd ∉ [CToken.byte 3, .cEnd].dropLast by decide
  forwardedNeedsDescriptor := fun _ => rfl
  pixelsCounted := by
    rcases hq with rfl | rfl
    · trivial
    · exact fun _ h => nomatch h

/-! ### Witnesses: every statement's hypotheses are met by a concrete input -/

theorem witness_DecodeOfEncode : (Instr.other 0xFFFFFFFF#32 0x49484453#32).wf = true ∧ (Instr.ihdr 0#32).wf = true := by decide

theorem witness_EncodeOfDecode :
    decode .chunkHeader [0, 0, 0, 0, 0x49, 0x44, 0x41, 0x54, 9] = .ok (.idat 0) [9] ∧ decode .signature (signature ++ [1]) = .ok .sig [1] ∧
    decode .filterByteEncode [4] = .ok .fwdPaeth [] := by decide

theorem witness_EightHeaderBytes :
    (front .len 0 7 9 []).fe.fst = .len ∧ (front .len 0 7 9 []).fe.cnt = 0 ∧ (front .len 0 7 9 []).kReady = true ∧
    decode .chunkHeader [0xFF, 0xFF, 0xFF, 0xFF, 0x50, 0x4C, 0x54, 0x45] = .ok (.plte 0xFFFFFFFF) [] := by decide

theorem witness_StepRuns_front :
    feEnabled (front .sig 0 0 0 [.byte 0x89]) = true ∧ feEnabled (front .type 3 4 0x494441 [.byte 0x54]) = true ∧
    decode .chunkHeader (be32Bytes (front .type 3 4 0x494441 []).fe.len ++ be32Bytes (BitVec.ofNat 32 (0x494441 * 256 + 0x54)))
      = .ok (.idat 4) [] ∧
    feEnabled (front .data 3 4 0x49444154 [.byte 0]) = true ∧ feEnabled (front .trail 0 4 0x49444154 [.eos]) = true ∧
    decode .chunkHeader (be32Bytes (front .trail 0 4 0x49444154 []).fe.len ++ be32Bytes (front .trail 0 4 0x49444154 []).fe.type)
      = .ok (.idat 4) [] ∧
    (front .sig 0 0 0 [.byte 0x89]).sched = [] := by decide

theorem witness_StepRuns_plane :
    feEnabled { plane .filt 1 0 .up [.byte 4] with sIn := [] } = false ∧ puEnabled (plane .filt 1 0 .up [.byte 4]) = true ∧
    decode .filterByte [4] = .ok .paeth [] ∧ puEnabled (plane .data 1 0 .up [.byte 4]) = true ∧
    decode .filterByte [(plane .data 1 0 .up [.byte 4]).pu.ft.byte] = .ok .up [] ∧
    (forward [1] Option.none 1).enc.err = .ok ∧ (forward [1] Option.none 1).enc.rows ≠ [] ∧
    decode .filterByteEncode [0] = .ok .fwdNone [] := by decide

theorem witness_SignatureIsChecked :
    (front .sig 7 0 0 [.byte 0x0A]).fe.cnt.toNat ≤ 7 ∧ signature.getD 7 0 = 0x0A ∧ signature.getD 0 0 = 0x89 ∧
    (front .sig 0 0 0 [.eos]).sIn = [.eos] ∧ (front .sig 0 0 0 [.eos]).fe.fst = .sig := by decide

theorem witness_LengthAndType :
    (front .len 3 0 0 [.byte 1]).fe.cnt.toNat ≤ 3 ∧ (front .len 0 0 0 [.eos]).cReady = true ∧ (front .len 0 0 0 [.eos]).fe.cnt = 0 ∧
    (front .type 2 0 0 [.byte 1]).fe.cnt.toNat ≠ 3 ∧ (front .type 3 0 0 [.eos]).fe.fst = .type := by decide

theorem witness_Headers : (front .type 3 0 0 []).fe.fst = .type ∧ (front .type 3 0 0 []).fe.cnt = 3 := by decide

theorem witness_IhdrPayload_fields :
    (front .data 0 13 0x49484452 [.byte 1]).fe.len = 13 ∧ (front .data 0 13 0x49484452 []).fe.derr = .ok ∧
    (front .data 0 13 0x49484452 []).fe.type = 0x49484452#32 ∧ (front .data 11 13 0x49484452 []).fe.cnt.toNat ≤ 11 := by decide

theorem witness_IhdrPayload_commit :
    (atByte12 2 8 6 0).fe.cnt.toNat = 12 ∧ (atByte12 2 8 6 0).fe.type = 0x49484452#32 ∧ (atByte12 2 8 6 0).sIn = [.byte 0] ∧
    decode .colourType [(atByte12 2 8 6 0).fe.colorType] = .ok .rgba [] ∧
    decode .colourType [(atByte12 2 8 5 0).fe.colorType] = .reject .unsupportedColorType := by decide

theorem witness_ColourTypeCommits :
    (atByte12 2 8 0 0).fe.fst = .data ∧ (atByte12 2 8 0 0).fe.derr = .ok ∧ (atByte12 2 8 0 0).fe.len = 13 ∧
    (atByte12 2 8 0 0).fe.interlace = 0 ∧ (atByte12 9 8 0 0).lbBytes < (9 * 1 * 8 + 7) / 8 ∧
    (atByte12 2 8 1 0).fe.colorType.toNat ∉ [0, 2, 3, 4, 6] := by decide

theorem witness_Payloads :
    (front .data 4 5 0x49444154 [.byte 1]).fe.cnt.toNat < (front .data 4 5 0x49444154 [.byte 1]).fe.len.toNat ∧
    classOf (front .data 0 1 0x504C5445 []).fe.type = .plte ∧ classOf (front .data 0 1 0x49454E44 []).fe.type = .iend ∧
    classOf (front .data 0 1 0 []).fe.type = .other ∧
    (stopped .drain []).fe.derr ≠ .ok ∧ classOf (front .data 0 1 0x49484452 []).fe.type = .ihdr := by decide

theorem witness_Trailing :
    (front .trail 3 0 0x49454E44 [.byte 1]).fe.cnt.toNat ≤ 3 ∧ classOf (front .trail 3 0 0x49454E44 []).fe.type = .iend ∧
    classOf (front .trail 0 0 0x49444154 []).fe.type = .idat ∧ (front .trail 0 0 0x49444154 [.eos]).fe.fst = .trail ∧
    (front .data 0 1 0x49444154 [.eos]).fe.fst = .data := by decide

theorem witness_Halting :
    Inv { plane .wait 0 0 .none [] with sIn := [.eos] } ∧
    feStep { plane .wait 0 0 .none [] with sIn := [.eos] }
      = .next (truncateChunk { plane .wait 0 0 .none [] with sIn := [] }) ∧
    (truncateChunk { plane .wait 0 0 .none [] with sIn := [] }).fe.fst = .halt :=
  ⟨inv_of_same_block (waiting_inv []) rfl rfl rfl rfl rfl, rfl, rfl⟩

theorem witness_FilterSelection :
    (plane .filt 1 0 .none [.byte 5]).pu.pst = .filt ∧ (plane .filt 1 0 .none []).fe.bps.toNat ≠ 0 ∧
    { (plane .filt 1 0 .none []).fe with bps := 0 }.bps.toNat = 0 ∧ 4 < (5#8).toNat ∧ 4 < (255#8).toNat := by decide

theorem witness_RowByte :
    BuffersCanonical (plane .data 1 1 .avg [.byte 5]) ∧
    (plane .data 1 1 .avg [.byte 5]).pu.col.toNat + 1 = (plane .data 1 1 .avg [.byte 5]).fe.bps.toNat ∧
    (plane .data 0 0 .avg [.byte 5]).pu.col.toNat < (plane .data 0 0 .avg [.byte 5]).fe.bps.toNat ∧
    (plane .data 0 0 .avg [.byte 5]).fe.bps.toNat ≤ (plane .data 0 0 .avg [.byte 5]).lbBytes := by decide

theorem witness_PlaneTokens :
    (plane .filt 1 0 .up [.zEnd]).zIn = [.zEnd] ∧ (plane .data 1 1 .up [.zErr]).pu.pst = .data ∧
    (plane .tail 2 0 .up [.zEnd]).pu.pst = .tail ∧ (stopped .drain [.byte 1]).pu.pst = .drain ∧
    (plane .wait 0 0 .none []).pu.pst = .wait ∧ (plane .wait 0 0 .none []).fe.descValid = true ∧
    (front .halt 0 0 0 []).fe.fst = .halt ∧ (front .halt 0 0 0 []).pu.pst = .wait := by decide

theorem witness_ForwardRow :
    (forward [1, 2] Option.none 1).enc.rows = [[1, 2]] ∧ base.enc.rows = [] ∧ 4 < (5#8).toNat := by decide

theorem witness_Status : (1#6).toNat / 4 = (3#6).toNat / 4 ∧ (0x3C#6).toNat / 4 = (0x3F#6).toNat / 4 := by decide

theorem witness_ResultPriority :
    (stopped .halt []).fe.ferr ≠ .ok ∧ (front .halt 0 0 0 []).fe.ferr = .ok ∧
    { (stopped .halt []).fe with ferr := .ok }.derr ≠ .ok ∧ base.fe.derr = .ok := by decide

theorem witness_ResetStarts : { stopped .drain [] with sched := [.rst [] true, .fe] }.sched = .rst [] true :: [.fe] := by decide

theorem witness_Frames :
    runs (exec .sig (front .sig 0 0 0 [.byte 0])) = true ∧
    (∀ i ∈ [Instr.ihdr 13, .idat 5, .iend 0, .plte 3, .other 1 2],
      runs (exec i (front .type 3 0 0 [])) = true ∧ runs (exec i (front .data 0 13 0x49444154 [.byte 1])) = true ∧
      runs (exec i (front .trail 0 0 0x49454E44 [.eos])) = true) ∧
    (∀ i ∈ [Instr.gray, .rgb, .indexed, .graya, .rgba], runs (exec i (atByte12 1 8 0 0)) = true) ∧
    (∀ i ∈ [Instr.none, .sub, .up, .avg, .paeth],
      runs (exec i (plane .filt 1 0 .none [])) = true ∧ runs (exec i (plane .data 1 1 .up [.byte 5])) = true ∧
      runs (exec i (plane .data 1 1 .up [.zEnd])) = true) ∧
    (∀ i ∈ [Instr.fwdNone, .fwdSub, .fwdUp, .fwdAvg, .fwdPaeth], runs (exec i (forward [1] Option.none 1)) = true) ∧
    BuffersCanonical (plane .filt 1 0 .none []) := by decide

theorem witness_StepKeeps :
    Inv (plane .data 1 1 .up [.byte 5, .zEnd]) ∧ runs (step (plane .data 1 1 .up [.byte 5, .zEnd])) = true ∧
    DeliveryKept (plane .data 1 1 .up [.byte 5, .zEnd]) ∧
    SourceKept { base with sIn := [.byte 1, .eos], srcEnded := true } ∧
    runs (step { base with sIn := [.byte 1, .eos], srcEnded := true }) = true ∧
    DeliveryOrdered { plane .data 1 1 .up [.byte 5, .zEnd] with infl := { sent := [5], ended := true } } :=
  ⟨midRow_inv, by decide, fun h => (nomatch h), by decide, by decide, by decide⟩

theorem witness_Refusal :
    step { base with srcEnded := true, sched := [.src (.byte 1)] } = .refused .environmentContract := rfl

theorem witness_HaltsAndCodes :
    Inv (stopped .drain [.zErr]) ∧ NoReset (stopped .drain [.zErr]) ∧ runs (step (stopped .drain [.zErr])) = true ∧
    Inv (stopped .halt []) ∧ (stopped .drain []).fe.ferr ≠ .ok ∧ (stopped .drain []).fe.derr ≠ .ok ∧
    (stopped .drain []).pu.perr ≠ .ok ∧ (stopped .drain []).fe.fst = .halt ∧ (stopped .halt []).pu.pst = .halt :=
  ⟨stopped_inv _ _ (.inl rfl), fun _ _ h => (nomatch h), by decide, stopped_inv _ _ (.inr rfl), by decide, by decide, by decide, rfl, rfl⟩

theorem witness_CommittedDescriptor :
    Inv (plane .data 1 1 .up [.byte 5, .zEnd]) ∧ NoReset (plane .data 1 1 .up [.byte 5, .zEnd]) ∧
    (plane .data 1 1 .up [.byte 5, .zEnd]).fe.descValid = true ∧
    (got (step { plane .data 1 1 .up [.byte 5, .zEnd] with sched := [.pu] })).pu.pst = .tail :=
  ⟨midRow_inv, fun _ _ h => (nomatch h), rfl, by decide⟩

theorem witness_OneToken :
    feEnabled (plane .data 1 1 .up [.byte 5]) = true ∧ feEnabled { plane .data 1 1 .up [] with kReady := false } = false ∧
    puEnabled (plane .data 1 1 .up [.byte 5]) = true ∧ puEnabled { plane .data 1 1 .up [.byte 5] with pReady := false } = false ∧
    runs (feStep (plane .data 1 1 .up [.byte 5])) = true ∧ runs (puStep (plane .data 1 1 .up [.byte 5])) = true ∧
    runs (puStep (plane .filt 1 0 .up [.byte 5])) = true ∧ base.sIn = [] ∧ (plane .data 1 1 .up []).zIn = [] := by decide

theorem witness_AgentsShare :
    let s := plane .data 1 1 .up [.byte 5]
    let u := { s with fe := { s.fe with width := 77, cnt := 3 }, sIn := [] }
    u.pu = s.pu ∧ u.fe.bps = s.fe.bps ∧ u.fe.fst = s.fe.fst ∧ u.fe.width ≠ s.fe.width ∧ runs (puStep s) = true := by decide

theorem witness_Commute :
    Inv (plane .data 1 1 .up [.byte 5, .zEnd]) ∧ feEnabled (plane .data 1 1 .up [.byte 5, .zEnd]) = true ∧
    puEnabled (plane .data 1 1 .up [.byte 5, .zEnd]) = true :=
  ⟨midRow_inv, by decide, by decide⟩

theorem witness_Done :
    done { stopped .halt [] with sched := [.fe] } = true ∧ NoReset { stopped .halt [] with sched := [.fe] } ∧
    runs (step { stopped .halt [] with sched := [.fe] }) = true ∧
    DeliveryOrdered { stopped .halt [] with sched := [.fe], infl := { sent := [], ended := true } } :=
  ⟨by decide, fun _ _ h => by cases h; rfl, by decide, by decide⟩

theorem witness_RowOfSteps :
    Inv (plane .data 1 0 .up [.byte 5, .byte 6, .zEnd]) ∧ (plane .data 1 0 .up []).pu.col = 0 ∧ (plane .data 1 0 .up []).pReady = true ∧
    [5#8, 6#8].length = (plane .data 1 0 .up []).fe.bps.toNat ∧
    (plane .data 1 0 .up [.byte 5, .byte 6, .zEnd]).zIn = [5#8, 6#8].map .byte ++ [.zEnd] ∧
    Inv (plane .data 0 0 .paeth [.byte 5, .byte 6]) :=
  ⟨rowStart_inv, rfl, rfl, rfl, rfl, firstRow_inv⟩

theorem witness_LayerD :
    runs (runFront 9 (callStart 8 signature [])) = true ∧ decodeContainer signature = .ok [] := by decide

theorem witness_PlaneRun :
    Inv (plane .wait 0 0 .none [.byte 2, .byte 5, .zEnd]) ∧ (plane .wait 0 0 .none []).fe.descValid = true ∧
    (plane .wait 0 0 .none []).pReady = true ∧
    (plane .wait 0 0 .none [.byte 2, .byte 5, .zEnd]).zIn = [2#8, 5#8].map .byte ++ [.zEnd] ∧
    Inv (plane .wait 0 0 .none [.byte 2, .zErr]) ∧ (plane .wait 0 0 .none [.byte 2, .zErr]).zIn = [2#8].map .byte ++ [.zErr] :=
  ⟨waiting_inv _, rfl, rfl, rfl, waiting_inv _, rfl⟩

theorem witness_ContainerRoundTrip :
    let cs := [chunkOf plteTag [1, 2, 3] 7, chunkOf iendTag [] 8]
    (∀ c ∈ cs, c.consistent = true) ∧ (∀ c ∈ cs.dropLast, c.typeTag ≠ iendTag) ∧
    { chunkOf plteTag [1, 2, 3] 7 with length := 4 }.consistent = false := by decide

theorem witness_FilterRoundTrip : (4#8).toNat ≤ 4 ∧ 1 ≤ 1 := by decide

/-- A gray 8-bit descriptor of 2 by 1. -/
def gray21 : Descriptor where
  width := 2
  height := 1
  bitDepth := 8
  colorType := 0
  compression := 0
  filterMeth := 0
  interlace := 0

theorem witness_PlaneRoundTrip :
    (∀ x : List Byte, (fun y => some y) (id x) = some x) ∧ gray21.colorType.toNat ∈ [0, 2, 3, 4, 6] ∧
    (gray21.bitDepth = 8 ∨ gray21.bitDepth = 16) ∧ PixelMatrix.fits gray21 (.flat [[10, 255]]) := by
  refine ⟨fun x => rfl, by decide, by decide, by decide, by decide, ?_⟩
  decide

/-- Draining to the end token reaches `DONE`. -/
theorem drain_reaches_done (bs : List Byte) (e : ZToken) (he : e = .zEnd ∨ e = .zErr) (s : State) (hz : s.zIn = bs.map .byte ++ [e])
    (hs : s.sched = []) (hf : s.fe.fst = .halt) (hp : s.pu.pst = .drain) (hi : s.sIn = []) :
    ∃ t, Host.Core.run Sys2Proof.core (bs.length + 1) s = .next t ∧ done t = true := by
  induction bs generalizing s with
  | nil =>
    have hz' : s.zIn = [e] := hz
    rcases he with rfl | rfl <;>
      simp [Host.Core.run, Sys2Proof.core, step, takeTurn, hs, defaultTurn, feEnabled, hi, puEnabled, hp, hz', puAccepts,
        pOffers, puStep, puTake, drainStep, done, setPst, popZ, raise, hf]
  | cons b rest ih =>
    have hz' : s.zIn = .byte b :: (rest.map .byte ++ [e]) := hz
    obtain ⟨t, ht, hd⟩ := ih { s with zIn := rest.map .byte ++ [e] } rfl hs hf hp hi
    refine ⟨t, ?_, hd⟩
    have : Sys2Proof.core.step s = .next { s with zIn := rest.map .byte ++ [e] } := by
      simp [Sys2Proof.core, step, takeTurn, hs, defaultTurn, feEnabled, hi, puEnabled, hp, hz', puAccepts, pOffers, puStep, puTake,
        drainStep, popZ]
    show Host.Core.run Sys2Proof.core (rest.length + 1 + 1) s = _
    simp only [Host.Core.run, this]
    exact ht

/-- A call on the empty input reaches `DONE`, whatever `inflate` answers. -/
theorem witness_WholeCall :
    ∃ n t, Host.Core.run Sys2Proof.core n (callStart 8 [] []) = .next t ∧ done t = true := by
  let s1 : State := got (step (callStart 8 [] []))
  let s2 : State := got (step s1)
  have h1 : Sys2Proof.core.step (callStart 8 [] []) = .next s1 := rfl
  have h2 : Sys2Proof.core.step s1 = .next s2 := rfl
  have h3 : ∃ bs e, (e = .zEnd ∨ e = .zErr) ∧ Sys2Proof.core.step s2 = .next (deliverAll bs e s2) := by
    have : Sys2Proof.core.step s2 = inflStep s2 := rfl
    rw [this]
    unfold inflStep
    have he : inflEnabled s2 = true := rfl
    rw [if_pos he]
    cases Config.inflate (cBytes s2) with
    | none => exact ⟨_, .zErr, .inr rfl, rfl⟩
    | some zs =>
      have hpre : s2.infl.sent.isPrefixOf zs = true := rfl
      exact ⟨zs.drop s2.infl.sent.length, .zEnd, .inl rfl, if_pos hpre⟩
  obtain ⟨bs, e, he, h3⟩ := h3
  obtain ⟨t, ht, hd⟩ := drain_reaches_done bs e he (deliverAll bs e s2) rfl rfl rfl rfl rfl
  refine ⟨bs.length + 1 + 3, t, ?_, hd⟩
  simp only [Host.Core.run, h1, h2, h3]
  exact ht

end Sys2Proof.Tests
end

section
/-! PROOFS. The family `10_state.md`: the derived values of R38, the words of the status port (R42 to R50), the registers after reset
(R52). -/

namespace Sys2Proof.Machine

/-! ### Derived values (R38) -/

/-- Code 0 is kept for "no error" (R115). -/
@[simp] theorem ErrCode.code_eq_zero_iff (e : ErrCode) : e.code = 0#4 ↔ e = .ok := by
  cases e <;> decide

@[simp] theorem done_eq_true_iff (s : State) : done s = true ↔ s.fe.fst = .halt ∧ s.pu.pst = .halt := by
  simp [done]

theorem result_of_ferr {s : State} (hf : s.fe.ferr ≠ .ok) : result s = s.fe.ferr := if_pos hf

theorem result_of_derr {s : State} (hf : s.fe.ferr = .ok) (hd : s.fe.derr ≠ .ok) : result s = s.fe.derr := by
  simp [result, hf, hd]

theorem result_of_perr {s : State} (hf : s.fe.ferr = .ok) (hd : s.fe.derr = .ok) : result s = s.pu.perr := by
  simp [result, hf, hd]

@[simp] theorem fail_eq_true_iff (s : State) : fail s = true ↔ done s = true ∧ result s ≠ .ok := by
  simp only [fail, Bool.and_eq_true, decide_eq_true_eq]

/-! ### Bit fields of the composed words (R43, R45, R46)

A composed word is a chain of appends. A field of it is found by dropping the fields below it (`extractLsb'_append_eq_of_le`); it is
then the lowest one of what is left (`extractLsb'_append_eq_right`), or all that is left. -/

section
open BitVec

theorem statusWord_fields (s : State) :
    (statusWord s).extractLsb' 0 3 = s.fe.fst.code ∧ (statusWord s).extractLsb' 3 3 = s.pu.pst.code ∧
    (statusWord s).extractLsb' 6 1 = ofBool s.fe.descValid ∧ (statusWord s).extractLsb' 7 1 = ofBool (done s) ∧
    (statusWord s).extractLsb' 8 4 = s.fe.ferr.code ∧ (statusWord s).extractLsb' 12 4 = s.fe.derr.code ∧
    (statusWord s).extractLsb' 16 4 = s.pu.perr.code ∧ (statusWord s).extractLsb' 20 4 = (result s).code ∧
    (statusWord s).extractLsb' 24 3 = ftCode s.pu.ft ∧ (statusWord s).extractLsb' 27 1 = ofBool (fail s) ∧
    (statusWord s).extractLsb' 28 4 = 0 := by
  unfold statusWord
  refine ⟨?_, ?_, ?_, ?_, ?_, ?_, ?_, ?_, ?_, ?_, ?top⟩ <;> repeat rw [extractLsb'_append_eq_of_le (by decide)]
  case top => exact extractLsb'_eq_self
  all_goals exact extractLsb'_append_eq_right

theorem formatWord_fields (s : State) :
    (formatWord s).extractLsb' 0 8 = s.fe.bitDepth ∧ (formatWord s).extractLsb' 8 8 = s.fe.colorType ∧
    (formatWord s).extractLsb' 16 8 = s.fe.compression ∧ (formatWord s).extractLsb' 24 8 = s.fe.filterMeth := by
  unfold formatWord
  refine ⟨?_, ?_, ?_, ?top⟩ <;> repeat rw [extractLsb'_append_eq_of_le (by decide)]
  case top => exact extractLsb'_eq_self
  all_goals exact extractLsb'_append_eq_right

theorem format2Word_fields (s : State) :
    (format2Word s).extractLsb' 0 8 = s.fe.interlace ∧ (format2Word s).extractLsb' 8 3 = s.fe.ch ∧
    (format2Word s).extractLsb' 11 5 = 0 ∧ (format2Word s).extractLsb' 16 8 = s.fe.bpp ∧
    (format2Word s).extractLsb' 24 8 = 0 := by
  unfold format2Word
  refine ⟨?_, ?_, ?_, ?_, ?top⟩ <;> repeat rw [extractLsb'_append_eq_of_le (by decide)]
  case top => exact extractLsb'_eq_self
  all_goals exact extractLsb'_append_eq_right

end

/-! ### The status port (R42, R47, R49) -/

/-- The high word of a 39-bit register loses nothing: 7 bits are left above bit 31. -/
theorem toNat_highWord (x : Word39) : ((x >>> 32).setWidth 32).toNat = x.toNat / 2 ^ 32 := by
  have hx : x.toNat < 2 ^ 39 := x.isLt
  have hfit : x.toNat / 2 ^ 32 < 2 ^ 32 := by omega
  rw [BitVec.toNat_setWidth, BitVec.toNat_ushiftRight, Nat.shiftRight_eq_div_pow, Nat.mod_eq_of_lt hfit]

/-- Only the word number `a / 4` selects, so address bits 1:0 do not matter (R42). -/
theorem statusRead_eq_of_word_eq (s : State) {a b : BitVec 6} (h : a.toNat / 4 = b.toNat / 4) :
    statusRead s a = statusRead s b := by
  unfold statusRead
  rw [h]

theorem statusRead_reset (a : BitVec 6) : statusRead State.reset a = 0 := by
  unfold statusRead
  split <;> rfl

end Sys2Proof.Machine

namespace Sys2Proof.Proofs.StateFamily
open Sys2Proof.Machine

/-- Settles O32: the lemmas on `DONE`, `RESULT` and `FAIL`; the code of `RESULT` is 0 only for `ok`. -/
theorem resultFollowsLayerPriority : Obligations.ResultFollowsLayerPriority := fun s =>
  ⟨done_eq_true_iff s, result_of_ferr, result_of_derr, result_of_perr,
    (fail_eq_true_iff s).trans (and_congr_right' (ErrCode.code_eq_zero_iff _).not.symm)⟩

/-- Settles O33: by evaluation of the reset state, one register at a time; no part of it reads the opaque `LB_BYTES`. -/
theorem resetGivesTheRegisterValues : Obligations.ResetGivesTheRegisterValues := by
  unfold Obligations.ResetGivesTheRegisterValues
  decide

/-- Settles O30: each word of the map is the composed word or the register it names, read by the field lemmas; the two 39-bit
registers split at bit 32. -/
theorem statusWordsShowTheRegisters : Obligations.StatusWordsShowTheRegisters := by
  refine ⟨fun s => ?_, fun s _ _ => statusRead_eq_of_word_eq s, statusRead_reset⟩
  obtain ⟨fst, pst, descValid, done, ferr, derr, perr, result, ft, fail, unnamed⟩ := statusWord_fields s
  obtain ⟨bitDepth, colorType, compression, filterMeth⟩ := formatWord_fields s
  obtain ⟨interlace, ch, unnamedLow, bpp, unnamedHigh⟩ := format2Word_fields s
  exact ⟨fst, pst, descValid, done, ferr, derr, perr, result, ft, fail, unnamed,
    rfl, rfl,
    bitDepth, colorType, compression, filterMeth,
    interlace, ch, unnamedLow, bpp, unnamedHigh,
    BitVec.toNat_setWidth .., toNat_highWord s.fe.bps,
    rfl, BitVec.toNat_setWidth .., toNat_highWord s.pu.col,
    rfl, rfl, rfl, rfl, rfl, rfl⟩

end Sys2Proof.Proofs.StateFamily
end

section
/-! PROOFS. The family `20_memory.md`: FE and PU share only registers FE writes and PU reads (R79). What each agent leaves alone is a
tuple of fields that every operation of the agent keeps. What PU depends on is a projection of the state that PU's step commutes with. -/

namespace Sys2Proof.Machine

/-! ### FE leaves the plane unit alone -/

/-- PU with its two streams. -/
def planePart (s : State) : PlaneUnit × List ZToken × List PToken := (s.pu, s.zIn, s.pOut)

@[simp] theorem planePart_enterField (q : FState) (s : State) : planePart (enterField q s) = planePart s := rfl

@[simp] theorem planePart_haltFE (s : State) : planePart (haltFE s) = planePart s := by
  rw [haltFE_eq]; rfl

@[simp] theorem planePart_afterPayload (s : State) : planePart (afterPayload s) = planePart s := by
  rw [afterPayload_eq]; rfl

@[simp] theorem planePart_headerAction (c : ChunkClass) (s : State) : planePart (headerAction c s) = planePart s := by
  cases c with
  | ihdr => simp only [headerAction, dHeaderIhdr]; split_ifs <;> rfl
  | idat => simp only [headerAction, dHeaderIdat]; split_ifs <;> rfl
  | plte => simp only [headerAction, dHeaderPlte]; split_ifs <;> rfl
  | iend => rfl
  | other => rfl

@[simp] theorem planePart_selectChunk (n t : Word32) (c : ChunkClass) (s : State) :
    planePart (selectChunk n t (headerAction c) s) = planePart s := by
  rw [selectChunk_eq, planePart_enterField]
  split_ifs
  · exact planePart_headerAction ..
  · rfl

@[simp] theorem planePart_storeIhdrByte (k : Nat) (b : Byte) (s : State) : planePart (storeIhdrByte k b s) = planePart s := by
  simp [planePart]

@[simp] theorem planePart_committed (s : State) : planePart (committed s) = planePart s := by
  unfold committed
  split
  · rename_i c _
    rcases commitChannels_cases (channels c) s with ⟨-, h⟩ | ⟨-, -, h⟩ | ⟨-, -, h⟩ <;> rw [h] <;> rfl
  · rfl

theorem FeMove.planePart_eq {s t : State} (h : FeMove s t) : planePart t = planePart s := by
  cases h with
  | hold => rfl
  | sigReject => exact planePart_haltFE _
  | sigDone => rfl
  | sigNext => rfl
  | lenEnd => exact planePart_haltFE _
  | truncate => exact planePart_haltFE _
  | lenDone => rfl
  | lenNext => rfl
  | typeNext => rfl
  | select => exact planePart_selectChunk ..
  | payOpaque => exact planePart_afterPayload _
  | payIdat => exact planePart_afterPayload _
  | payIhdr => rw [planePart_afterPayload, planePart_storeIhdrByte]; rfl
  | payCommit => rw [planePart_afterPayload, planePart_committed, planePart_storeIhdrByte]; rfl
  | trailNext => rfl
  | trailDone => rfl
  | trailEnd => exact planePart_haltFE _

theorem feStep_keeps_plane {s t : State} (h : feStep s = .next t) : t.pu = s.pu ∧ t.zIn = s.zIn ∧ t.pOut = s.pOut := by
  simpa only [planePart, Prod.mk.injEq] using (feStep_move h).planePart_eq

/-! ### PU leaves the front end alone -/

/-- FE with its three streams. -/
def frontPart (s : State) : FrontEnd × List SToken × List KToken × List CToken := (s.fe, s.sIn, s.kOut, s.cOut)

@[simp] theorem frontPart_startStep (s : State) : frontPart (startStep s) = frontPart s := by
  unfold startStep; split_ifs <;> rfl

@[simp] theorem frontPart_selectFilter (ft : FilterType) (s : State) : frontPart (selectFilter ft s) = frontPart s := by
  simp only [selectFilter]; split_ifs <;> rfl

@[simp] theorem frontPart_reconstruct (f : Byte → Neighbours → Byte) (x : Byte) (s : State) :
    frontPart (reconstruct f x s) = frontPart s := by
  simp only [reconstruct]; split_ifs <;> rfl

theorem PuMove.frontPart_eq {s t : State} (h : PuMove s t) : frontPart t = frontPart s := by
  cases h with
  | hold => rfl
  | start => exact frontPart_startStep s
  | reject => rfl
  | select => exact frontPart_selectFilter ..
  | cutShort => rfl
  | rowByte => exact frontPart_reconstruct ..
  | discard => rfl
  | finish => rfl
  | badDepth => rfl
  | failed => rfl

theorem puStep_keeps_front {s t : State} (h : puStep s = .next t) :
    t.fe = s.fe ∧ t.sIn = s.sIn ∧ t.kOut = s.kOut ∧ t.cOut = s.cOut := by
  simpa only [frontPart, Prod.mk.injEq] using (puStep_move h).frontPart_eq

/-! ### What the plane unit sees -/

/-- What PU reads or writes of a state: its own registers and streams, `p_ready`, the capacity and the six registers of FE that R79
shares. Everything else is as after reset. -/
def planeView (s : State) : State :=
  { State.reset with
    pu := s.pu
    zIn := s.zIn
    pOut := s.pOut
    pReady := s.pReady
    lbBytes := s.lbBytes
    fe := { FrontEnd.reset with
      fst := s.fe.fst
      descValid := s.fe.descValid
      height := s.fe.height
      bitDepth := s.fe.bitDepth
      bpp := s.fe.bpp
      bps := s.fe.bps } }

/-- What PU sees of an outcome. -/
def planeOutcome (o : Outcome) : Outcome := andThen o (fun s => .next (planeView s))

@[simp] theorem planeView_pu (s : State) : (planeView s).pu = s.pu := rfl
@[simp] theorem planeView_zIn (s : State) : (planeView s).zIn = s.zIn := rfl
@[simp] theorem planeView_bitDepth (s : State) : (planeView s).fe.bitDepth = s.fe.bitDepth := rfl
@[simp] theorem planeView_lbBytes (s : State) : (planeView s).lbBytes = s.lbBytes := rfl

theorem startStep_planeView (s : State) : startStep (planeView s) = planeView (startStep s) := by
  simp only [startStep, apply_ite planeView]; rfl

theorem selectFilter_planeView (ft : FilterType) (s : State) :
    selectFilter ft (planeView s) = planeView (selectFilter ft s) := by
  simp only [selectFilter, apply_ite planeView]; rfl

theorem reconstruct_planeView (f : Byte → Neighbours → Byte) (x : Byte) (s : State) :
    reconstruct f x (planeView s) = planeView (reconstruct f x s) := by
  simp only [reconstruct, apply_ite planeView]; rfl

theorem rowStep_planeView (f : Byte → Neighbours → Byte) (s : State) :
    rowStep f (planeView s) = planeOutcome (rowStep f s) := by
  unfold rowStep
  rw [planeView_zIn, planeView_lbBytes, planeView_pu]
  split
  · rfl
  · split_ifs
    · rfl
    · exact congrArg _ (reconstruct_planeView f _ (popZ s))
  · rfl
  · rfl

theorem filterStep_planeView (ft : FilterType) (f : Byte → Neighbours → Byte) (s : State) :
    filterStep ft f (planeView s) = planeOutcome (filterStep ft f s) := by
  unfold filterStep
  rw [planeView_pu]
  split
  · exact congrArg _ (selectFilter_planeView ft s)
  · split
    · exact rowStep_planeView f s
    · rfl
  all_goals rfl

theorem filtStep_planeView (s : State) : filtStep (planeView s) = planeOutcome (filtStep s) := by
  unfold filtStep
  rw [planeView_zIn]
  split
  · rfl
  · split
    · simp only [exec_filterInstr]; exact filterStep_planeView _ _ (popZ s)
    · rfl
  · rfl
  · rfl

theorem tailStep_planeView (s : State) : tailStep (planeView s) = planeOutcome (tailStep s) := by
  unfold tailStep
  rw [planeView_zIn, planeView_bitDepth]
  split
  · rfl
  · rfl
  · split_ifs <;> rfl
  · rfl

theorem drainStep_planeView (s : State) : drainStep (planeView s) = planeOutcome (drainStep s) := by
  unfold drainStep
  rw [planeView_zIn]
  split <;> rfl

/-- PU takes the same step on what it sees, and sees of the next state exactly that step's. -/
theorem puTake_planeView (s : State) : puTake (planeView s) = planeOutcome (puTake s) := by
  unfold puTake
  rw [planeView_pu]
  split
  · exact congrArg _ (startStep_planeView s)
  · exact filtStep_planeView s
  · simp only [exec_filterInstr]; exact filterStep_planeView _ _ s
  · exact tailStep_planeView s
  · exact drainStep_planeView s
  · rfl

theorem puStep_planeView (s : State) : puStep (planeView s) = planeOutcome (puStep s) := by
  have enabled : puEnabled (planeView s) = puEnabled s := rfl
  unfold puStep
  rw [enabled]
  split_ifs
  · exact puTake_planeView s
  · rfl

/-- States that look the same to PU get the same from its step. -/
theorem puStep_of_planeView_eq {s u t : State} (same : planeView u = planeView s) (h : puStep s = .next t) :
    ∃ v, puStep u = .next v ∧ planeView v = planeView t := by
  have seen : planeOutcome (puStep u) = .next (planeView t) := by
    rw [← puStep_planeView, same, puStep_planeView, h]; rfl
  obtain ⟨v, hv, e⟩ := andThen_eq_next seen
  exact ⟨v, hv, Host.Outcome.next.inj e⟩

end Sys2Proof.Machine

namespace Sys2Proof.Proofs.MemoryFamily
open Sys2Proof.Machine

/-- Settles O49: FE's moves keep the plane part, PU's moves keep the front part, and the listed fields make up PU's view. -/
theorem agentsShareOnlyReadOnlyRegisters : Obligations.AgentsShareOnlyReadOnlyRegisters := by
  refine ⟨fun _ _ => feStep_keeps_plane, fun _ _ => puStep_keeps_front, ?_⟩
  intro s u t pu zIn pOut pReady lbBytes fst descValid height bitDepth bpp bps h
  have same : planeView u = planeView s := by
    simp only [planeView, pu, zIn, pOut, pReady, lbBytes, fst, descValid, height, bitDepth, bpp, bps]
  obtain ⟨v, hv, e⟩ := puStep_of_planeView_eq same h
  exact ⟨v, hv, congrArg (·.pu) e, congrArg (·.zIn) e, congrArg (·.pOut) e⟩

end Sys2Proof.Proofs.MemoryFamily
end

section
/-! PROOFS. The family `40_framer.md`. FE's step on an offered token has one equation per state of FE; the tokens it takes and
emits (R130), the halt (R141) and the fields byte by byte are read off these. That a run of FE is `decode` (R147) is an invariant of
the run: the bytes FE has consumed are whole chunk records, whose tokens port K holds, then the part of a record its registers hold. -/

namespace Sys2Proof.Machine

variable {s t u : State} {b : Byte} {more : List SToken}

/-! ### The halt -/

@[simp] theorem haltFE_fst : (haltFE s).fe.fst = .halt := by rw [haltFE_eq]
@[simp] theorem haltFE_cnt : (haltFE s).fe.cnt = s.fe.cnt := by rw [haltFE_eq]
@[simp] theorem haltFE_ferr : (haltFE s).fe.ferr = s.fe.ferr := by rw [haltFE_eq]
@[simp] theorem haltFE_derr :
    (haltFE s).fe.derr =
      if s.fe.ferr = .ok ∧ s.fe.derr = .ok ∧ s.fe.descValid = false then .invalidChunkForContext else s.fe.derr := by
  rw [haltFE_eq]
@[simp] theorem haltFE_sIn : (haltFE s).sIn = s.sIn := by rw [haltFE_eq]
@[simp] theorem haltFE_kOut : (haltFE s).kOut = s.kOut := by rw [haltFE_eq]
@[simp] theorem haltFE_cOut : (haltFE s).cOut = s.cOut ++ [.cEnd] := by rw [haltFE_eq]

/-! ### FE's step on the token offered

One equation per state of FE and kind of token. -/

/-- What FE leaves when it takes `SEos` (R132, R134, R136, R138, R140). -/
def endOfInput (s : State) : State :=
  match s.fe.fst with
  | .sig => rejectSignature (popS s)
  | .len => if s.fe.cnt = 0 then haltFE (popS s) else truncateChunk (popS s)
  | .type | .data | .trail => truncateChunk (popS s)
  | .halt => s

theorem execSig_eos (hf : s.fe.fst = .sig) (hs : s.sIn = .eos :: more) : execSig s = .next (rejectSignature (popS s)) := by
  simp only [execSig, hf, hs]

theorem signature_getElem? {k : Nat} (hk : k ≤ 7) : signature[k]? = some (signature.getD k 0) := by
  rw [List.getD_eq_getElem?_getD, List.getElem?_eq_getElem (by simp [signature]; omega), Option.getD_some]

theorem execSig_byte (hf : s.fe.fst = .sig) (hc : s.fe.cnt.toNat ≤ 7) (hs : s.sIn = .byte b :: more) :
    execSig s = .next
      (if b = signature.getD s.fe.cnt.toNat 0 then
        if s.fe.cnt = 7 then enterField .len (popS s) else nextByte (popS s)
      else rejectSignature (popS s)) := by
  simp only [execSig, hf, hs, signature_getElem? hc, apply_ite Host.Outcome.next]

theorem payloadStep_eos (act : Byte → State → Outcome) (hs : s.sIn = .eos :: more) :
    payloadStep act s = .next (truncateChunk (popS s)) := by
  simp only [payloadStep, hs]

theorem payloadStep_byte (act : Byte → State → Outcome) (hs : s.sIn = .byte b :: more) :
    payloadStep act s =
      andThen (if s.fe.derr = .ok then act b (emitK (.pay b) (popS s)) else .next (emitK (.pay b) (popS s)))
        (fun u => .next (afterPayload u)) := by
  simp only [payloadStep, hs]

theorem trailingStep_eos (isEnd : Bool) (hs : s.sIn = .eos :: more) :
    trailingStep isEnd s = .next (truncateChunk (popS s)) := by
  simp only [trailingStep, hs]

theorem trailingStep_byte (isEnd : Bool) (hs : s.sIn = .byte b :: more) :
    trailingStep isEnd s = .next
      (if s.fe.cnt = 3 then
        if isEnd then haltFE (emitK (.trl (shiftIn s.fe.trl b)) (shiftTrl b (popS s)))
        else enterField .len (emitK (.trl (shiftIn s.fe.trl b)) (shiftTrl b (popS s)))
      else nextByte (shiftTrl b (popS s))) := by
  simp only [trailingStep, hs, apply_ite Host.Outcome.next, shiftTrl_trl, popS_fe]

theorem chunkStep_data {cls : ChunkClass} (n tag : Word32) (dh : State → State) (dp : Byte → State → Outcome)
    (hf : s.fe.fst = .data) (hc : classOf s.fe.type = cls) : chunkStep cls n tag dh dp s = payloadStep dp s := by
  simp only [chunkStep, hf, hc, if_true]

theorem chunkStep_trail {cls : ChunkClass} (n tag : Word32) (dh : State → State) (dp : Byte → State → Outcome)
    (hf : s.fe.fst = .trail) (hc : classOf s.fe.type = cls) :
    chunkStep cls n tag dh dp s = trailingStep (decide (cls = .iend)) s := by
  simp only [chunkStep, hf, hc, if_true]

theorem feTake_data (hf : s.fe.fst = .data) : feTake s = payloadStep (payloadAction (classOf s.fe.type)) s := by
  simp only [feTake, hf, exec_headerInstr]
  exact chunkStep_data _ _ _ _ hf rfl

theorem feTake_trail (hf : s.fe.fst = .trail) : feTake s = trailingStep (decide (classOf s.fe.type = .iend)) s := by
  simp only [feTake, hf, exec_headerInstr]
  exact chunkStep_trail _ _ _ _ hf rfl

theorem feTake_eos (hs : s.sIn = .eos :: more) : feTake s = .next (endOfInput s) := by
  cases hf : s.fe.fst with
  | sig => simp only [feTake, hf, endOfInput]; exact execSig_eos hf hs
  | len => simp only [feTake, hf, endOfInput, lenStep, hs, ite_not]
  | type => simp only [feTake, hf, endOfInput, typeStep, hs]
  | data => rw [feTake_data hf, payloadStep_eos _ hs]; simp only [endOfInput, hf]
  | trail => rw [feTake_trail hf, trailingStep_eos _ hs]; simp only [endOfInput, hf]
  | halt => simp only [feTake, hf, endOfInput]

theorem feTake_sig_byte (hf : s.fe.fst = .sig) (hc : s.fe.cnt.toNat ≤ 7) (hs : s.sIn = .byte b :: more) :
    feTake s = .next
      (if b = signature.getD s.fe.cnt.toNat 0 then
        if s.fe.cnt = 7 then enterField .len (popS s) else nextByte (popS s)
      else rejectSignature (popS s)) := by
  simp only [feTake, hf]; exact execSig_byte hf hc hs

theorem feTake_len_byte (hf : s.fe.fst = .len) (hs : s.sIn = .byte b :: more) :
    feTake s = .next
      (if s.fe.cnt = 3 then enterField .type (shiftLen b (popS s)) else nextByte (shiftLen b (popS s))) := by
  simp only [feTake, hf, lenStep, hs]

theorem feTake_type_byte (hf : s.fe.fst = .type) (hs : s.sIn = .byte b :: more) :
    feTake s = .next
      (if s.fe.cnt = 3 then
        selectChunk s.fe.len (shiftIn s.fe.type b) (headerAction (classOf (shiftIn s.fe.type b))) (shiftType b (popS s))
      else nextByte (shiftType b (popS s))) := by
  simp only [feTake, hf, typeStep, hs, exec_headerInstr, apply_ite Host.Outcome.next]
  split_ifs with h
  · simp [chunkStep, hf, h]
  · rfl

theorem feTake_data_byte (hf : s.fe.fst = .data) (hs : s.sIn = .byte b :: more) :
    feTake s =
      andThen
        (if s.fe.derr = .ok then payloadAction (classOf s.fe.type) b (emitK (.pay b) (popS s))
          else .next (emitK (.pay b) (popS s)))
        (fun u => .next (afterPayload u)) := by
  rw [feTake_data hf, payloadStep_byte _ hs]

theorem feTake_trail_byte (hf : s.fe.fst = .trail) (hs : s.sIn = .byte b :: more) :
    feTake s = .next
      (if s.fe.cnt = 3 then
        if classOf s.fe.type = .iend then haltFE (emitK (.trl (shiftIn s.fe.trl b)) (shiftTrl b (popS s)))
        else enterField .len (emitK (.trl (shiftIn s.fe.trl b)) (shiftTrl b (popS s)))
      else nextByte (shiftTrl b (popS s))) := by
  rw [feTake_trail hf, trailingStep_byte _ hs]
  simp only [decide_eq_true_eq]

/-! ### When FE steps -/

theorem feStep_of_no_token (hs : s.sIn = []) : feStep s = .next s := by
  simp [feStep, feEnabled, hs]

theorem feStep_of_enabled (h : feEnabled s = true) : feStep s = feTake s := if_pos h

theorem feStep_of_disabled (h : feEnabled s = false) : feStep s = .next s := by
  simp [feStep, h]

theorem feAccepts_iff (s : State) (tok : SToken) :
    feAccepts s tok = true ↔
      s.fe.fst ≠ .halt ∧ (kOffer s tok ≠ Option.none → s.kReady = true) ∧ (cOffer s tok ≠ Option.none → s.cReady = true) := by
  cases hk : kOffer s tok <;> cases hc : cOffer s tok <;> simp [feAccepts, hk, hc, and_assoc]

theorem feEnabled_cons {tok : SToken} (hs : s.sIn = tok :: more) : feEnabled s = feAccepts s tok := by
  simp only [feEnabled, hs]

/-! ### What the class actions leave alone -/

/-- What FE's framing works on: its position, the fields of the chunk in progress, its three streams and their ready pins. -/
def framerPart (s : State) :
    (FState × Word32 × Word32 × Word32 × Word32 × ErrCode) × List SToken × List KToken × List CToken × Bool × Bool :=
  ((s.fe.fst, s.fe.cnt, s.fe.len, s.fe.type, s.fe.trl, s.fe.ferr), s.sIn, s.kOut, s.cOut, s.kReady, s.cReady)

@[simp] theorem framerPart_headerAction (c : ChunkClass) (s : State) : framerPart (headerAction c s) = framerPart s := by
  cases c with
  | ihdr => simp only [headerAction, dHeaderIhdr]; split_ifs <;> rfl
  | idat => simp only [headerAction, dHeaderIdat]; split_ifs <;> rfl
  | plte => simp only [headerAction, dHeaderPlte]; split_ifs <;> rfl
  | iend => rfl
  | other => rfl

@[simp] theorem framerPart_whenActive (c : ChunkClass) (s : State) :
    framerPart (whenActive (headerAction c) s) = framerPart s := by
  unfold whenActive
  split_ifs
  · exact framerPart_headerAction ..
  · rfl

@[simp] theorem framerPart_storeIhdrByte (k : Nat) (b : Byte) (s : State) : framerPart (storeIhdrByte k b s) = framerPart s := by
  simp [framerPart]

@[simp] theorem framerPart_commitChannels (c : Nat) (s : State) : framerPart (commitChannels c s) = framerPart s := by
  rcases commitChannels_cases c s with ⟨-, h⟩ | ⟨-, -, h⟩ | ⟨-, -, h⟩ <;> rw [h] <;> rfl

@[simp] theorem framerPart_committed (s : State) : framerPart (committed s) = framerPart s := by
  unfold committed
  split
  · exact framerPart_commitChannels ..
  · rfl

/-- A payload action that answers leaves the framing alone, but for the byte `IDAT` forwards on port C (R160). -/
theorem payloadAction_framerPart {c : ChunkClass} (hf : s.fe.fst = .data) (hc : classOf s.fe.type = c) (hd : s.fe.derr = .ok)
    (h : payloadAction c b s = .next u) :
    framerPart u = framerPart { s with cOut := s.cOut ++ if c = .idat then [.byte b] else [] } := by
  cases c with
  | ihdr =>
    simp only [payloadAction, dPayloadIhdr] at h
    split_ifs at h with h12 heq
    · rw [commit_eq (by simpa [atCommit] using ⟨hf, hc, heq, hd⟩)] at h
      cases h; rw [framerPart_committed, framerPart_storeIhdrByte]; simp [framerPart]
    · cases h; rw [framerPart_storeIhdrByte]; simp [framerPart]
  | idat => cases h; rfl
  | iend => cases h; simp [framerPart]
  | plte => cases h; simp [framerPart]
  | other => cases h; simp [framerPart]

/-- A payload action answers a next state wherever an `IHDR` payload byte has a register (R156). -/
theorem payloadAction_answers {c : ChunkClass} (hc : classOf s.fe.type = c) (hf : s.fe.fst = .data) (hd : s.fe.derr = .ok)
    (h : c = .ihdr → s.fe.cnt.toNat ≤ 12) : ∃ u, payloadAction c b s = .next u := by
  cases c with
  | ihdr =>
    simp only [payloadAction, dPayloadIhdr, if_neg (Nat.not_lt.2 (h rfl))]
    split_ifs with heq
    · exact ⟨_, commit_eq (by simpa [atCommit] using ⟨hf, hc, heq, hd⟩)⟩
    · exact ⟨_, rfl⟩
  | idat => exact ⟨_, rfl⟩
  | iend => exact ⟨_, rfl⟩
  | plte => exact ⟨_, rfl⟩
  | other => exact ⟨_, rfl⟩

/-- A payload step is the advance on a state whose framing is as FE found it, but for the tokens of the step (R137, R160). -/
theorem feTake_data_cases (hf : s.fe.fst = .data) (hs : s.sIn = .byte b :: more) (h : feTake s = .next t) :
    ∃ u, t = afterPayload u ∧ (s.fe.derr ≠ .ok → u.fe.derr = s.fe.derr) ∧
      framerPart u = framerPart { s with
        sIn := s.sIn.tail, kOut := s.kOut ++ [.pay b], cOut := s.cOut ++ (cOffer s (.byte b)).toList } := by
  rw [feTake_data_byte hf hs] at h
  obtain ⟨u, hu, ht⟩ := andThen_eq_next h
  cases ht
  refine ⟨u, rfl, ?_⟩
  split_ifs at hu with hd
  · have framing := payloadAction_framerPart (s := emitK (.pay b) (popS s)) hf rfl hd hu
    refine ⟨absurd hd, framing.trans ?_⟩
    simp only [framerPart, cOffer, hf, hd, and_true]
    split_ifs <;> simp_all
  · cases hu
    simp [framerPart, cOffer, hf, hd]

theorem feTake_data_answers (hf : s.fe.fst = .data) (hs : s.sIn = .byte b :: more)
    (h : classOf s.fe.type = .ihdr → s.fe.derr = .ok → s.fe.cnt.toNat ≤ 12) : ∃ t, feTake s = .next t := by
  rw [feTake_data_byte hf hs]
  split_ifs with hd
  · obtain ⟨u, hu⟩ := payloadAction_answers (s := emitK (.pay b) (popS s)) (b := b) rfl hf hd fun hc => h hc hd
    exact ⟨afterPayload u, congrArg (andThen · _) hu⟩
  · exact ⟨_, rfl⟩

/-! ### The tokens of a step (R130) -/

@[simp] theorem afterPayload_sIn (s : State) : (afterPayload s).sIn = s.sIn := by rw [afterPayload_eq]
@[simp] theorem afterPayload_kOut (s : State) : (afterPayload s).kOut = s.kOut := by rw [afterPayload_eq]
@[simp] theorem afterPayload_cOut (s : State) : (afterPayload s).cOut = s.cOut := by rw [afterPayload_eq]

/-- The selection of a chunk leaves the framing as the header alone makes it (R135). -/
theorem framerPart_selectChunk (n tag : Word32) (c : ChunkClass) (s : State) :
    framerPart (selectChunk n tag (headerAction c) s)
      = framerPart (enterField (if n = 0 then .trail else .data) (emitK (.hdr n tag) (latchHeader n tag s))) := by
  have h := framerPart_whenActive c (emitK (.hdr n tag) (latchHeader n tag s))
  simp only [framerPart, Prod.mk.injEq] at h
  obtain ⟨⟨-, -, hlen, htype, htrl, hferr⟩, hsIn, hkOut, hcOut, hkReady, hcReady⟩ := h
  simp only [selectChunk, framerPart, enterField_fst, enterField_cnt, enterField_len, enterField_type, enterField_trl,
    enterField_ferr, enterField_sIn, enterField_kOut, enterField_cOut, enterField_kReady, enterField_cReady, hlen, htype, htrl,
    hferr, hsIn, hkOut, hcOut, hkReady, hcReady]

/-- The step consumed the offered token and appended these tokens to K and C. -/
def Takes (s t : State) (k : Option KToken) (c : Option CToken) : Prop :=
  t.sIn = s.sIn.tail ∧ t.kOut = s.kOut ++ k.toList ∧ t.cOut = s.cOut ++ c.toList

theorem endOfInput_takes (hf : s.fe.fst ≠ .halt) : Takes s (endOfInput s) Option.none (some .cEnd) := by
  unfold endOfInput Takes
  cases h : s.fe.fst with
  | halt => exact absurd h hf
  | sig => simp [rejectSignature]
  | len => split_ifs <;> simp [truncateChunk]
  | type => simp [truncateChunk]
  | data => simp [truncateChunk]
  | trail => simp [truncateChunk]

theorem feTake_sig_in_field (hf : s.fe.fst = .sig) (hs : s.sIn = .byte b :: more) (h : feTake s = .next t) :
    s.fe.cnt.toNat ≤ 7 := by
  by_contra hc
  have hk : signature[s.fe.cnt.toNat]? = Option.none := List.getElem?_eq_none (by simp [signature]; omega)
  simp [feTake, hf, exec, execSig, hs, hk] at h

/-- An FE step consumes the token on offer and emits what the state and the token fix. -/
theorem feTake_takes {tok : SToken} (hf : s.fe.fst ≠ .halt) (hs : s.sIn = tok :: more) (h : feTake s = .next t) :
    Takes s t (kOffer s tok) (cOffer s tok) := by
  cases tok with
  | eos =>
    rw [feTake_eos hs] at h
    cases h
    simpa [kOffer, cOffer, hf] using endOfInput_takes hf
  | byte b =>
    cases hfst : s.fe.fst with
    | sig =>
      have hc := feTake_sig_in_field hfst hs h
      rw [feTake_sig_byte hfst hc hs] at h
      cases h
      simp only [Takes, kOffer, cOffer, hfst, signature_getElem? hc, Option.some_inj, eq_comm (b := b)]
      split_ifs <;> simp [rejectSignature]
    | len =>
      rw [feTake_len_byte hfst hs] at h
      cases h
      simp only [Takes, kOffer, cOffer, hfst]
      split_ifs <;> simp
    | type =>
      rw [feTake_type_byte hfst hs] at h
      cases h
      simp only [Takes, kOffer, cOffer, hfst]
      split_ifs
      · have framing := framerPart_selectChunk s.fe.len (shiftIn s.fe.type b) (classOf (shiftIn s.fe.type b))
          (shiftType b (popS s))
        simp only [framerPart, Prod.mk.injEq] at framing
        obtain ⟨-, hsIn, hkOut, hcOut, -⟩ := framing
        simp [hsIn, hkOut, hcOut]
      · simp
    | data =>
      obtain ⟨u, rfl, -, framing⟩ := feTake_data_cases hfst hs h
      simp only [framerPart, Prod.mk.injEq] at framing
      obtain ⟨-, hsIn, hkOut, hcOut, -⟩ := framing
      simp [Takes, kOffer, hfst, hsIn, hkOut, hcOut]
    | trail =>
      rw [feTake_trail_byte hfst hs] at h
      cases h
      simp only [Takes, kOffer, cOffer, hfst]
      split_ifs <;> simp_all
    | halt => exact absurd hfst hf

/-! ### The steps that halt FE (R141) -/

/-- A move that halts FE is `halt_FE` on a state with layer D, stream C and `CNT` as FE found them. -/
theorem FeMove.halts (h : FeMove s t) (hs : s.fe.fst ≠ .halt) (ht : t.fe.fst = .halt) :
    ∃ u, t = haltFE u ∧ u.fe.derr = s.fe.derr ∧ u.fe.descValid = s.fe.descValid ∧ u.cOut = s.cOut ∧ u.fe.cnt = s.fe.cnt := by
  have notAfterPayload : ∀ v : State, v.fe.fst = .data → (afterPayload v).fe.fst ≠ .halt := by
    intro v hv
    rw [afterPayload_eq]
    split_ifs <;> simp [hv]
  cases h with
  | hold => exact absurd ht hs
  | sigReject => exact ⟨_, rfl, rfl, rfl, rfl, rfl⟩
  | lenEnd => exact ⟨_, rfl, rfl, rfl, rfl, rfl⟩
  | truncate => exact ⟨_, rfl, rfl, rfl, rfl, rfl⟩
  | trailEnd => exact ⟨_, rfl, rfl, rfl, rfl, rfl⟩
  | sigDone => cases ht
  | sigNext hf => exact absurd (hf.symm.trans ht) (by decide)
  | lenDone => cases ht
  | lenNext b hf => exact absurd (hf.symm.trans ht) (by decide)
  | typeNext b hf => exact absurd (hf.symm.trans ht) (by decide)
  | select b hf => simp [selectChunk] at ht; split_ifs at ht
  | payOpaque b hf => exact absurd ht (notAfterPayload _ hf)
  | payIdat b hf => exact absurd ht (notAfterPayload _ hf)
  | payIhdr b hf => exact absurd ht (notAfterPayload _ (by simpa using hf))
  | payCommit b hf =>
    have framing := framerPart_committed (storeIhdrByte 12 b (emitK (.pay b) (popS s)))
    simp only [framerPart, Prod.mk.injEq] at framing
    exact absurd ht (notAfterPayload _ (framing.1.1.trans (by simpa using hf)))
  | trailNext b hf => exact absurd (hf.symm.trans ht) (by decide)
  | trailDone => cases ht

theorem kOffer_halt {tok : SToken} (hf : s.fe.fst = .halt) : kOffer s tok = Option.none := by
  cases tok <;> simp [kOffer, hf]

theorem cOffer_halt {tok : SToken} (hf : s.fe.fst = .halt) : cOffer s tok = Option.none := by
  cases tok <;> simp [cOffer, hf]

/-- Port K transfers exactly when the step happens and emits on it (R62). -/
theorem kDrives_iff (s : State) (tok : SToken) :
    kDrives s tok = true ∧ s.kReady = true ↔ feAccepts s tok = true ∧ kOffer s tok ≠ Option.none := by
  by_cases hf : s.fe.fst = .halt
  · simp [kDrives, kOffer_halt hf]
  · cases hk : kOffer s tok <;> cases hc : cOffer s tok <;> simp [kDrives, feAccepts_iff, hf, hk, hc, and_comm]

/-- Port C transfers exactly when the step happens and emits on it (R62). -/
theorem cDrives_iff (s : State) (tok : SToken) :
    cDrives s tok = true ∧ s.cReady = true ↔ feAccepts s tok = true ∧ cOffer s tok ≠ Option.none := by
  by_cases hf : s.fe.fst = .halt
  · simp [cDrives, cOffer_halt hf]
  · cases hk : kOffer s tok <;> cases hc : cOffer s tok <;> simp [cDrives, feAccepts_iff, hf, hk, hc, and_comm]

/-- An instruction of a chunk row is the chunk step of its class. -/
theorem exec_chunkInstr {n tag : Word32} {i : Instr} {cls : ChunkClass}
    (h : (i, cls) ∈ [(Instr.ihdr n, ChunkClass.ihdr), (.idat n, .idat), (.plte n, .plte), (.iend n, .iend), (.other n tag, .other)]) :
    ∃ len t dh dp, ∀ s, exec i s = chunkStep cls len t dh dp s := by
  simp only [List.mem_cons, Prod.mk.injEq, List.not_mem_nil, or_false] at h
  rcases h with ⟨rfl, rfl⟩ | ⟨rfl, rfl⟩ | ⟨rfl, rfl⟩ | ⟨rfl, rfl⟩ | ⟨rfl, rfl⟩ <;>
    exact ⟨_, _, _, _, fun _ => rfl⟩

/-- All that taking `SEos` inside a chunk does. -/
theorem truncateChunk_popS_eq {tok : SToken} (hs : s.sIn = tok :: more) :
    truncateChunk (popS s)
      = { s with sIn := more, cOut := s.cOut ++ [.cEnd], fe := { s.fe with fst := .halt, ferr := .truncated } } := by
  rw [truncateChunk, haltFE_raise_eq _ (by decide)]
  simp [popS, hs]

theorem rejectSignature_popS_eq {tok : SToken} (hs : s.sIn = tok :: more) :
    rejectSignature (popS s)
      = { s with sIn := more, cOut := s.cOut ++ [.cEnd], fe := { s.fe with fst := .halt, ferr := .badSignature } } := by
  rw [rejectSignature, haltFE_raise_eq _ (by decide)]
  simp [popS, hs]

/-- FE takes `SEos` once port C is ready. -/
theorem feStep_eos (hf : s.fe.fst ≠ .halt) (hs : s.sIn = .eos :: more) (hc : s.cReady = true) :
    feStep s = .next (endOfInput s) := by
  have enabled : feEnabled s = true := by
    rw [feEnabled_cons hs, feAccepts_iff]
    exact ⟨hf, by simp [kOffer], fun _ => hc⟩
  rw [feStep_of_enabled enabled, feTake_eos hs]

/-- FE takes a byte with which it emits nothing, whatever is ready. -/
theorem feStep_silent (hf : s.fe.fst ≠ .halt) (hs : s.sIn = .byte b :: more) (hk : kOffer s (.byte b) = Option.none)
    (hc : cOffer s (.byte b) = Option.none) : feStep s = feTake s := by
  refine feStep_of_enabled ?_
  rw [feEnabled_cons hs, feAccepts_iff]
  exact ⟨hf, absurd hk, absurd hc⟩

end Sys2Proof.Machine

namespace Sys2Proof.Machine

variable {b : Byte}

/-! ### `decode` on whole and on cut records (R147) -/

/-- The chunks before a container's end: whole records, none of them `IEND`. -/
def Inner (cs : List Chunk) : Prop := ∀ c ∈ cs, c.consistent = true ∧ c.typeTag ≠ iendTag

theorem takeChunk_encodeChunk {c : Chunk} (hc : c.consistent = true) (rest : List Byte) :
    takeChunk (encodeChunk c ++ rest) = some (c, rest) := by
  have hlen : c.data.length = c.length.toNat := by simpa [Chunk.consistent] using hc
  simp [encodeChunk, be32Bytes, takeChunk, List.drop_left' hlen, List.take_left' hlen]

theorem takeChunk_of_short_header {bs : List Byte} (h : bs.length < 8) : takeChunk bs = Option.none := by
  unfold takeChunk
  split
  · simp only [List.length_cons] at h; omega
  · rfl

theorem takeChunk_of_short_body (n tag : Word32) {body : List Byte} (h : body.length < n.toNat + 4) :
    takeChunk (be32Bytes n ++ be32Bytes tag ++ body) = Option.none := by
  simp only [be32Bytes, List.cons_append, List.nil_append, takeChunk, be32_extract]
  split
  · rename_i heq
    have := congrArg List.length heq
    simp only [List.length_drop, List.length_cons] at this
    omega
  · rfl

theorem decodeLoop_of_chunk {bs rest : List Byte} {c : Chunk} (h : takeChunk bs = some (c, rest)) (fuel : Nat) (acc : List Chunk) :
    decodeLoop (fuel + 1) bs acc
      = if c.typeTag = iendTag then .ok (acc ++ [c]) else decodeLoop fuel rest (acc ++ [c]) := by
  cases bs with
  | nil => cases h
  | cons b bs => simp only [decodeLoop, h]

theorem decodeLoop_of_no_chunk {bs : List Byte} (hne : bs ≠ []) (h : takeChunk bs = Option.none) {fuel : Nat}
    (hf : bs.length ≤ fuel) (acc : List Chunk) : decodeLoop fuel bs acc = .fail .truncated := by
  obtain ⟨b, bs, rfl⟩ := List.exists_cons_of_ne_nil hne
  obtain ⟨k, rfl⟩ := Nat.exists_eq_add_of_le' (Nat.le_trans (Nat.le_add_left 1 bs.length) hf)
  simp only [decodeLoop, h]

theorem encodeChunk_length (c : Chunk) : (encodeChunk c).length = c.data.length + 12 := by
  simp [encodeChunk, be32Bytes]

/-- The loop passes over inner records, gathering their chunks. -/
theorem decodeLoop_inner {cs : List Chunk} (hcs : Inner cs) (rest : List Byte) (fuel : Nat) (acc : List Chunk)
    (hf : ((cs.map encodeChunk).flatten ++ rest).length ≤ fuel) :
    ∃ left, rest.length ≤ left ∧
      decodeLoop fuel ((cs.map encodeChunk).flatten ++ rest) acc = decodeLoop left rest (acc ++ cs) := by
  induction cs generalizing fuel acc with
  | nil => exact ⟨fuel, hf, by simp⟩
  | cons c cs ih =>
    obtain ⟨⟨whole, inner⟩, hcs⟩ := List.forall_mem_cons.1 hcs
    simp only [List.map_cons, List.flatten_cons, List.append_assoc, List.length_append, encodeChunk_length] at hf ⊢
    obtain ⟨fuel, rfl⟩ : ∃ k, fuel = k + 1 := ⟨fuel - 1, by omega⟩
    obtain ⟨left, hl, e⟩ := ih hcs fuel (acc ++ [c]) (by rw [List.length_append]; omega)
    refine ⟨left, hl, ?_⟩
    rw [decodeLoop_of_chunk (takeChunk_encodeChunk whole _), if_neg inner, e]
    simp

theorem decodeContainer_inner {cs : List Chunk} (hcs : Inner cs) (rest : List Byte) :
    ∃ left, rest.length ≤ left ∧ decodeContainer (containerBytes cs ++ rest) = decodeLoop left rest cs := by
  obtain ⟨left, hl, e⟩ := decodeLoop_inner hcs rest (containerBytes cs ++ rest).length []
    (by simp [containerBytes])
  refine ⟨left, hl, ?_⟩
  rw [decodeContainer, if_pos (by simp [containerBytes, signature])]
  simpa [containerBytes, signature] using e

/-- An input that ends at a chunk boundary decodes to its chunks (R134). -/
theorem decodeContainer_clean {cs : List Chunk} (hcs : Inner cs) : decodeContainer (containerBytes cs) = .ok cs := by
  obtain ⟨left, -, e⟩ := decodeContainer_inner hcs []
  rw [List.append_nil] at e
  rw [e, decodeLoop]

/-- An input that ends inside a record is `Truncated`. -/
theorem decodeContainer_cut {cs : List Chunk} (hcs : Inner cs) {record : List Byte} (hne : record ≠ [])
    (h : takeChunk record = Option.none) : decodeContainer (containerBytes cs ++ record) = .fail .truncated := by
  obtain ⟨left, hl, e⟩ := decodeContainer_inner hcs record
  rw [e, decodeLoop_of_no_chunk hne h hl]

/-- An `IEND` record ends the container, whatever follows it (R139). -/
theorem decodeContainer_end {cs : List Chunk} (hcs : Inner cs) {c : Chunk} (hc : c.consistent = true)
    (hend : c.typeTag = iendTag) (rest : List Byte) :
    decodeContainer (containerBytes cs ++ encodeChunk c ++ rest) = .ok (cs ++ [c]) := by
  obtain ⟨left, hl, e⟩ := decodeContainer_inner hcs (encodeChunk c ++ rest)
  rw [List.length_append, encodeChunk_length] at hl
  obtain ⟨left, rfl⟩ : ∃ k, left = k + 1 := ⟨left - 1, by omega⟩
  rw [List.append_assoc, e, decodeLoop_of_chunk (takeChunk_encodeChunk hc rest), if_pos hend]

/-- An input that leaves the signature at byte `k` is `BadSignature`. -/
theorem decodeContainer_badSignature {k : Nat} (hk : k ≤ 7) {rest : List Byte} (h : rest.head? ≠ signature[k]?) :
    decodeContainer (signature.take k ++ rest) = .fail .badSignature := by
  refine if_neg fun e => h ?_
  have hlen : (signature.take k).length = k := by simp [signature]; omega
  have at_k := congrArg (·[k]?) e
  simp only [List.getElem?_take, if_pos (Nat.lt_succ_of_le hk), List.getElem?_append_right (Nat.le_of_eq hlen), hlen,
    Nat.sub_self] at at_k
  rw [← at_k, List.head?_eq_getElem?]

/-! ### The K tokens of a chunk (R143) -/

/-- The K tokens FE emits for a chunk. -/
def chunkTokens (c : Chunk) : List KToken := .hdr c.length c.typeTag :: c.data.map .pay ++ [.trl c.trailing]

theorem chunksFrom_pays (n tag : Word32) (d data : List Byte) (ks : List KToken) :
    chunksFrom (some (n, tag, d)) (data.map .pay ++ ks) = chunksFrom (some (n, tag, d ++ data)) ks := by
  induction data generalizing d with
  | nil => simp
  | cons b data ih => simp [chunksFrom, ih]

theorem chunksOf_chunkTokens {c : Chunk} (hc : c.consistent = true) (ks : List KToken) :
    chunksOf (chunkTokens c ++ ks) = c :: chunksOf ks := by
  have hlen : c.data.length = c.length.toNat := by simpa [Chunk.consistent] using hc
  simp [chunksOf, chunkTokens, chunksFrom, chunksFrom_pays, hlen]

/-- The tokens of whole chunks are read back as these chunks. -/
theorem chunksOf_tokens {cs : List Chunk} (hcs : ∀ c ∈ cs, c.consistent = true) :
    chunksOf (cs.map chunkTokens).flatten = cs := by
  induction cs with
  | nil => rfl
  | cons c cs ih =>
    obtain ⟨hc, hcs⟩ := List.forall_mem_cons.1 hcs
    rw [List.map_cons, List.flatten_cons, chunksOf_chunkTokens hc, ih hcs]

/-! ### Fields of a record, byte by byte -/

/-- The last `k` bytes shifted into a register. -/
def lowBytes (k : Nat) (v : Word32) : List Byte := (be32Bytes v).drop (4 - k)

@[simp] theorem lowBytes_zero (v : Word32) : lowBytes 0 v = [] := rfl
@[simp] theorem lowBytes_four (v : Word32) : lowBytes 4 v = be32Bytes v := rfl

theorem lowBytes_length {k : Nat} (hk : k ≤ 4) (v : Word32) : (lowBytes k v).length = k := by
  simp [lowBytes, be32Bytes]; omega

theorem shiftIn_low (v : Word32) (b : Byte) : (shiftIn v b).extractLsb' 0 8 = b := by
  ext i hi
  simp only [shiftIn, BitVec.getElem_extractLsb', BitVec.getLsbD_or, BitVec.getLsbD_shiftLeft, BitVec.getLsbD_setWidth]
  simp [hi, show i < 32 by omega]

theorem shiftIn_above (v : Word32) (b : Byte) (i : Nat) (h : i + 16 ≤ 32) :
    (shiftIn v b).extractLsb' (i + 8) 8 = v.extractLsb' i 8 := by
  ext j hj
  simp only [shiftIn, BitVec.getElem_extractLsb', BitVec.getLsbD_or, BitVec.getLsbD_shiftLeft, BitVec.getLsbD_setWidth,
    BitVec.getLsbD_of_ge b (i + 8 + j) (by omega)]
  simp [show i + 8 + j < 32 by omega, show 8 ≤ i + 8 + j by omega, show i + 8 + j - 8 = i + j by omega]

/-- A byte shifted in stands behind the bytes before it. -/
theorem lowBytes_shiftIn {k : Nat} (hk : k ≤ 3) (v : Word32) (b : Byte) :
    lowBytes (k + 1) (shiftIn v b) = lowBytes k v ++ [b] := by
  have h0 := shiftIn_low v b
  have h1 := shiftIn_above v b 0 (by decide)
  have h2 := shiftIn_above v b 8 (by decide)
  have h3 := shiftIn_above v b 16 (by decide)
  interval_cases k <;> simp only [lowBytes, be32Bytes, h0, h1, h2, h3, List.drop, Nat.reduceAdd, Nat.reduceSub] <;> rfl

end Sys2Proof.Machine

namespace Sys2Proof.Machine
open Sys2Proof.Safety

variable {s t u : State} {bs rest record : List Byte} {b : Byte} {cs : List Chunk} {tokens : List KToken}

/-! ### A run of FE on a finite input

The input is cut in two: what FE has consumed is whole chunks, whose tokens port K holds, then the part of a record that `LEN`, `TYPE`
and `TRL` hold; the rest is on offer. -/

/-- FE runs with these bytes and then `SEos` on offer. -/
structure Pending (rest : List Byte) (s : State) : Prop where
  sIn : s.sIn = presentInput rest true
  ferr : s.fe.ferr = .ok
  kReady : s.kReady = true
  cReady : s.cReady = true

/-- Of the input `bs`, FE has consumed the signature, the records of `cs` and the bytes `record` of one more. -/
structure Consumed (bs : List Byte) (cs : List Chunk) (record : List Byte) (tokens : List KToken) (rest : List Byte)
    (s : State) : Prop where
  inner : Inner cs
  input : bs = containerBytes cs ++ record ++ rest
  kOut : s.kOut = (cs.map chunkTokens).flatten ++ tokens

/-- Where FE stands in the input, by its state. -/
inductive Position (bs rest : List Byte) (s : State) : Prop
  | sig : s.fe.fst = .sig → s.fe.cnt.toNat ≤ 7 → s.kOut = [] → bs = signature.take s.fe.cnt.toNat ++ rest → Position bs rest s
  | len (cs : List Chunk) : s.fe.fst = .len → s.fe.cnt.toNat ≤ 3 →
      Consumed bs cs (lowBytes s.fe.cnt.toNat s.fe.len) [] rest s → Position bs rest s
  | type (cs : List Chunk) : s.fe.fst = .type → s.fe.cnt.toNat ≤ 3 →
      Consumed bs cs (be32Bytes s.fe.len ++ lowBytes s.fe.cnt.toNat s.fe.type) [] rest s → Position bs rest s
  | data (cs : List Chunk) (d : List Byte) : s.fe.fst = .data → d.length = s.fe.cnt.toNat → s.fe.cnt.toNat < s.fe.len.toNat →
      (classOf s.fe.type = .ihdr → s.fe.derr = .ok → s.fe.len = 13) →
      Consumed bs cs (be32Bytes s.fe.len ++ be32Bytes s.fe.type ++ d) (.hdr s.fe.len s.fe.type :: d.map .pay) rest s →
      Position bs rest s
  | trail (cs : List Chunk) (d : List Byte) : s.fe.fst = .trail → d.length = s.fe.len.toNat → s.fe.cnt.toNat ≤ 3 →
      Consumed bs cs (be32Bytes s.fe.len ++ be32Bytes s.fe.type ++ (d ++ lowBytes s.fe.cnt.toNat s.fe.trl))
        (.hdr s.fe.len s.fe.type :: d.map .pay) rest s →
      Position bs rest s

/-- FE has halted with the layer-F result of the input. -/
def Finished (bs : List Byte) (s : State) : Prop := s.fe.fst = .halt ∧ layerFResult s = some (decodeContainer bs)

/-- FE is on its way through the input, or through with it. -/
def Progress (bs rest : List Byte) (s : State) : Prop := (Pending rest s ∧ Position bs rest s) ∨ Finished bs s

theorem Position.not_halted (h : Position bs rest s) : s.fe.fst ≠ .halt := by
  cases h with
  | sig hf => simp [hf]
  | len cs hf => simp [hf]
  | type cs hf => simp [hf]
  | data cs d hf => simp [hf]
  | trail cs d hf => simp [hf]

theorem Pending.feStep_eq (p : Pending rest s) (hf : s.fe.fst ≠ .halt) : feStep s = feTake s := by
  refine feStep_of_enabled ?_
  cases rest with
  | nil => rw [feEnabled_cons p.sIn, feAccepts_iff]; exact ⟨hf, fun _ => p.kReady, fun _ => p.cReady⟩
  | cons b rest => rw [feEnabled_cons p.sIn, feAccepts_iff]; exact ⟨hf, fun _ => p.kReady, fun _ => p.cReady⟩

/-- A step that takes a byte and raises nothing leaves the rest pending. -/
theorem Pending.next (p : Pending (b :: rest) s) (sIn : t.sIn = s.sIn.tail) (ferr : t.fe.ferr = s.fe.ferr)
    (kReady : t.kReady = s.kReady) (cReady : t.cReady = s.cReady) : Pending rest t :=
  ⟨by rw [sIn, p.sIn]; rfl, ferr.trans p.ferr, kReady.trans p.kReady, cReady.trans p.cReady⟩

/-! ### The end of the run -/

theorem finished_of_error (hf : t.fe.fst = .halt) (he : t.fe.ferr ≠ .ok) (h : decodeContainer bs = .fail t.fe.ferr) :
    Finished bs t := ⟨hf, by simp [layerFResult, hf, he, h]⟩

theorem finished_of_chunks (hf : t.fe.fst = .halt) (he : t.fe.ferr = .ok) (h : decodeContainer bs = .ok (chunksOf t.kOut)) :
    Finished bs t := ⟨hf, by simp [layerFResult, hf, he, h]⟩

theorem rejectSignature_finished (h : decodeContainer bs = .fail .badSignature) : Finished bs (rejectSignature s) :=
  finished_of_error (by simp [rejectSignature]) (by simp [rejectSignature]) (by simpa [rejectSignature] using h)

/-- The end of the input inside a record. -/
theorem Consumed.truncate_finished (c : Consumed bs cs record tokens [] s) (hne : record ≠ [])
    (h : takeChunk record = Option.none) : Finished bs (truncateChunk (popS s)) := by
  refine finished_of_error (by simp [truncateChunk]) (by simp [truncateChunk]) ?_
  rw [c.input, List.append_nil, decodeContainer_cut c.inner hne h]
  simp [truncateChunk]

/-- At the end of the input FE halts with the result of `decode` (R132, R134, R136, R138, R140). -/
theorem Position.endOfInput_finished (p : Pending [] s) (h : Position bs [] s) : Finished bs (endOfInput s) := by
  cases h with
  | sig hf hc _ hin =>
    simp only [endOfInput, hf]
    refine rejectSignature_finished ?_
    rw [hin]
    exact decodeContainer_badSignature hc (by rw [signature_getElem? hc]; simp)
  | len cs hf hc hcons =>
    simp only [endOfInput, hf]
    have hlen := lowBytes_length (k := s.fe.cnt.toNat) (by omega) s.fe.len
    split_ifs with h0
    · refine finished_of_chunks haltFE_fst (by simpa using p.ferr) ?_
      have hin : bs = containerBytes cs := by simpa [h0] using hcons.input
      rw [hin, decodeContainer_clean hcons.inner, haltFE_kOut, popS_kOut, hcons.kOut, List.append_nil,
        chunksOf_tokens fun c hc => (hcons.inner c hc).1]
    · have hpos : s.fe.cnt.toNat ≠ 0 := fun e => h0 ((toNat_eq_iff _ 0 (by decide)).1 e)
      exact hcons.truncate_finished (List.ne_nil_of_length_pos (by omega)) (takeChunk_of_short_header (by omega))
  | type cs hf hc hcons =>
    simp only [endOfInput, hf]
    have hlen := lowBytes_length (k := s.fe.cnt.toNat) (by omega) s.fe.type
    exact hcons.truncate_finished (by simp [be32Bytes]) (takeChunk_of_short_header (by simp [be32Bytes]; omega))
  | data cs d hf hd hc _ hcons =>
    simp only [endOfInput, hf]
    exact hcons.truncate_finished (by simp [be32Bytes]) (takeChunk_of_short_body _ _ (by omega))
  | trail cs d hf hd hc hcons =>
    simp only [endOfInput, hf]
    have hlen := lowBytes_length (k := s.fe.cnt.toNat) (by omega) s.fe.trl
    exact hcons.truncate_finished (by simp [be32Bytes]) (takeChunk_of_short_body _ _ (by rw [List.length_append]; omega))

/-! ### A byte of the run, by FE's state -/

theorem Consumed.next {record' : List Byte} (c : Consumed bs cs record tokens (b :: rest) s) (hr : record' = record ++ [b])
    (hk : t.kOut = s.kOut) : Consumed bs cs record' tokens rest t :=
  ⟨c.inner, by rw [c.input, hr]; simp, hk.trans c.kOut⟩

theorem toNat_succ {w : Word32} {k : Nat} (h : w.toNat < k) (hk : k < 2 ^ 32) : (w + 1).toNat = w.toNat + 1 := by
  have one : (1 : Word32).toNat = 1 := rfl
  rw [BitVec.toNat_add, one, Nat.mod_eq_of_lt (by omega)]

/-- Before the last byte of its field `CNT` counts on and stays in the field. -/
theorem toNat_succ_le {w : Word32} (k : Nat) (hle : w.toNat ≤ k) (hne : w ≠ BitVec.ofNat 32 k) (hk : k < 2 ^ 32 := by decide) :
    (w + 1).toNat = w.toNat + 1 ∧ w.toNat + 1 ≤ k := by
  have : w.toNat ≠ k := mt (toNat_eq_iff w k hk).1 hne
  exact ⟨toNat_succ (k := k) (by omega) hk, by omega⟩

theorem feTake_sig_byte_progress (p : Pending (b :: rest) s) (hf : s.fe.fst = .sig) (hc : s.fe.cnt.toNat ≤ 7)
    (hk : s.kOut = [])
    (hin : bs = signature.take s.fe.cnt.toNat ++ b :: rest) : ∃ t, feTake s = .next t ∧ Progress bs rest t := by
  refine ⟨_, feTake_sig_byte hf hc p.sIn, ?_⟩
  have at_cnt := signature_getElem? hc
  split_ifs with hb h7
  · refine .inl ⟨p.next rfl rfl rfl rfl, .len [] rfl (by simp) ⟨by simp [Inner], ?_, hk⟩⟩
    rw [h7] at hin at_cnt hb
    rw [hin, hb]; rfl
  · obtain ⟨hs, hle⟩ := toNat_succ_le 7 hc h7
    refine .inl ⟨p.next rfl rfl rfl rfl, .sig hf ?_ hk ?_⟩
    · rw [nextByte_cnt, popS_fe, hs]; exact hle
    · rw [nextByte_cnt, popS_fe, hs, List.take_add_one, at_cnt, ← hb, hin]; simp
  · refine .inr (rejectSignature_finished ?_)
    rw [hin]
    refine decodeContainer_badSignature hc ?_
    rw [at_cnt]
    simpa using hb

theorem feTake_len_byte_progress (p : Pending (b :: rest) s) (hf : s.fe.fst = .len) (hc : s.fe.cnt.toNat ≤ 3)
    (c : Consumed bs cs (lowBytes s.fe.cnt.toNat s.fe.len) [] (b :: rest) s) :
    ∃ t, feTake s = .next t ∧ Progress bs rest t := by
  refine ⟨_, feTake_len_byte hf p.sIn, .inl ?_⟩
  have hlow := lowBytes_shiftIn hc s.fe.len b
  split_ifs with h3
  · refine ⟨p.next rfl rfl rfl rfl, .type cs rfl (by simp) (c.next ?_ rfl)⟩
    rw [h3] at hlow ⊢
    simpa using hlow
  · obtain ⟨hs, hle⟩ := toNat_succ_le 3 hc h3
    refine ⟨p.next rfl rfl rfl rfl, .len cs hf ?_ (c.next ?_ rfl)⟩
    · rw [nextByte_cnt, shiftLen_cnt, popS_fe, hs]; exact hle
    · rw [nextByte_cnt, shiftLen_cnt, popS_fe, hs]; exact hlow

/-- The chunk record whose payload is `d` and whose trailing value ends with `b`. -/
def closedChunk (d : List Byte) (b : Byte) (s : State) : Chunk where
  length := s.fe.len
  typeTag := s.fe.type
  data := d
  trailing := shiftIn s.fe.trl b

theorem closedChunk_consistent {d : List Byte} (hd : d.length = s.fe.len.toNat) : (closedChunk d b s).consistent = true := by
  simp [Chunk.consistent, closedChunk, hd]

/-- With the fourth trailing byte the record in progress is a whole chunk (R139). -/
theorem Consumed.close {d : List Byte} (h3 : s.fe.cnt = 3)
    (c : Consumed bs cs (be32Bytes s.fe.len ++ be32Bytes s.fe.type ++ (d ++ lowBytes s.fe.cnt.toNat s.fe.trl))
      (.hdr s.fe.len s.fe.type :: d.map .pay) (b :: rest) s) :
    bs = containerBytes cs ++ encodeChunk (closedChunk d b s) ++ rest ∧
      s.kOut ++ [.trl (shiftIn s.fe.trl b)] = ((cs ++ [closedChunk d b s]).map chunkTokens).flatten := by
  have hlow := lowBytes_shiftIn (k := 3) (by decide) s.fe.trl b
  constructor
  · rw [encodeChunk, closedChunk, ← lowBytes_four (shiftIn _ _), hlow, c.input, h3]; simp
  · rw [c.kOut]; simp [chunkTokens, closedChunk]

/-- An `IHDR` chunk is selected without an error only with length 13 (R152). -/
theorem selectChunk_ihdr_len {n tag : Word32} {cls : ChunkClass} (hc : cls = .ihdr)
    (h : (selectChunk n tag (headerAction cls) s).fe.derr = .ok) : n = 13 := by
  subst hc
  simp only [selectChunk, enterField_derr, whenActive, headerAction, dHeaderIhdr] at h
  split_ifs at h with hd hv hl
  · cases h
  · cases h
  · exact not_not.1 hl
  · exact absurd h hd

/-- The selection of a chunk begins its payload, or its trailing value where it has none. -/
theorem selectChunk_position (p : Pending (b :: rest) s) (h3 : s.fe.cnt = 3)
    (c : Consumed bs cs (be32Bytes s.fe.len ++ lowBytes s.fe.cnt.toNat s.fe.type) [] (b :: rest) s) :
    let t := selectChunk s.fe.len (shiftIn s.fe.type b) (headerAction (classOf (shiftIn s.fe.type b))) (shiftType b (popS s))
    Pending rest t ∧ Position bs rest t := by
  intro t
  have framing : framerPart t = _ := framerPart_selectChunk ..
  simp only [framerPart, Prod.mk.injEq] at framing
  obtain ⟨⟨tfst, tcnt, tlen, ttype, -, tferr⟩, tsIn, tkOut, -, tkReady, tcReady⟩ := framing
  change t.fe.len = s.fe.len at tlen
  change t.fe.type = shiftIn s.fe.type b at ttype
  have hlow := lowBytes_shiftIn (k := 3) (by decide) s.fe.type b
  have consumed : Consumed bs cs (be32Bytes t.fe.len ++ be32Bytes t.fe.type) [.hdr t.fe.len t.fe.type] rest t := by
    refine ⟨c.inner, ?_, ?_⟩
    · rw [tlen, ttype, ← lowBytes_four (shiftIn _ _), hlow, c.input, h3]; simp
    · rw [tkOut, tlen, ttype]; simp [latchHeader, c.kOut]
  refine ⟨p.next tsIn tferr tkReady tcReady, ?_⟩
  by_cases h0 : s.fe.len = 0#32
  · refine .trail cs [] (by simpa [h0] using tfst) (by simp [tlen, h0]) (by simp [tcnt]) ?_
    simpa [tcnt] using consumed
  · refine .data cs [] (by simpa [h0] using tfst) (by simp [tcnt]) ?_ ?_ (by simpa using consumed)
    · rw [tcnt, tlen]
      exact Nat.pos_of_ne_zero fun e => h0 ((toNat_eq_iff _ 0 (by decide)).1 e)
    · rw [ttype, tlen]
      intro hcls hok
      exact selectChunk_ihdr_len hcls hok

theorem feTake_type_byte_progress (p : Pending (b :: rest) s) (hf : s.fe.fst = .type) (hc : s.fe.cnt.toNat ≤ 3)
    (c : Consumed bs cs (be32Bytes s.fe.len ++ lowBytes s.fe.cnt.toNat s.fe.type) [] (b :: rest) s) :
    ∃ t, feTake s = .next t ∧ Progress bs rest t := by
  refine ⟨_, feTake_type_byte hf p.sIn, .inl ?_⟩
  have hlow := lowBytes_shiftIn hc s.fe.type b
  split_ifs with h3
  · exact selectChunk_position p h3 c
  · obtain ⟨hs, hle⟩ := toNat_succ_le 3 hc h3
    refine ⟨p.next rfl rfl rfl rfl, .type cs hf ?_ (c.next ?_ rfl)⟩
    · rw [nextByte_cnt, shiftType_cnt, popS_fe, hs]; exact hle
    · rw [nextByte_cnt, shiftType_cnt, popS_fe, hs, List.append_assoc, ← hlow]; rfl

/-- After a payload byte the payload is longer by it, or complete (R137). -/
theorem afterPayload_position {d : List Byte} (p : Pending (b :: rest) s) (hf : s.fe.fst = .data)
    (hd : d.length = s.fe.cnt.toNat) (hc : s.fe.cnt.toNat < s.fe.len.toNat)
    (hi : classOf s.fe.type = .ihdr → s.fe.derr = .ok → s.fe.len = 13)
    (c : Consumed bs cs (be32Bytes s.fe.len ++ be32Bytes s.fe.type ++ d) (.hdr s.fe.len s.fe.type :: d.map .pay) (b :: rest) s)
    (hderr : s.fe.derr ≠ .ok → u.fe.derr = s.fe.derr)
    (framing : framerPart u = framerPart { s with
      sIn := s.sIn.tail, kOut := s.kOut ++ [.pay b], cOut := s.cOut ++ (cOffer s (.byte b)).toList }) :
    Pending rest (afterPayload u) ∧ Position bs rest (afterPayload u) := by
  simp only [framerPart, Prod.mk.injEq] at framing
  obtain ⟨⟨ufst, ucnt, ulen, utype, -, uferr⟩, usIn, ukOut, -, ukReady, ucReady⟩ := framing
  have consumed : ∀ v : State, v.kOut = u.kOut →
      Consumed bs cs (be32Bytes s.fe.len ++ be32Bytes s.fe.type ++ (d ++ [b]))
        (.hdr s.fe.len s.fe.type :: (d ++ [b]).map .pay) rest v :=
    fun v hv => ⟨c.inner, by rw [c.input]; simp, by rw [hv, ukOut, c.kOut]; simp⟩
  have hlast : s.fe.cnt = s.fe.len - 1 ↔ s.fe.cnt.toNat + 1 = s.fe.len.toNat := by constructor <;> intro h <;> bv_omega
  unfold afterPayload
  rw [ucnt, ulen]
  split_ifs with h
  · refine ⟨p.next usIn uferr ukReady ucReady, .trail cs (d ++ [b]) rfl ?_ (by simp) ?_⟩
    · simp [ulen, hd, hlast.1 h]
    · simpa [ulen, utype] using consumed (enterField .trail u) rfl
  · have hs : (s.fe.cnt + 1).toNat = s.fe.cnt.toNat + 1 := toNat_succ hc s.fe.len.isLt
    refine ⟨p.next usIn uferr ukReady ucReady, .data cs (d ++ [b]) (ufst.trans hf) ?_ ?_ ?_ ?_⟩
    · simp only [nextByte_cnt, ucnt, hs, List.length_append, hd, List.length_singleton]
    · have := mt hlast.2 h
      simp only [nextByte_cnt, nextByte_len, ucnt, ulen, hs]; omega
    · simp only [nextByte_type, nextByte_len, nextByte_derr, utype, ulen]
      intro hcls hok
      by_contra hne
      have hbad : s.fe.derr ≠ .ok := fun hok => hne (hi hcls hok)
      exact hbad (hderr hbad ▸ hok)
    · simpa [ulen, utype] using consumed (nextByte u) rfl

theorem feTake_data_byte_progress {d : List Byte} (p : Pending (b :: rest) s) (hf : s.fe.fst = .data)
    (hd : d.length = s.fe.cnt.toNat) (hc : s.fe.cnt.toNat < s.fe.len.toNat)
    (hi : classOf s.fe.type = .ihdr → s.fe.derr = .ok → s.fe.len = 13)
    (c : Consumed bs cs (be32Bytes s.fe.len ++ be32Bytes s.fe.type ++ d) (.hdr s.fe.len s.fe.type :: d.map .pay) (b :: rest) s) :
    ∃ t, feTake s = .next t ∧ Progress bs rest t := by
  obtain ⟨t, ht⟩ : ∃ t, feTake s = .next t := by
    refine feTake_data_answers hf p.sIn fun hcls hok => ?_
    have : s.fe.len.toNat = 13 := by rw [hi hcls hok]; rfl
    omega
  obtain ⟨u, rfl, hderr, framing⟩ := feTake_data_cases hf p.sIn ht
  exact ⟨_, ht, .inl (afterPayload_position p hf hd hc hi c hderr framing)⟩

theorem feTake_trail_byte_progress {d : List Byte} (p : Pending (b :: rest) s) (hf : s.fe.fst = .trail)
    (hd : d.length = s.fe.len.toNat) (hc : s.fe.cnt.toNat ≤ 3)
    (c : Consumed bs cs (be32Bytes s.fe.len ++ be32Bytes s.fe.type ++ (d ++ lowBytes s.fe.cnt.toNat s.fe.trl))
      (.hdr s.fe.len s.fe.type :: d.map .pay) (b :: rest) s) :
    ∃ t, feTake s = .next t ∧ Progress bs rest t := by
  refine ⟨_, feTake_trail_byte hf p.sIn, ?_⟩
  have whole := closedChunk_consistent (b := b) hd
  have hlow := lowBytes_shiftIn hc s.fe.trl b
  split_ifs with h3 hend
  · obtain ⟨hin, hk⟩ := c.close h3
    refine .inr (finished_of_chunks haltFE_fst (by simpa using p.ferr) ?_)
    rw [hin, decodeContainer_end c.inner whole ((classOf_eq_iend_iff _).1 hend), haltFE_kOut]
    change _ = Result.ok (chunksOf (s.kOut ++ [.trl (shiftIn s.fe.trl b)]))
    rw [hk, chunksOf_tokens]
    exact List.forall_mem_append.2 ⟨fun c' hc' => (c.inner c' hc').1, List.forall_mem_singleton.2 whole⟩
  · obtain ⟨hin, hk⟩ := c.close h3
    refine .inl ⟨p.next rfl rfl rfl rfl, .len (cs ++ [closedChunk d b s]) rfl (by simp) ⟨?_, ?_, ?_⟩⟩
    · exact List.forall_mem_append.2 ⟨c.inner, List.forall_mem_singleton.2 ⟨whole, mt (classOf_eq_iend_iff _).2 hend⟩⟩
    · rw [hin]; simp [containerBytes]
    · simpa using hk
  · obtain ⟨hs, hle⟩ := toNat_succ_le 3 hc h3
    refine .inl ⟨p.next rfl rfl rfl rfl, .trail cs d hf hd ?_ (c.next ?_ rfl)⟩
    · rw [nextByte_cnt, shiftTrl_cnt, popS_fe, hs]; exact hle
    · rw [nextByte_cnt, shiftTrl_cnt, popS_fe, hs, List.append_assoc _ _ [b], List.append_assoc d, ← hlow]; rfl

/-- A byte takes FE on, or ends its run. -/
theorem Position.byte (h : Position bs (b :: rest) s) (p : Pending (b :: rest) s) :
    ∃ t, feTake s = .next t ∧ Progress bs rest t := by
  cases h with
  | sig hf hc hk hin => exact feTake_sig_byte_progress p hf hc hk hin
  | len cs hf hc c => exact feTake_len_byte_progress p hf hc c
  | type cs hf hc c => exact feTake_type_byte_progress p hf hc c
  | data cs d hf hd hc hi c => exact feTake_data_byte_progress p hf hd hc hi c
  | trail cs d hf hd hc c => exact feTake_trail_byte_progress p hf hd hc c

/-! ### The whole run -/

theorem runFront_of_halted (n : Nat) (hf : s.fe.fst = .halt) : runFront n s = .next s := by
  have hold : feStep s = .next s := by
    by_cases he : feEnabled s = true
    · rw [feStep_of_enabled he, feTake, hf]
    · exact feStep_of_disabled (by simpa using he)
  induction n with
  | zero => rfl
  | succ n ih => rw [runFront, hold, andThen_next, ih]

/-- From any position in the input FE's turns over the rest and `SEos` finish it. -/
theorem runFront_finishes (h : Progress bs rest s) : ∃ t, runFront (rest.length + 1) s = .next t ∧ Finished bs t := by
  induction rest generalizing s with
  | nil =>
    rcases h with ⟨p, pos⟩ | done
    · refine ⟨endOfInput s, ?_, pos.endOfInput_finished p⟩
      rw [List.length_nil, runFront, p.feStep_eq pos.not_halted, feTake_eos p.sIn]
      rfl
    · exact ⟨s, runFront_of_halted _ done.1, done⟩
  | cons b rest ih =>
    rcases h with ⟨p, pos⟩ | done
    · obtain ⟨t, ht, progress⟩ := pos.byte p
      rw [List.length_cons, runFront, p.feStep_eq pos.not_halted, ht]
      exact ih progress
    · exact ⟨s, runFront_of_halted _ done.1, done⟩

/-- A call starts before the first byte of its input. -/
theorem callStart_progress (lb : Nat) (bs : List Byte) (turns : List Event) : Progress bs bs (callStart lb bs turns) :=
  .inl ⟨⟨rfl, rfl, rfl, rfl⟩, .sig rfl (Nat.zero_le _) rfl rfl⟩

end Sys2Proof.Machine

namespace Sys2Proof.Proofs.FramerFamily
open Sys2Proof.Machine Sys2Proof.Safety

/-- Settles O53: a call starts at a position in its input, every byte leads on to the next position or ends the run, and at `SEos` FE
halts with what `decode` gives. -/
theorem frontEndRunIsDecode : Obligations.FrontEndRunIsDecode := by
  intro lb bs
  obtain ⟨t, run, halted, result⟩ := runFront_finishes (callStart_progress lb bs [])
  exact ⟨t, run, halted, result⟩

/-- Settles O19: in its own chunk every chunk instruction takes the trailing step, which reads `TRL` only to emit it. -/
theorem trailingValueIsCarriedUnchecked : Obligations.TrailingValueIsCarriedUnchecked := by
  intro n t i cls s b more hi hf hcls _ hs v
  obtain ⟨len, tag, dh, dp, he⟩ := exec_chunkInstr hi
  have h3 := toNat_eq_iff s.fe.cnt 3 (by decide)
  have hv : shiftIn s.fe.trl b = v := shiftIn_eq_ofNat ..
  rw [he, chunkStep_trail _ _ _ _ hf hcls, trailingStep_byte _ hs, hv]
  by_cases h : s.fe.cnt = 3#32
  · by_cases hc : cls = .iend
    · simp [h, hc, haltFE_eq, emitK, shiftTrl, popS, hs, hv]
    · simp [h, hc, enterField, emitK, shiftTrl, popS, hs, hv]
  · simp [h, h3, nextByte, shiftTrl, popS, hs, hv]

/-- Settles O21: a halting move is `halt_FE`, and the invariant says that no `CEnd` was emitted before. -/
theorem haltingRunsEndCheckAndEmitsOneEnd : Obligations.HaltingRunsEndCheckAndEmitsOneEnd := by
  intro s t inv h hs ht
  obtain ⟨u, rfl, derr, descValid, cOut, cnt⟩ := (feStep_move h).halts hs ht
  have noEnd : CToken.cEnd ∉ s.cOut := by simpa [EndEmittedOnce, hs] using inv.endEmittedOnce
  refine ⟨?_, ?_, noEnd, ?_⟩
  · rw [haltFE_derr, haltFE_ferr, derr, descValid]
  · rw [haltFE_cOut, cOut]
  · rw [haltFE_cnt, cnt]

/-- Settles O46: FE's enabledness and its pins are the acceptance of the offered token, and an enabled step takes that token. -/
theorem frontEndTakesOneTokenPerStep : Obligations.FrontEndTakesOneTokenPerStep := by
  refine ⟨fun s => feStep_of_no_token, fun s tok more hs => ?_⟩
  have accepts := feEnabled_cons hs
  refine ⟨by rw [accepts]; exact feAccepts_iff s tok, feStep_of_disabled, fun he t h => ?_, ?_, ?_, ?_⟩
  · have hf : s.fe.fst ≠ .halt := ((feAccepts_iff s tok).1 (accepts ▸ he)).1
    rw [feStep_of_enabled he] at h
    simpa [Takes, hs] using feTake_takes hf hs h
  · simp [pins, hs, accepts]
  · simpa [pins, hs, accepts] using kDrives_iff s tok
  · simpa [pins, hs, accepts] using cDrives_iff s tok

/-- Settles O8: the step of `SIG` on a byte and on `SEos`, written out. -/
theorem signatureIsCheckedByteByByte : Obligations.SignatureIsCheckedByteByByte := by
  intro s more hf
  refine ⟨fun b hc hs => ?_, fun hs => ?_⟩
  · have h7 := toNat_eq_iff s.fe.cnt 7 (by decide)
    rw [exec, execSig_byte hf hc hs, rejectSignature_popS_eq hs]
    by_cases hb : b = signature.getD s.fe.cnt.toNat 0
    · rw [if_pos hb, if_pos hb]
      by_cases h : s.fe.cnt = 7#32
      · simp [h, enterField, popS, hs]
      · simp [h, h7, nextByte, popS, hs]
    · rw [if_neg hb, if_neg hb]
  · rw [exec, execSig_eos hf hs, rejectSignature_popS_eq hs]

/-- Settles O9: on a byte FE emits nothing, and on `SEos` only `CNT` tells the clean end from the cut field. -/
theorem lengthFieldIsAssembled : Obligations.LengthFieldIsAssembled := by
  intro s more hf _
  refine ⟨fun b hs => ?_, fun hs hc => ?_⟩
  · have h3 := toNat_eq_iff s.fe.cnt 3 (by decide)
    rw [feStep_silent (by simp [hf]) hs (by simp [kOffer, hf]) (by simp [cOffer, hf]), feTake_len_byte hf hs]
    by_cases h : s.fe.cnt = 3#32
    · simp [h, enterField, shiftLen, popS, hs, shiftIn_eq_ofNat]
    · simp [h, h3, nextByte, shiftLen, popS, hs, shiftIn_eq_ofNat, hf]
  · rw [feStep_eos (by simp [hf]) hs hc]
    simp only [endOfInput, hf]
    by_cases h : s.fe.cnt = 0#32
    · simp [h, haltFE_eq, popS, hs]
    · simp [h, truncateChunk_popS_eq hs]

/-- Settles O10: before the fourth byte FE emits nothing, and `SEos` cuts the field short. -/
theorem typeFieldIsAssembled : Obligations.TypeFieldIsAssembled := by
  intro s more hf _
  refine ⟨fun b hs h => ?_, fun hs hc => ?_⟩
  · have h3 : s.fe.cnt ≠ 3#32 := fun e => h (by simp [e])
    rw [feStep_silent (by simp [hf]) hs (by simp [kOffer, hf, h3]) (by simp [cOffer, hf]), feTake_type_byte hf hs]
    simp [h3, nextByte, shiftType, popS, hs, shiftIn_eq_ofNat]
  · rw [feStep_eos (by simp [hf]) hs hc]
    simp only [endOfInput, hf]
    rw [truncateChunk_popS_eq hs]

/-- Settles O20: the payload step and the trailing step answer `SEos` alike. -/
theorem inputEndInsideChunkIsTruncated : Obligations.InputEndInsideChunkIsTruncated := by
  intro n t i cls s more hi hf hcls hs
  obtain ⟨len, tag, dh, dp, he⟩ := exec_chunkInstr hi
  rw [he, ← truncateChunk_popS_eq hs]
  rcases hf with hf | hf
  · rw [chunkStep_data _ _ _ _ hf hcls, payloadStep_eos _ hs]
  · rw [chunkStep_trail _ _ _ _ hf hcls, trailingStep_eos _ hs]

end Sys2Proof.Proofs.FramerFamily
end

section
/-! PROOFS. The family `41_dispatch.md`: layer D. A header action is a judgement, which raises the context error or leaves the state
alone, so the step of the fourth type byte has one equation for all classes. A payload step is the advance on what the payload action
leaves, and the commit is the equation of `commitChannels`. -/

namespace Sys2Proof

/-! ### Colour types (R96) -/

/-- A byte outside the table is no colour type (R101 (c)). -/
theorem colourTypeOf_eq_none {b : Byte} (h : b.toNat ∉ [0, 2, 3, 4, 6]) : colourTypeOf b = Option.none := by
  have ne : ∀ k ∈ [0, 2, 3, 4, 6], b ≠ BitVec.ofNat 8 k := by
    rintro k hk rfl
    have small : k < 2 ^ 8 := by simp at hk; omega
    rw [BitVec.toNat_ofNat, Nat.mod_eq_of_lt small] at h
    exact h hk
  simp only [List.forall_mem_cons] at ne
  obtain ⟨h0, h2, h3, h4, h6, -⟩ := ne
  simp only [colourTypeOf, if_neg h0, if_neg h2, if_neg h3, if_neg h4, if_neg h6]

/-- A byte that decodes as a COLOUR_TYPE decodes to the row of its colour type. -/
theorem colourTypeOf_of_decode {b : Byte} {i : Instr} (h : decode .colourType [b] = .ok i []) :
    ∃ c, colourTypeOf b = some c ∧ i = c.instr := by
  cases hc : colourTypeOf b with
  | none => simp [decode, hc] at h
  | some c => exact ⟨c, rfl, by simpa [decode, hc, eq_comm] using h⟩

theorem colourTypeOf_of_reject {b : Byte} {r : Reject} (h : decode .colourType [b] = .reject r) :
    colourTypeOf b = Option.none := by
  cases hc : colourTypeOf b with
  | none => rfl
  | some c => simp [decode, hc] at h

end Sys2Proof

namespace Sys2Proof.Machine

variable {s : State} {b : Byte} {more : List SToken}

/-! ### Headers (R152 to R155) -/

theorem chunkStep_select (cls : ChunkClass) (n tag : Word32) (dh : State → State) (dp : Byte → State → Outcome)
    (hf : s.fe.fst = .type) (hc : s.fe.cnt = 3) : chunkStep cls n tag dh dp s = .next (selectChunk n tag dh s) := by
  simp only [chunkStep, hf, hc, if_true]

/-- The selection of a chunk whose header action raises the context error exactly under `p`. -/
theorem chunkStep_of_judgement {act : State → State} {p : State → Prop} [DecidablePred p]
    (judges : ∀ u, act u = if p u then raise .D .invalidChunkForContext u else u)
    (cls : ChunkClass) (n t : Word32) (dp : Byte → State → Outcome) (hf : s.fe.fst = .type) (hc : s.fe.cnt = 3) :
    chunkStep cls n t act dp s = .next { s with
      kOut := s.kOut ++ [.hdr n t]
      fe := { s.fe with
        len := n
        type := t
        fst := if n = 0 then .trail else .data
        cnt := 0
        derr :=
          if s.fe.derr = .ok ∧ p (emitK (.hdr n t) (latchHeader n t s)) then .invalidChunkForContext else s.fe.derr } } := by
  rw [chunkStep_select _ _ _ _ _ hf hc, selectChunk_eq, judges]
  by_cases hd : s.fe.derr = .ok
  · by_cases hp : p (emitK (.hdr n t) (latchHeader n t s))
    · rw [if_pos hd, if_pos hp, if_pos (And.intro hd hp)]; rfl
    · rw [if_pos hd, if_neg hp, if_neg (hp ∘ And.right)]; rfl
  · rw [if_neg hd, if_neg (hd ∘ And.left)]; rfl

theorem dHeaderIhdr_eq (s : State) :
    dHeaderIhdr s = if s.fe.descValid = true ∨ s.fe.len.toNat ≠ 13 then raise .D .invalidChunkForContext s else s := by
  have h13 := (toNat_eq_iff s.fe.len 13 (by decide)).not
  unfold dHeaderIhdr
  rw [← ite_or]
  exact if_congr (or_congr_right h13.symm) rfl rfl

theorem dHeaderIdat_eq (s : State) :
    dHeaderIdat s = if s.fe.descValid = false then raise .D .invalidChunkForContext s else s := by
  cases h : s.fe.descValid <;> simp [dHeaderIdat, h]

theorem dHeaderPlte_eq (s : State) :
    dHeaderPlte s =
      if s.fe.descValid = false ∨ s.fe.colorType.toNat = 0 ∨ s.fe.colorType.toNat = 4 ∨ s.fe.len.toNat % 3 ≠ 0
      then raise .D .invalidChunkForContext s else s := by
  have h0 := toNat_eq_iff s.fe.colorType 0 (by decide)
  have h4 := toNat_eq_iff s.fe.colorType 4 (by decide)
  unfold dHeaderPlte
  rw [← ite_or, ← ite_or]
  exact if_congr (by rw [h0, h4, or_assoc, or_assoc]; rfl) rfl rfl

/-! ### Payload bytes (R137, R160, R161) -/

/-- The advance after a payload byte inside the field. -/
theorem afterPayload_in_field (hf : s.fe.fst = .data) (hc : s.fe.cnt.toNat < s.fe.len.toNat) :
    afterPayload s = { s with
      fe := { s.fe with
        fst := if s.fe.cnt.toNat + 1 = s.fe.len.toNat then .trail else .data
        cnt := if s.fe.cnt.toNat + 1 = s.fe.len.toNat then 0 else s.fe.cnt + 1 } } := by
  have last : s.fe.cnt = s.fe.len - 1 ↔ s.fe.cnt.toNat + 1 = s.fe.len.toNat := by constructor <;> intro h <;> bv_omega
  simp only [afterPayload_eq, last, hf]

/-- A payload byte layer D does not look at goes to port K and nowhere else. -/
theorem payloadStep_opaque {act : Byte → State → Outcome} (hact : s.fe.derr = .ok → act = dPayloadNone)
    (hf : s.fe.fst = .data) (hc : s.fe.cnt.toNat < s.fe.len.toNat) (hs : s.sIn = .byte b :: more) :
    payloadStep act s = .next { s with
      sIn := more
      kOut := s.kOut ++ [.pay b]
      fe := { s.fe with
        fst := if s.fe.cnt.toNat + 1 = s.fe.len.toNat then .trail else .data
        cnt := if s.fe.cnt.toNat + 1 = s.fe.len.toNat then 0 else s.fe.cnt + 1 } } := by
  have action : (if s.fe.derr = .ok then act b (emitK (.pay b) (popS s)) else .next (emitK (.pay b) (popS s)))
      = .next (emitK (.pay b) (popS s)) := by
    split_ifs with hd
    · rw [hact hd]; rfl
    · rfl
  rw [payloadStep_byte _ hs, action, andThen_next, afterPayload_in_field (s := emitK _ (popS s)) hf hc]
  simp [emitK, popS, hs]

/-! ### The `IHDR` payload (R156) -/

/-- The first twelve bytes of the payload, each in its register. -/
theorem storeIhdrByte_eq {k : Nat} (hk : k ≤ 11) (b : Byte) (s : State) :
    storeIhdrByte k b s = { s with
      fe := { s.fe with
        width := if k ≤ 3 then shiftIn s.fe.width b else s.fe.width
        height := if 4 ≤ k ∧ k ≤ 7 then shiftIn s.fe.height b else s.fe.height
        bitDepth := if k = 8 then b else s.fe.bitDepth
        colorType := if k = 9 then b else s.fe.colorType
        compression := if k = 10 then b else s.fe.compression
        filterMeth := if k = 11 then b else s.fe.filterMeth } } := by
  interval_cases k <;> rfl

theorem commit_of_decode {i : Instr} (h : decode .colourType [s.fe.colorType] = .ok i []) : commit s = exec i s := by
  obtain ⟨c, hc, rfl⟩ := colourTypeOf_of_decode h
  unfold commit
  rw [hc]
  cases c <;> rfl

theorem commit_of_illegal (h : colourTypeOf s.fe.colorType = Option.none) :
    commit s = .next (raise .D .unsupportedColorType s) := by
  unfold commit
  rw [h]

/-- `FST`, `CNT` and `LEN` are not the commit's to change, so FE stands behind the payload afterwards. -/
theorem afterPayload_committed (hc : s.fe.cnt = 12) (hl : s.fe.len = 13) :
    afterPayload (committed s) = enterField .trail (committed s) := by
  have framing := framerPart_committed s
  simp only [framerPart, Prod.mk.injEq] at framing
  obtain ⟨⟨-, cnt, len, -⟩, -⟩ := framing
  unfold afterPayload
  rw [cnt, len, hc, hl]
  rfl

theorem storeInterlace_eq (hs : s.sIn = .byte b :: more) :
    storeIhdrByte 12 b (emitK (.pay b) (popS s))
      = { s with sIn := more, kOut := s.kOut ++ [.pay b], fe := { s.fe with interlace := b } } := by
  simp [storeIhdrByte, emitK, popS, hs]

/-- The step of payload byte 12. -/
theorem execIhdr_commit (n : Word32) (hf : s.fe.fst = .data) (ht : s.fe.type = ihdrTag) (hd : s.fe.derr = .ok)
    (hl : s.fe.len = 13) (hc : s.fe.cnt = 12) (hs : s.sIn = .byte b :: more) :
    exec (.ihdr n) s =
      andThen (commit (storeIhdrByte 12 b (emitK (.pay b) (popS s)))) (fun u => .next (enterField .trail u)) := by
  have stored : dPayloadIhdr b (emitK (.pay b) (popS s)) = commit (storeIhdrByte 12 b (emitK (.pay b) (popS s))) := by
    simp [dPayloadIhdr, hc]
  have hcls : classOf s.fe.type = .ihdr := by rw [ht, classOf_ihdrTag]
  have place : atCommit (storeIhdrByte 12 b (emitK (.pay b) (popS s))) := ⟨hf, hcls, hc, hd⟩
  rw [exec, execIhdr, chunkStep_data _ _ _ _ hf hcls, payloadStep_byte _ hs, if_pos hd, stored, commit_eq place, andThen_next,
    andThen_next, afterPayload_committed (by simpa using hc) (by simpa using hl)]

/-- The step of an earlier payload byte. -/
theorem execIhdr_store (n : Word32) (hf : s.fe.fst = .data) (ht : s.fe.type = ihdrTag) (hd : s.fe.derr = .ok)
    (hl : s.fe.len = 13) (hc : s.fe.cnt.toNat ≤ 11) (hs : s.sIn = .byte b :: more) :
    exec (.ihdr n) s = .next (nextByte (storeIhdrByte s.fe.cnt.toNat b (emitK (.pay b) (popS s)))) := by
  have h12 : s.fe.cnt ≠ 12 := by bv_omega
  have stored : dPayloadIhdr b (emitK (.pay b) (popS s))
      = .next (storeIhdrByte s.fe.cnt.toNat b (emitK (.pay b) (popS s))) :=
    (if_neg (show ¬ 12 < s.fe.cnt.toNat by omega)).trans (if_neg h12)
  have hcls : classOf s.fe.type = .ihdr := by rw [ht, classOf_ihdrTag]
  rw [exec, execIhdr, chunkStep_data _ _ _ _ hf hcls, payloadStep_byte _ hs, if_pos hd, stored, andThen_next]
  simp only [afterPayload, storeIhdrByte_cnt, storeIhdrByte_len, emitK_fe, popS_fe, hl]
  exact congrArg _ (if_neg h12)

/-! ### The commit (R157 to R159) -/

/-- The instructions and channel counts of R157's table are the COLOUR_TYPE rows. -/
theorem colourRow_of_mem {i : Instr} {c : Nat}
    (h : (i, c) ∈ [(Instr.gray, 1), (.rgb, 3), (.indexed, 1), (.graya, 2), (.rgba, 4)]) :
    ∃ ct : ColourType, i = ct.instr ∧ c = channels ct := by
  simp only [List.mem_cons, Prod.mk.injEq, List.not_mem_nil, or_false] at h
  rcases h with ⟨rfl, rfl⟩ | ⟨rfl, rfl⟩ | ⟨rfl, rfl⟩ | ⟨rfl, rfl⟩ | ⟨rfl, rfl⟩
  · exact ⟨.gray, rfl, rfl⟩
  · exact ⟨.rgb, rfl, rfl⟩
  · exact ⟨.indexed, rfl, rfl⟩
  · exact ⟨.graya, rfl, rfl⟩
  · exact ⟨.rgba, rfl, rfl⟩

theorem exec_colourInstr (c : ColourType) (s : State) : exec c.instr s = .next (commitHere (channels c) s) := by
  cases c <;> rfl

/-- All a commit does, with the derived quantities as naturals. -/
theorem commitChannels_eq (ct : ColourType) (s : State) :
    commitChannels (channels ct) s =
      if s.fe.interlace ≠ 0 then { s with fe := { s.fe with derr := .notImplemented } }
      else if s.lbBytes < bytesPerScanline s.fe.width (channels ct) s.fe.bitDepth then
        { storeDerived (channels ct) s with fe := { (storeDerived (channels ct) s).fe with derr := .lineBufferOverflow } }
      else { storeDerived (channels ct) s with fe := { (storeDerived (channels ct) s).fe with descValid := true } } := by
  obtain ⟨-, -, bpsFits⟩ := derived_lt s.fe.width ct s.fe.bitDepth
  have bps : (storeDerived (channels ct) s).fe.bps.toNat = bytesPerScanline s.fe.width (channels ct) s.fe.bitDepth := by
    rw [storeDerived_bps, BitVec.toNat_ofNat, Nat.mod_eq_of_lt bpsFits]
  unfold commitChannels checkCapacity
  rw [bps]
  rfl

/-- With whole bytes per sample a row is `WIDTH` whole pixels. -/
theorem bytesPerScanline_eq_mul {bitDepth : Byte} (h : bitDepth = 8 ∨ bitDepth = 16) (width : Word32) (c : Nat) :
    bytesPerScanline width c bitDepth = width.toNat * bytesPerPixel c bitDepth := by
  have whole : ∀ x, ceilDiv8 (x * 8) = x ∧ ceilDiv8 (x * 16) = x * 2 := by intro x; unfold ceilDiv8; omega
  unfold bytesPerScanline bytesPerPixel
  rcases h with rfl | rfl
  · exact (whole _).1.trans (congrArg _ (whole c).1.symm)
  · exact (whole _).2.trans ((Nat.mul_assoc ..).trans (congrArg _ (whole c).2.symm))

/-- A row with bytes has pixels with bytes. -/
theorem bytesPerPixel_pos {width : Word32} {c : Nat} {bitDepth : Byte} (h : 0 < bytesPerScanline width c bitDepth) :
    1 ≤ bytesPerPixel c bitDepth := by
  have pos : c * bitDepth.toNat ≠ 0 := by
    intro e
    simp [bytesPerScanline, Nat.mul_assoc, e, ceilDiv8] at h
  unfold bytesPerPixel ceilDiv8
  omega

end Sys2Proof.Machine

namespace Sys2Proof.Proofs.DispatchFamily
open Sys2Proof.Machine

/-- Settles O16: the five rows run `commitChannels` in place, and an illegal byte ends the step of byte 12 in `raise`. -/
theorem colourTypeCommitsTheDescriptor : Obligations.ColourTypeCommitsTheDescriptor := by
  refine ⟨fun i c hi s hf ht hc hd => ?_, fun n s b more hf ht hd hl hc hs hbad => ?_⟩
  · obtain ⟨ct, rfl, rfl⟩ := colourRow_of_mem hi
    obtain ⟨-, bppFits, bpsFits⟩ := derived_lt s.fe.width ct s.fe.bitDepth
    have place : atCommit s := ⟨hf, by rw [ht]; exact classOf_ihdrTag, hc, hd⟩
    refine ⟨bppFits, bpsFits, fun h => bytesPerScanline_eq_mul h .., bytesPerPixel_pos, ?_⟩
    rw [exec_colourInstr, commitHere, if_pos place, commitChannels_eq]
    rfl
  · rw [execIhdr_commit n hf ht hd hl hc hs,
      commit_of_illegal (s := storeIhdrByte 12 b (emitK _ (popS s))) (colourTypeOf_eq_none hbad)]
    exact ⟨_, rfl, rfl, rfl, rfl, rfl, rfl⟩

/-- Settles O4: a tag is one of the four, each of its own class, or differs from all of them. -/
theorem chunkClassIsExactTagComparison : Obligations.ChunkClassIsExactTagComparison := by
  intro t
  rcases classOf_cases t with ⟨rfl, -⟩ | ⟨rfl, -⟩ | ⟨rfl, -⟩ | ⟨rfl, -⟩ | h
  · decide
  · decide
  · decide
  · decide
  · have differs := (other_wf_iff 0 t).2 h
    simp only [Instr.wf, Bool.and_eq_true, bne_iff_ne] at differs
    simp [h, differs]

/-- Settles O11: the judgement of `dHeaderIhdr` (R152). -/
theorem ihdrHeaderIsChecked : Obligations.IhdrHeaderIsChecked := by
  intro n s hf hc
  exact chunkStep_of_judgement dHeaderIhdr_eq .ihdr n _ _ hf hc

/-- Settles O12: the judgement of `dHeaderIdat` (R153). -/
theorem idatHeaderNeedsDescriptor : Obligations.IdatHeaderNeedsDescriptor := by
  intro n s hf hc
  exact chunkStep_of_judgement dHeaderIdat_eq .idat n _ _ hf hc

/-- Settles O13: the judgement of `dHeaderPlte` (R154). -/
theorem plteHeaderIsJudgedInContext : Obligations.PlteHeaderIsJudgedInContext := by
  intro n s hf hc
  exact chunkStep_of_judgement dHeaderPlte_eq .plte n _ _ hf hc

/-- Settles O14: `IEND` and `OTHER` share the header action that never raises (R155). -/
theorem opaqueHeaderChangesNoDescriptorState : Obligations.OpaqueHeaderChangesNoDescriptorState := by
  intro n t s hf hc
  have never : ∀ u, dHeaderNone u = if False then raise .D .invalidChunkForContext u else u := fun _ => rfl
  constructor
  · rw [exec, execIend, chunkStep_of_judgement never _ _ _ _ hf hc]
    simp only [and_false, if_false]; rfl
  · rw [exec, execOther, chunkStep_of_judgement never _ _ _ _ hf hc]
    simp only [and_false, if_false]

/-- Settles O15: the store of an earlier byte, and the commit of byte 12 on either decoding. -/
theorem ihdrPayloadFillsTheDescriptor : Obligations.IhdrPayloadFillsTheDescriptor := by
  intro n s b more hf ht hd hl _ hs
  refine ⟨fun hc => ?_, fun hc => ?_⟩
  · rw [execIhdr_store n hf ht hd hl hc hs, storeIhdrByte_eq hc]
    simp [nextByte, emitK, popS, hs, shiftIn_eq_ofNat]
  · have h12 := (toNat_eq_iff s.fe.cnt 12 (by decide)).1 hc
    rw [execIhdr_commit n hf ht hd hl h12 hs]
    constructor
    · intro i hi
      rw [commit_of_decode (s := storeIhdrByte 12 b (emitK _ (popS s))) hi, storeInterlace_eq hs]
      rfl
    · intro r hr
      rw [commit_of_illegal (s := storeIhdrByte 12 b (emitK _ (popS s))) (colourTypeOf_of_reject hr), storeInterlace_eq hs]
      rfl

/-- Settles O17: the forwarded byte is appended to C before the advance, which does not look at C. -/
theorem idatPayloadIsForwarded : Obligations.IdatPayloadIsForwarded := by
  intro n s b more hf ht hc hs
  have hcls : classOf s.fe.type = .idat := by rw [ht]; exact classOf_idatTag
  rw [exec, execIdat, chunkStep_data _ _ _ _ hf hcls]
  by_cases hd : s.fe.derr = .ok
  · rw [payloadStep_byte _ hs, if_pos hd, if_pos hd, dPayloadIdat, andThen_next,
      afterPayload_in_field (s := emitC _ (emitK _ (popS s))) hf hc]
    simp [emitC, emitK, popS, hs]
  · rw [payloadStep_opaque (absurd · hd) hf hc hs, if_neg hd]

/-- Settles O18: the payload action is the empty one, or layer D is inactive. -/
theorem opaquePayloadGoesToPortKOnly : Obligations.OpaquePayloadGoesToPortKOnly := by
  intro n t i cls s b more hi hf hcls hc hs
  simp only [List.mem_cons, Prod.mk.injEq, List.not_mem_nil, or_false] at hi
  rcases hi with (⟨rfl, rfl⟩ | ⟨rfl, rfl⟩ | ⟨rfl, rfl⟩) | ⟨rfl, rfl, hd⟩ <;>
    refine (chunkStep_data _ _ _ _ hf hcls).trans (payloadStep_opaque (fun active => ?_) hf hc hs)
  · rfl
  · rfl
  · rfl
  · exact absurd active hd

end Sys2Proof.Proofs.DispatchFamily
end

section
/-! PROOFS. The family `42_unfilter.md`: the predictors in naturals (R180 to R186), what Paeth picks (R192), and a row of PU steps as the
whole-row function (R189). A row is read left to right: `InRow` says what PU has made of the bytes it has taken, and each byte
either extends that or ends the row. -/

namespace Sys2Proof.Machine
open Sys2Proof.Safety

/-! ### Paeth (R186, R192) -/

/-- The distance of `v` from `a + b - c` (R186). -/
def paethDistance (a b c v : Byte) : Nat := distance ((a.toNat : Int) + b.toNat - c.toNat) v.toNat

theorem paethDistance_left (a b c : Byte) : paethDistance a b c a = ((b.toNat : Int) - c.toNat).natAbs :=
  congrArg Int.natAbs (by omega)

theorem paethDistance_up (a b c : Byte) : paethDistance a b c b = ((a.toNat : Int) - c.toNat).natAbs :=
  congrArg Int.natAbs (by omega)

theorem paethDistance_upLeft (a b c : Byte) :
    paethDistance a b c c = ((a.toNat : Int) + b.toNat - 2 * c.toNat).natAbs :=
  congrArg Int.natAbs (by omega)

theorem paeth_eq (a b c : Byte) :
    paeth a b c =
      if paethDistance a b c a ≤ paethDistance a b c b ∧ paethDistance a b c a ≤ paethDistance a b c c then a
      else if paethDistance a b c b ≤ paethDistance a b c c then b else c := rfl

theorem paeth_eq_left {a b c : Byte} (hb : paethDistance a b c a ≤ paethDistance a b c b)
    (hc : paethDistance a b c a ≤ paethDistance a b c c) : paeth a b c = a := if_pos ⟨hb, hc⟩

theorem paeth_eq_up {a b c : Byte}
    (ha : ¬ (paethDistance a b c a ≤ paethDistance a b c b ∧ paethDistance a b c a ≤ paethDistance a b c c))
    (hc : paethDistance a b c b ≤ paethDistance a b c c) : paeth a b c = b := (if_neg ha).trans (if_pos hc)

theorem paeth_eq_upLeft {a b c : Byte}
    (ha : ¬ (paethDistance a b c a ≤ paethDistance a b c b ∧ paethDistance a b c a ≤ paethDistance a b c c))
    (hb : ¬ paethDistance a b c b ≤ paethDistance a b c c) : paeth a b c = c := (if_neg ha).trans (if_neg hb)

theorem paeth_is_argument (a b c : Byte) : paeth a b c = a ∨ paeth a b c = b ∨ paeth a b c = c := by
  rw [paeth_eq]
  split_ifs
  · exact .inl rfl
  · exact .inr (.inl rfl)
  · exact .inr (.inr rfl)

theorem paeth_nearest (a b c : Byte) {v : Byte} (hv : v ∈ [a, b, c]) :
    paethDistance a b c (paeth a b c) ≤ paethDistance a b c v := by
  simp only [List.mem_cons, List.not_mem_nil, or_false] at hv
  rw [paeth_eq]
  split_ifs with left up <;> rcases hv with rfl | rfl | rfl <;> omega

/-- With `b = c` the left neighbour is at distance 0 (R192 (b)). -/
theorem paeth_of_up_eq_upLeft (a b : Byte) : paeth a b b = a := by
  have zero : paethDistance a b b a = 0 := by rw [paethDistance_left]; omega
  exact paeth_eq_left (by omega) (by omega)

/-- With `a = c` the upper neighbour is at distance 0, and the left one is not unless they are equal (R192 (c)). -/
theorem paeth_of_left_eq_upLeft {a b : Byte} (h : a ≠ b) : paeth a b a = b := by
  have zero : paethDistance a b a b = 0 := by rw [paethDistance_up]; omega
  have pos : paethDistance a b a a ≠ 0 := by
    have ne : a.toNat ≠ b.toNat := mt BitVec.eq_of_toNat_eq h
    rw [paethDistance_left]
    omega
  exact paeth_eq_up (by omega) (by omega)

/-! ### The predictor (R180) -/

/-- The byte a filter type predicts from the neighbours (R180). -/
def predicted : FilterType → Neighbours → Byte
  | .none, _ => 0
  | .sub, n => n.a
  | .up, n => n.b
  | .avg, n => average n.a n.b
  | .paeth, n => paeth n.a n.b n.c

theorem recon_eq_add (f : FilterType) (x : Byte) (n : Neighbours) : recon f x n = x + predicted f n := by
  cases f with
  | none => exact (BitVec.add_zero x).symm
  | sub | up | avg | paeth => rfl

/-- The mean of two bytes is a byte. -/
theorem toNat_average (a b : Byte) : (average a b).toNat = (a.toNat + b.toNat) / 2 := by
  have fits : (a.toNat + b.toNat) / 2 < 2 ^ 8 := by
    have := a.isLt
    have := b.isLt
    omega
  rw [average, BitVec.toNat_ofNat, Nat.mod_eq_of_lt fits]

theorem toNat_paeth (a b c : Byte) : (paeth a b c).toNat = nearest a.toNat b.toNat c.toNat := by
  rw [paeth_eq, paethDistance_left, paethDistance_up, paethDistance_upLeft, apply_ite BitVec.toNat, apply_ite BitVec.toNat]
  rfl

theorem toNat_predicted (f : FilterType) (n : Neighbours) :
    (predicted f n).toNat = predictor f n.a.toNat n.b.toNat n.c.toNat := by
  cases f with
  | none | sub | up => rfl
  | avg => exact toNat_average ..
  | paeth => exact toNat_paeth ..

theorem predictor_le (f : FilterType) (n : Neighbours) : predictor f n.a.toNat n.b.toNat n.c.toNat ≤ 255 := by
  rw [← toNat_predicted]
  exact Nat.le_of_lt_succ (predicted f n).isLt

theorem toNat_recon (f : FilterType) (x : Byte) (n : Neighbours) :
    (recon f x n).toNat = (x.toNat + predictor f n.a.toNat n.b.toNat n.c.toNat) % 256 := by
  rw [recon_eq_add, BitVec.toNat_add, toNat_predicted]

/-! ### One row byte (R204) -/

variable {s t : State} {x : Byte} {xs before out row : List Byte} {more : List ZToken}

/-- All a row byte does, its token already consumed. -/
theorem reconstruct_eq (f : Byte → Neighbours → Byte) (x : Byte) (s : State) :
    reconstruct f x s = { s with
      pOut := s.pOut ++ [{ b := f x (neighbours s), eol := lastOfRow s }]
      pu := { s.pu with
        cur := LineBuffer.write s.pu.cur s.pu.col.toNat (f x (neighbours s))
        prev :=
          if lastOfRow s then
            LineBuffer.copyBelow s.fe.bps.toNat (LineBuffer.write s.pu.cur s.pu.col.toNat (f x (neighbours s))) s.pu.prev
          else s.pu.prev
        row := if lastOfRow s then s.pu.row + 1 else s.pu.row
        col := if lastOfRow s then s.pu.col else s.pu.col + 1
        pst := if lastOfRow s then (if s.pu.row + 1 = s.fe.height then .tail else .filt) else s.pu.pst } } := by
  unfold reconstruct
  cases lastOfRow s <;> rfl

theorem puStep_rowByte (hp : s.pu.pst = .data) (hr : s.pReady = true) (hz : s.zIn = .byte x :: more)
    (hl : s.pu.col.toNat < s.lbBytes) : puStep s = .next (reconstruct (recon s.pu.ft) x (popZ s)) := by
  have enabled : puEnabled s = true := by simp [puEnabled, puAccepts, hp, hz, hr]
  rw [puStep, if_pos enabled, puTake, hp]
  simp only [exec_filterInstr, filterStep, hp, if_true, rowStep, hz, if_neg (Nat.not_le.2 hl)]

/-! ### Rows as lists (R189) -/

/-- The previous row of R189: none for row 0, else the row's bytes of `PREV`. -/
def previousRow (s : State) : Option (List Byte) :=
  if s.pu.row = 0 then Option.none else some ((List.range s.fe.bps.toNat).map (LineBuffer.read s.pu.prev))

/-- PU's neighbours are those of R189, where `CUR` holds the bytes made so far. A stride of 0 would read `CUR` at the byte not yet
made. -/
theorem neighbours_eq_listNeighbours (hcol : s.pu.col.toNat = out.length) (hrow : out.length < s.fe.bps.toNat)
    (hbpp : 1 ≤ s.fe.bpp.toNat) (hcur : ∀ j < out.length, LineBuffer.read s.pu.cur j = out.getD j 0) :
    neighbours s = listNeighbours out (previousRow s) s.fe.bpp.toNat out.length := by
  have left : (if s.fe.bpp.toNat ≤ out.length then LineBuffer.read s.pu.cur (out.length - s.fe.bpp.toNat) else 0)
      = if s.fe.bpp.toNat ≤ out.length then out.getD (out.length - s.fe.bpp.toNat) 0 else 0 := by
    split_ifs
    · exact hcur _ (by omega)
    · rfl
  unfold neighbours listNeighbours
  simp only [hcol, left]
  by_cases first : s.pu.row = 0
  · simp only [previousRow, first, ne_eq, not_true_eq_false, false_and, if_true, if_false]
  · have above : ∀ j < s.fe.bps.toNat,
        ((List.range s.fe.bps.toNat).map (LineBuffer.read s.pu.prev)).getD j 0 = LineBuffer.read s.pu.prev j :=
      fun j hj => by simp [hj]
    simp only [previousRow, first, ne_eq, not_false_eq_true, true_and, if_true, if_false, above _ hrow,
      above (out.length - s.fe.bpp.toNat) (by omega)]

theorem unfilterLoop_length (f : FilterType) (prev : Option (List Byte)) (bpp : Nat) (xs out : List Byte) :
    (unfilterLoop f prev bpp xs out).length = out.length + xs.length := by
  induction xs generalizing out with
  | nil => rfl
  | cons x xs ih =>
    rw [unfilterLoop, ih, List.length_append, List.length_singleton, List.length_cons]
    omega

theorem filterTypeOf_byte (f : FilterType) : filterTypeOf f.byte = some f := by cases f <;> rfl

/-- In a row the stride and the row have bytes, and the row fits. -/
theorem inRow_bounds (inv : Inv s) (hp : s.pu.pst = .data) :
    1 ≤ s.fe.bpp.toNat ∧ s.fe.bps.toNat ≤ s.lbBytes ∧ 0 < s.fe.bps.toNat := by
  have started := inv.planeStarted
  have inImage := inv.rowInImage
  simp only [PlaneStarted, RowInImage, hp] at started inImage
  obtain ⟨-, fits, derived⟩ := inv.descriptorSound started
  split at derived
  · obtain ⟨-, bpp, bps⟩ := derived
    have pos : 0 < s.fe.bps.toNat := Nat.zero_lt_of_lt inImage.2
    exact ⟨bpp ▸ bytesPerPixel_pos (bps ▸ pos), fits, pos⟩
  · exact derived.elim

/-! ### A row of PU steps (R189) -/

/-- PU is inside a row: it has made the bytes `out` of it, which `CUR` holds and which follow the bytes `before` on port P; the filtered
bytes `xs` are still to come, on offer before `more`. -/
structure InRow (before out xs : List Byte) (more : List ZToken) (s : State) : Prop where
  pst : s.pu.pst = .data
  pReady : s.pReady = true
  bpp : 1 ≤ s.fe.bpp.toNat
  fits : s.fe.bps.toNat ≤ s.lbBytes
  canonical : LineBuffer.wf s.pu.cur = true
  zIn : s.zIn = xs.map .byte ++ more
  col : s.pu.col.toNat = out.length
  bps : s.fe.bps.toNat = out.length + xs.length
  cur : ∀ j < out.length, LineBuffer.read s.pu.cur j = out.getD j 0
  pOut : s.pOut.map PToken.b = before ++ out

/-- From `s`, PU has ended the row it was in (R205): the row's bytes follow `before` on port P and stand in `PREV`. -/
structure RowEnded (before row : List Byte) (more : List ZToken) (s t : State) : Prop where
  zIn : t.zIn = more
  pOut : t.pOut.map PToken.b = before ++ row
  rowCount : t.pu.row = s.pu.row + 1
  pst : t.pu.pst = if s.pu.row + 1 = s.fe.height then .tail else .filt
  prev : ∀ j < s.fe.bps.toNat, LineBuffer.read t.pu.prev j = row.getD j 0

/-- What a byte that does not end the row leaves alone, and R189 looks at. -/
structure SameRow (s t : State) : Prop where
  fe : t.fe = s.fe
  ft : t.pu.ft = s.pu.ft
  rowCount : t.pu.row = s.pu.row
  prev : t.pu.prev = s.pu.prev

theorem SameRow.previousRow_eq (h : SameRow s t) : previousRow t = previousRow s := by
  rw [previousRow, h.fe, h.rowCount, h.prev, ← previousRow]

theorem SameRow.rowEnded {u : State} (h : SameRow s u) (e : RowEnded before row more u t) : RowEnded before row more s t where
  zIn := e.zIn
  pOut := e.pOut
  rowCount := h.rowCount ▸ e.rowCount
  pst := h.rowCount ▸ h.fe ▸ e.pst
  prev := h.fe ▸ e.prev

/-- The byte R189 makes of `x` behind the bytes `out` of PU's row. -/
def nextRowByte (s : State) (out : List Byte) (x : Byte) : Byte :=
  recon s.pu.ft x (listNeighbours out (previousRow s) s.fe.bpp.toNat out.length)

namespace InRow

theorem col_lt (h : InRow before out (x :: xs) more s) : s.pu.col.toNat < s.fe.bps.toNat := by
  rw [h.col, h.bps, List.length_cons]
  omega

theorem neighbours_eq (h : InRow before out (x :: xs) more s) :
    neighbours s = listNeighbours out (previousRow s) s.fe.bpp.toNat out.length :=
  neighbours_eq_listNeighbours h.col (h.col ▸ h.col_lt) h.bpp h.cur

theorem puStep_eq (h : InRow before out (x :: xs) more s) :
    puStep s = .next (reconstruct (recon s.pu.ft) x (popZ s)) :=
  puStep_rowByte h.pst h.pReady h.zIn (h.col_lt.trans_le h.fits)

theorem lastOfRow_iff (h : InRow before out (x :: xs) more s) : lastOfRow (popZ s) = true ↔ xs = [] := by
  have e := h.bps
  rw [List.length_cons] at e
  rw [lastOfRow, decide_eq_true_iff, popZ_pu, popZ_fe, h.col, e, ← List.length_eq_zero_iff]
  omega

/-- After the step `CUR` holds one byte more. -/
theorem cur_reconstruct (h : InRow before out (x :: xs) more s) :
    ∀ j < (out ++ [nextRowByte s out x]).length,
      LineBuffer.read (reconstruct (recon s.pu.ft) x (popZ s)).pu.cur j = (out ++ [nextRowByte s out x]).getD j 0 := by
  intro j hj
  rw [List.length_append, List.length_singleton] at hj
  rw [(reconstruct_read _ x (popZ s) h.canonical j).1, popZ_pu, h.col]
  split_ifs with last
  · rw [last, List.getD_append_right _ _ _ _ le_rfl, Nat.sub_self]
    exact congrArg (recon s.pu.ft x) h.neighbours_eq
  · rw [h.cur j (by omega), List.getD_append _ _ _ _ (by omega)]

theorem pOut_reconstruct (h : InRow before out (x :: xs) more s) :
    (reconstruct (recon s.pu.ft) x (popZ s)).pOut.map PToken.b = before ++ (out ++ [nextRowByte s out x]) := by
  rw [reconstruct_eq, List.map_append, popZ_pOut, h.pOut, List.append_assoc]
  exact congrArg (fun n => before ++ (out ++ [recon s.pu.ft x n])) h.neighbours_eq

/-- The last byte of a row ends it. -/
theorem rowEnded (h : InRow before out [x] more s) :
    RowEnded before (out ++ [nextRowByte s out x]) more s (reconstruct (recon s.pu.ft) x (popZ s)) where
  zIn := by rw [reconstruct_eq, popZ_zIn, h.zIn]; rfl
  pOut := h.pOut_reconstruct
  rowCount := by rw [reconstruct_eq, h.lastOfRow_iff.2 rfl]; rfl
  pst := by rw [reconstruct_eq, h.lastOfRow_iff.2 rfl]; rfl
  prev j hj := by
    rw [(reconstruct_read _ x (popZ s) h.canonical j).2, if_pos ⟨h.lastOfRow_iff.2 rfl, hj⟩]
    refine h.cur_reconstruct j ?_
    rw [List.length_append, List.length_singleton]
    exact h.bps ▸ hj

/-- Any other byte leaves PU in the row, one byte further. -/
theorem next {y : Byte} (h : InRow before out (x :: y :: xs) more s) :
    InRow before (out ++ [nextRowByte s out x]) (y :: xs) more (reconstruct (recon s.pu.ft) x (popZ s)) ∧
      SameRow s (reconstruct (recon s.pu.ft) x (popZ s)) := by
  have inner : lastOfRow (popZ s) = false := by
    rw [← Bool.not_eq_true, h.lastOfRow_iff]
    exact List.cons_ne_nil y xs
  have step := reconstruct_eq (recon s.pu.ft) x (popZ s)
  rw [inner] at step
  have bps : s.fe.bps.toNat = (out ++ [nextRowByte s out x]).length + (y :: xs).length := by
    rw [h.bps, List.length_append, List.length_cons, List.length_singleton]
    omega
  have col : (s.pu.col + 1).toNat = (out ++ [nextRowByte s out x]).length := by
    have lt := h.col_lt
    have fits := s.fe.bps.isLt
    have one : (1 : Word39).toNat = 1 := rfl
    rw [BitVec.toNat_add_of_lt (by omega), h.col, List.length_append]
    rfl
  exact ⟨{
    pst := by rw [step]; exact h.pst
    pReady := by rw [step]; exact h.pReady
    bpp := by rw [step]; exact h.bpp
    fits := by rw [step]; exact h.fits
    canonical := by rw [step]; exact LineBuffer.wf_write _ _ _ h.canonical
    zIn := by rw [step, popZ_zIn, h.zIn]; rfl
    col := by rw [step]; exact col
    bps := by rw [step]; exact bps
    cur := h.cur_reconstruct
    pOut := h.pOut_reconstruct }, by rw [step]; exact ⟨rfl, rfl, rfl, rfl⟩⟩

end InRow

/-- PU's turns over the rest of a row make the rest of the bytes of R189 and end the row. -/
theorem runPlane_row (h : InRow before out (x :: xs) more s) :
    ∃ t, runPlane (x :: xs).length s = .next t ∧
      RowEnded before (unfilterLoop s.pu.ft (previousRow s) s.fe.bpp.toNat (x :: xs) out) more s t := by
  induction xs generalizing s x out with
  | nil => exact ⟨_, by rw [List.length_singleton, runPlane, h.puStep_eq]; rfl, h.rowEnded⟩
  | cons y xs ih =>
    obtain ⟨inside, same⟩ := h.next
    obtain ⟨t, run, ended⟩ := ih inside
    refine ⟨t, by rw [List.length_cons, runPlane, h.puStep_eq]; exact run, ?_⟩
    have made := same.rowEnded ended
    rw [same.ft, same.fe, same.previousRow_eq] at made
    exact made

end Sys2Proof.Machine

namespace Sys2Proof.Proofs.UnfilterFamily
open Sys2Proof.Machine Sys2Proof.Safety

/-- Settles O52: a state at the first byte of a row is inside it with nothing made, and `runPlane_row` goes to its end. The stride is at
least 1 because the row has a byte. -/
theorem rowOfStepsIsUnfilter : Obligations.RowOfStepsIsUnfilter := by
  intro s xs more inv hp hcol hr hlen hz
  obtain ⟨bpp, fits, bps⟩ := inRow_bounds inv hp
  obtain ⟨-, canonical, -, -⟩ := inv.buffersCanonical
  have h : InRow (s.pOut.map PToken.b) [] xs more s :=
    { pst := hp, pReady := hr, bpp := bpp, fits := fits, canonical := canonical, zIn := hz
      col := by rw [hcol]; rfl
      bps := by simp [hlen]
      cur := fun j hj => absurd hj (Nat.not_lt_zero j)
      pOut := (List.append_nil _).symm }
  obtain ⟨x, xs, rfl⟩ := List.exists_cons_of_length_pos (hlen ▸ bps)
  obtain ⟨t, run, ended⟩ := runPlane_row h
  refine ⟨t, _, run, ?_, ?_, ended.pOut, ended.zIn, ended.rowCount, ended.pst, fun j hj => ended.prev j (hlen ▸ hj)⟩
  · rw [unfilter, filterTypeOf_byte, hlen]; rfl
  · rw [unfilterLoop_length, List.length_nil, Nat.zero_add]

/-- Settles O27: every reversal adds the predicted byte, whose value is the predictor in naturals. -/
theorem reversalAddsPredictorModulo256 : Obligations.ReversalAddsPredictorModulo256 :=
  ⟨fun f x n => ⟨predictor_le f n, toNat_recon f x n⟩, fun _ _ => (by decide : (255 : Byte) + 255 = 254),
    fun _ => (by decide : (255 : Byte) + average 255 255 = 254), rfl⟩

/-- Settles O28: the branches of the predictor in terms of the three distances; the triples by evaluation. -/
theorem paethPicksOneOfItsNeighbours : Obligations.PaethPicksOneOfItsNeighbours :=
  ⟨fun _ _ _ => ⟨paeth_eq_left, paeth_eq_up, paeth_eq_upLeft⟩, rfl, rfl, paeth_is_argument, paeth_of_up_eq_upLeft,
    fun _ _ => paeth_of_left_eq_upLeft, rfl, rfl, rfl, rfl, rfl, fun a b c _ => paeth_nearest a b c⟩

end Sys2Proof.Proofs.UnfilterFamily
end

section
/-! PROOFS. The family `43_plane.md`: PU's steps on an offered token (R201 to R210), and PU's run over a Z stream as the row loop of
layer P (R215). The run is read row by row: `BeforeRow` says where PU stands between two rows, and the next row ends the run, cut
short or with an illegal type, or leads to the same place one row on. -/

namespace Sys2Proof.Machine
open Sys2Proof.Safety

variable {s t : State} {b x : Byte} {tok last : ZToken} {more : List ZToken} {f : FilterType} {q : PState}

/-! ### The turns (R201 to R210) -/

theorem popZ_eq (hz : s.zIn = tok :: more) : popZ s = { s with zIn := more } := by
  rw [popZ, hz, List.tail_cons]

/-- A turn in `P_WAIT` is the step of R201: where PU is not enabled, that step holds. -/
theorem puStep_wait (hp : s.pu.pst = .wait) : puStep s = .next (startStep s) := by
  cases hd : s.fe.descValid with
  | true => simp [puStep, puEnabled, puTake, hp, hd]
  | false =>
    by_cases hf : s.fe.fst = .halt
    · simp [puStep, puEnabled, puTake, hp, hf]
    · simp [puStep, puEnabled, startStep, hp, hd, hf]

/-- Once started, PU takes any token whose step emits nothing. -/
theorem puStep_silent (hp : s.pu.pst = q) (started : q ≠ .wait ∧ q ≠ .halt) (hz : s.zIn = tok :: more)
    (quiet : pOffers s tok = false) : puStep s = puTake s := by
  have enabled : puEnabled s = true := by simp [puEnabled, puAccepts, hp, started, hz, quiet]
  exact if_pos enabled

theorem pOffers_of_ends (hl : ZToken.ends last = true) : pOffers s last = false := by
  cases last with
  | byte => cases hl
  | zEnd | zErr => rfl

theorem pOffers_outside_row (hp : s.pu.pst = q) (outside : q ≠ .data) : pOffers s tok = false := by
  cases tok with
  | byte => exact decide_eq_false (hp ▸ outside)
  | zEnd | zErr => rfl

/-- The code an end token leaves where `ZEnd` would leave `k`: `ZErr` overrides every other (`60_exceptions.md` R256). -/
def endCode : ZToken → ErrCode → ErrCode
  | .zErr, _ => .decompressionFailed
  | .zEnd, k | .byte _, k => k

/-- R203 and R206. -/
theorem puStep_rowsCutShort (hp : s.pu.pst = .filt ∨ s.pu.pst = .data) (hz : s.zIn = last :: more)
    (hl : ZToken.ends last = true) :
    puStep s = .next { s with
      zIn := more, pu := { s.pu with perr := endCode last .truncatedPixelData, pst := .halt } } := by
  have take : puStep s = .next (rowsCutShort (endCode last .truncatedPixelData) (popZ s)) := by
    rcases hp with hp | hp
    · rw [puStep_silent hp (by decide) hz (pOffers_of_ends hl), puTake, hp]
      cases last with
      | byte => cases hl
      | zEnd | zErr => simp only [filtStep, hz, endCode]
    · rw [puStep_silent hp (by decide) hz (pOffers_of_ends hl), puTake, hp]
      cases last with
      | byte => cases hl
      | zEnd | zErr => simp only [exec_filterInstr, filterStep, hp, if_true, rowStep, hz, endCode]
  rw [take, popZ_eq hz]
  rfl

/-- R202, a legal filter-type byte. -/
theorem puStep_select (hp : s.pu.pst = .filt) (hz : s.zIn = .byte b :: more) (hf : filterTypeOf b = some f) :
    puStep s = .next (selectFilter f { s with zIn := more }) := by
  rw [puStep_silent hp (by decide) hz (pOffers_outside_row hp (by decide)), puTake, hp, ← popZ_eq hz]
  simp only [filtStep, hz, hf, exec_filterInstr, filterStep, popZ_pu, hp]

/-- R202 and R187, an illegal one. -/
theorem puStep_reject (hp : s.pu.pst = .filt) (hz : s.zIn = .byte b :: more) (hf : filterTypeOf b = Option.none) :
    puStep s = .next { s with zIn := more, pu := { s.pu with perr := .unknownFilterType, pst := .drain } } := by
  rw [puStep_silent hp (by decide) hz (pOffers_outside_row hp (by decide)), puTake, hp]
  simp only [filtStep, hz, hf, popZ_eq hz]
  rfl

/-- R207 and R210, a byte. -/
theorem puStep_discard (hp : s.pu.pst = .tail ∨ s.pu.pst = .drain) (hz : s.zIn = .byte b :: more) :
    puStep s = .next { s with zIn := more } := by
  rw [← popZ_eq hz]
  rcases hp with hp | hp
  · rw [puStep_silent hp (by decide) hz (pOffers_outside_row hp (by decide)), puTake, hp]
    simp only [tailStep, hz]
  · rw [puStep_silent hp (by decide) hz (pOffers_outside_row hp (by decide)), puTake, hp]
    simp only [drainStep, hz]

/-- The code `ZEnd` leaves after the last row and while draining (R208, R210). -/
def closingCode (s : State) : ErrCode :=
  if s.pu.pst = .tail ∧ supportedDepth s.fe.bitDepth = false then .unsupportedBitDepth else s.pu.perr

/-- R208 to R210, an end token. -/
theorem puStep_close (hp : s.pu.pst = .tail ∨ s.pu.pst = .drain) (hz : s.zIn = last :: more)
    (hl : ZToken.ends last = true) :
    puStep s = .next { s with
      zIn := more, pu := { s.pu with pst := .halt, perr := endCode last (closingCode s) } } := by
  rcases hp with hp | hp
  · rw [puStep_silent hp (by decide) hz (pOffers_of_ends hl), puTake, hp]
    cases last with
    | byte => cases hl
    | zErr => simp only [tailStep, hz, popZ_eq hz]; rfl
    | zEnd =>
      simp only [tailStep, hz, popZ_eq hz, closingCode, hp, true_and]
      cases supportedDepth s.fe.bitDepth <;> rfl
  · rw [puStep_silent hp (by decide) hz (pOffers_of_ends hl), puTake, hp]
    cases last with
    | byte => cases hl
    | zErr => simp only [drainStep, hz, popZ_eq hz]; rfl
    | zEnd => simp only [drainStep, hz, popZ_eq hz, closingCode, hp]; rfl

theorem supportedDepth_eq_false_iff (d : Byte) : supportedDepth d = false ↔ d.toNat ≠ 8 ∧ d.toNat ≠ 16 := by
  rw [supportedDepth, decide_eq_false_iff_not, not_or, Ne, Ne, toNat_eq_iff d 8 (by decide), toNat_eq_iff d 16 (by decide)]
  rfl

/-! ### A filter row's selection and bytes (R202, R204) -/

theorem toNat_eq_zero_iff {w : Nat} (v : BitVec w) : v.toNat = 0 ↔ v = 0 := toNat_eq_iff v 0 (Nat.two_pow_pos w)

theorem toNat_pos_iff {w : Nat} (v : BitVec w) : 0 < v.toNat ↔ v ≠ 0 :=
  Nat.pos_iff_ne_zero.trans (toNat_eq_zero_iff v).not

theorem filterInstr_of_mem {i : Instr}
    (h : (i, f) ∈ [(Instr.none, FilterType.none), (.sub, .sub), (.up, .up), (.avg, .avg), (.paeth, .paeth)]) : i = f.instr := by
  simp only [List.mem_cons, Prod.mk.injEq, List.not_mem_nil, or_false] at h
  rcases h with ⟨rfl, rfl⟩ | ⟨rfl, rfl⟩ | ⟨rfl, rfl⟩ | ⟨rfl, rfl⟩ | ⟨rfl, rfl⟩ <;> rfl

/-- All the selection of a filter does. A row of no bytes copies nothing to `PREV`. -/
theorem selectFilter_eq (f : FilterType) (s : State) :
    selectFilter f s =
      if s.fe.bps.toNat = 0 then
        { s with
          pu := { s.pu with
            ft := f, col := 0, row := s.pu.row + 1, pst := if s.pu.row + 1 = s.fe.height then .tail else .filt } }
      else { s with pu := { s.pu with ft := f, col := 0, pst := .data } } := by
  by_cases h : s.fe.bps.toNat = 0
  · rw [if_pos h, selectFilter, if_pos ((toNat_eq_zero_iff _).1 h), rowDone, h, copyBelow_zero]
  · rw [if_neg h, selectFilter, if_neg (mt (toNat_eq_zero_iff _).2 h)]
    rfl

theorem recon_eq_ofNat (f : FilterType) (x : Byte) (n : Neighbours) :
    recon f x n = BitVec.ofNat 8 ((x.toNat + predictor f n.a.toNat n.b.toNat n.c.toNat) % 256) := by
  rw [← toNat_recon, BitVec.ofNat_toNat, BitVec.setWidth_eq]

/-- PU's neighbours as naturals (R181). -/
theorem toNat_neighbours (s : State) :
    (neighbours s).a.toNat =
        (if s.fe.bpp.toNat ≤ s.pu.col.toNat then
          (LineBuffer.read s.pu.cur (s.pu.col.toNat - s.fe.bpp.toNat)).toNat else 0) ∧
      (neighbours s).b.toNat =
        (if 0 < s.pu.row.toNat then (LineBuffer.read s.pu.prev s.pu.col.toNat).toNat else 0) ∧
      (neighbours s).c.toNat =
        (if 0 < s.pu.row.toNat ∧ s.fe.bpp.toNat ≤ s.pu.col.toNat then
          (LineBuffer.read s.pu.prev (s.pu.col.toNat - s.fe.bpp.toNat)).toNat else 0) := by
  simp only [neighbours, ← toNat_pos_iff, apply_ite BitVec.toNat]
  exact ⟨rfl, rfl, rfl⟩

/-! ### What every turn of PU keeps -/

/-- What the rows rest on and no turn of PU changes: port P is ready, a row with bytes has a stride of at least 1 and fits, `CUR` is
canonical, an error has taken PU out of the rows. -/
structure RowsSound (s : State) : Prop where
  pReady : s.pReady = true
  stride : 0 < s.fe.bps.toNat → 1 ≤ s.fe.bpp.toNat
  fits : s.fe.bps.toNat ≤ s.lbBytes
  canonical : LineBuffer.wf s.pu.cur = true
  errorStops : PlaneErrorStops s

theorem RowsSound.perr_ok (h : RowsSound s) (hd : s.pu.pst ≠ .drain) (hh : s.pu.pst ≠ .halt) : s.pu.perr = .ok :=
  by_contra fun e => (h.errorStops e).elim hd hh

theorem PuMove.rowsSound (h : PuMove s t) (sound : RowsSound s) : RowsSound t := by
  have clean := sound.perr_ok
  obtain ⟨pReady, stride, fits, canonical, errorStops⟩ := sound
  cases h with
  | hold => exact ⟨pReady, stride, fits, canonical, errorStops⟩
  | start hp =>
    have ok : s.pu.perr = .ok := clean (by simp [hp]) (by simp [hp])
    unfold startStep
    split
    · exact ⟨pReady, stride, fits, canonical, fun e => absurd ok e⟩
    · split
      · exact ⟨pReady, stride, fits, canonical, fun e => absurd ok e⟩
      · exact ⟨pReady, stride, fits, canonical, errorStops⟩
  | select f hp =>
    have ok : s.pu.perr = .ok := clean (by simp [hp]) (by simp [hp])
    rw [selectFilter_eq]
    split
    · exact ⟨pReady, stride, fits, canonical, fun e => absurd ok e⟩
    · exact ⟨pReady, stride, fits, canonical, fun e => absurd ok e⟩
  | rowByte x hp =>
    have ok : s.pu.perr = .ok := clean (by simp [hp]) (by simp [hp])
    rw [reconstruct_eq]
    exact ⟨pReady, stride, fits, LineBuffer.wf_write _ _ _ canonical, fun e => absurd ok e⟩
  | reject => exact ⟨pReady, stride, fits, canonical, fun _ => .inl rfl⟩
  | discard => exact ⟨pReady, stride, fits, canonical, errorStops⟩
  | cutShort | finish | badDepth | failed => exact ⟨pReady, stride, fits, canonical, fun _ => .inr rfl⟩

theorem runPlane_keeps {n : Nat} (run : runPlane n s = .next t) (sound : RowsSound s) : RowsSound t ∧ t.fe = s.fe := by
  induction n generalizing s with
  | zero =>
    cases run
    exact ⟨sound, rfl⟩
  | succ n ih =>
    obtain ⟨u, step, run⟩ := andThen_eq_next run
    obtain ⟨soundT, fe⟩ := ih run ((puStep_move step).rowsSound sound)
    exact ⟨soundT, fe.trans (puStep_keeps_front step).1⟩

/-! ### Runs of PU -/

theorem runPlane_of_step {u : State} (n : Nat) (step : puStep s = .next u) : runPlane (n + 1) s = runPlane n u := by
  rw [runPlane, step, andThen_next]

theorem runPlane_add (m n : Nat) (s : State) : runPlane (m + n) s = andThen (runPlane m s) (runPlane n) := by
  induction m generalizing s with
  | zero => rw [Nat.zero_add]; rfl
  | succ m ih =>
    rw [Nat.succ_add, runPlane, runPlane]
    cases puStep s with
    | next u => exact ih u
    | fault | refused => rfl

/-- PU has consumed the whole Z stream and halted with the code. -/
structure Stopped (code : ErrCode) (t : State) : Prop where
  pst : t.pu.pst = .halt
  zIn : t.zIn = []
  perr : t.pu.perr = code

/-- After the last row, and while draining, PU runs to the end token and changes nothing but its code. -/
theorem runPlane_discard {zs : List Byte} (hp : s.pu.pst = .tail ∨ s.pu.pst = .drain) (hl : ZToken.ends last = true)
    (hz : s.zIn = zs.map .byte ++ [last]) :
    ∃ t, runPlane (zs.length + 1) s = .next t ∧ Stopped (endCode last (closingCode s)) t ∧ t.pOut = s.pOut := by
  induction zs generalizing s with
  | nil => exact ⟨_, runPlane_of_step 0 (puStep_close hp hz hl), ⟨rfl, rfl, rfl⟩, rfl⟩
  | cons z zs ih =>
    rw [List.length_cons, runPlane_of_step _ (puStep_discard hp hz)]
    exact ih (s := { s with zIn := _ }) hp rfl

/-- A row the stream does not fill ends in the end token. -/
theorem runPlane_shortRow {zs : List Byte} (hp : s.pu.pst = .data) (sound : RowsSound s) (hl : ZToken.ends last = true)
    (hz : s.zIn = zs.map .byte ++ [last]) (short : s.pu.col.toNat + zs.length < s.fe.bps.toNat) :
    ∃ t, runPlane (zs.length + 1) s = .next t ∧ Stopped (endCode last .truncatedPixelData) t := by
  induction zs generalizing s with
  | nil => exact ⟨_, runPlane_of_step 0 (puStep_rowsCutShort (.inr hp) hz hl), ⟨rfl, rfl, rfl⟩⟩
  | cons z zs ih =>
    rw [List.length_cons] at short
    have step := puStep_rowByte hp sound.pReady hz (Nat.lt_of_lt_of_le (by omega) sound.fits)
    have soundNext := (puStep_move step).rowsSound sound
    have inner : lastOfRow (popZ s) = false := decide_eq_false (by rw [popZ_pu, popZ_fe]; omega)
    rw [List.length_cons, runPlane_of_step _ step]
    rw [reconstruct_eq, inner, popZ_eq hz] at soundNext ⊢
    have col : (s.pu.col + 1).toNat = s.pu.col.toNat + 1 := by
      have one : (1 : Word39).toNat = 1 := rfl
      have fits := s.fe.bps.isLt
      rw [BitVec.toNat_add_of_lt (by omega), one]
    refine ih hp soundNext rfl ?_
    change (s.pu.col + 1).toNat + zs.length < s.fe.bps.toNat
    omega

/-- A filter-type byte and a whole row make the row of R189. -/
theorem runPlane_wholeRow {xs : List Byte} (hp : s.pu.pst = .filt) (sound : RowsSound s) (hf : filterTypeOf b = some f)
    (hz : s.zIn = .byte b :: (xs.map .byte ++ more)) (hlen : xs.length = s.fe.bps.toNat) :
    ∃ t, runPlane (xs.length + 1) s = .next t ∧
      RowEnded (s.pOut.map PToken.b) (unfilterRow f xs (previousRow s) s.fe.bpp.toNat) more s t := by
  rw [runPlane_of_step _ (puStep_select hp hz hf), selectFilter_eq]
  cases xs with
  | nil =>
    have empty : s.fe.bps.toNat = 0 := hlen.symm
    rw [if_pos empty]
    exact ⟨_, rfl,
      { zIn := rfl
        pOut := (List.append_nil _).symm
        rowCount := rfl
        pst := rfl
        prev := fun j hj => absurd hj (by omega) }⟩
  | cons x xs =>
    have pos : 0 < s.fe.bps.toNat := hlen ▸ Nat.succ_pos _
    rw [if_neg pos.ne']
    have inRow : InRow (s.pOut.map PToken.b) [] (x :: xs) more
        { s with zIn := (x :: xs).map .byte ++ more, pu := { s.pu with ft := f, col := 0, pst := .data } } :=
      { pst := rfl
        pReady := sound.pReady
        bpp := sound.stride pos
        fits := sound.fits
        canonical := sound.canonical
        zIn := rfl
        col := rfl
        bps := by rw [List.length_nil, Nat.zero_add]; exact hlen.symm
        cur := fun j hj => absurd hj (Nat.not_lt_zero j)
        pOut := (List.append_nil _).symm }
    obtain ⟨t, run, ended⟩ := runPlane_row inRow
    exact ⟨t, run, ended.zIn, ended.pOut, ended.rowCount, ended.pst, ended.prev⟩

theorem unfilterRow_length (f : FilterType) (xs : List Byte) (prev : Option (List Byte)) (bpp : Nat) :
    (unfilterRow f xs prev bpp).length = xs.length := by
  rw [unfilterRow, unfilterLoop_length, List.length_nil, Nat.zero_add]

/-! ### The row loop (R215) -/

variable {before row zs : List Byte} {n : Nat}

/-- PU stands between two rows with `n` rows to go: `before` has gone out on port P, and the bytes `zs` and the end token are to come. -/
structure BeforeRow (before zs : List Byte) (last : ZToken) (n : Nat) (s : State) : Prop where
  sound : RowsSound s
  pst : s.pu.pst = if n = 0 then .tail else .filt
  zIn : s.zIn = zs.map .byte ++ [last]
  rowsLeft : s.pu.row.toNat + n = s.fe.height.toNat
  pOut : s.pOut.map PToken.b = before

/-- A row that has ended in `s` leaves PU between rows again, with that row as the previous one. -/
theorem RowEnded.beforeRow {ahead : List Byte} (h : BeforeRow before ahead last (n + 1) s)
    (e : RowEnded before row (zs.map .byte ++ [last]) s t) (hlen : row.length = s.fe.bps.toNat) (sound : RowsSound t)
    (fe : t.fe = s.fe) : BeforeRow (before ++ row) zs last n t ∧ previousRow t = some row := by
  have left := h.rowsLeft
  have count : t.pu.row.toNat = s.pu.row.toNat + 1 := by
    rw [e.rowCount]
    exact toNat_succ (by omega) s.fe.height.isLt
  have final : s.pu.row + 1 = s.fe.height ↔ n = 0 := by
    rw [← e.rowCount, ← BitVec.toNat_inj]
    omega
  have started : t.pu.row ≠ 0 := (toNat_pos_iff t.pu.row).1 (by omega)
  refine ⟨⟨sound, ?_, e.zIn, ?_, e.pOut⟩, ?_⟩
  · simp only [e.pst, final]
  · rw [fe]
    omega
  · rw [previousRow, if_neg started, fe, ← hlen]
    refine congrArg some (List.ext_getElem (by simp) fun j _ hj => ?_)
    rw [List.getElem_map, List.getElem_range, e.prev j (hlen ▸ hj), List.getD_eq_getElem _ _ hj]

/-- The code layer P gives the result of the row loop: its error, else the judgement of the bit depth (R208, R215). -/
def planeCode (bitDepth : Byte) : Result (List (List Byte)) → ErrCode
  | .fail e => e
  | .ok _ => if supportedDepth bitDepth = false then .unsupportedBitDepth else .ok

/-- PU has run to the end of the stream as a row loop with the result `r` says. -/
structure PlaneEnded (before : List Byte) (last : ZToken) (bitDepth : Byte) (r : Result (List (List Byte))) (t : State) : Prop where
  stopped : Stopped (endCode last (planeCode bitDepth r)) t
  pOut : ∀ rows, r = .ok rows → t.pOut.map PToken.b = before ++ rows.flatten

theorem planeEnded_of_fail {e : ErrCode} {bitDepth : Byte} (h : Stopped (endCode last e) t) :
    PlaneEnded before last bitDepth (.fail e) t := ⟨h, fun _ h => nomatch h⟩

/-- An illegal filter type drains the rest of the stream. -/
theorem BeforeRow.illegalType (h : BeforeRow before (b :: zs) last (n + 1) s) (hl : ZToken.ends last = true)
    (hf : filterTypeOf b = Option.none) :
    ∃ t, runPlane (zs.length + 1 + 1) s = .next t ∧ Stopped (endCode last .unknownFilterType) t := by
  rw [runPlane_of_step _ (puStep_reject h.pst h.zIn hf)]
  obtain ⟨t, run, stopped, -⟩ := runPlane_discard
    (s := { s with zIn := _, pu := { s.pu with perr := .unknownFilterType, pst := .drain } }) (.inr rfl) hl rfl
  exact ⟨t, run, stopped⟩

/-- A legal filter type with too few bytes after it. -/
theorem BeforeRow.shortRow (h : BeforeRow before (b :: zs) last (n + 1) s) (hl : ZToken.ends last = true)
    (hf : filterTypeOf b = some f) (short : zs.length < s.fe.bps.toNat) :
    ∃ t, runPlane (zs.length + 1 + 1) s = .next t ∧ Stopped (endCode last .truncatedPixelData) t := by
  have step := puStep_select h.pst h.zIn hf
  have sound := (puStep_move step).rowsSound h.sound
  rw [runPlane_of_step _ step]
  rw [selectFilter_eq, if_neg (Nat.ne_zero_of_lt short)] at sound ⊢
  exact runPlane_shortRow rfl sound hl rfl ((Nat.zero_add zs.length).symm ▸ short)

/-- A legal filter type with a whole row after it leads to the next row. -/
theorem BeforeRow.wholeRow (h : BeforeRow before (b :: zs) last (n + 1) s) (hf : filterTypeOf b = some f)
    (enough : s.fe.bps.toNat ≤ zs.length)
    (hrow : row = unfilterRow f (zs.take s.fe.bps.toNat) (previousRow s) s.fe.bpp.toNat) :
    ∃ u, runPlane (s.fe.bps.toNat + 1) s = .next u ∧ u.fe = s.fe ∧ previousRow u = some row ∧
      BeforeRow (before ++ row) (zs.drop s.fe.bps.toNat) last n u := by
  have len : (zs.take s.fe.bps.toNat).length = s.fe.bps.toNat := List.length_take_of_le enough
  have cut : s.zIn = .byte b :: ((zs.take s.fe.bps.toNat).map .byte ++ ((zs.drop s.fe.bps.toNat).map .byte ++ [last])) := by
    rw [h.zIn, ← List.append_assoc, ← List.map_append, List.take_append_drop]
    rfl
  obtain ⟨u, run, ended⟩ := runPlane_wholeRow h.pst h.sound hf cut len
  obtain ⟨sound, fe⟩ := runPlane_keeps run h.sound
  rw [h.pOut, ← hrow] at ended
  obtain ⟨next, prev⟩ := ended.beforeRow h (by rw [hrow, unfilterRow_length, len]) sound fe
  exact ⟨u, len ▸ run, fe, prev, next⟩

/-- From between two rows PU's turns over the rest of the stream are the row loop. -/
theorem runPlane_rows (h : BeforeRow before zs last n s) (hl : ZToken.ends last = true) :
    ∃ t, runPlane (zs.length + 1) s = .next t ∧
      PlaneEnded before last s.fe.bitDepth (rowLoop s.fe.bpp.toNat s.fe.bps.toNat n (previousRow s) zs) t := by
  induction n generalizing s zs before with
  | zero =>
    have tail : s.pu.pst = .tail := h.pst
    have ok : s.pu.perr = .ok := h.sound.perr_ok (by simp [tail]) (by simp [tail])
    obtain ⟨t, run, stopped, pOut⟩ := runPlane_discard (.inl tail) hl h.zIn
    simp only [closingCode, tail, true_and, ok] at stopped
    refine ⟨t, run, stopped, fun rows e => ?_⟩
    cases e
    rw [pOut, h.pOut, List.flatten_nil, List.append_nil]
  | succ n ih =>
    cases zs with
    | nil => exact ⟨_, runPlane_of_step 0 (puStep_rowsCutShort (.inl h.pst) h.zIn hl), planeEnded_of_fail ⟨rfl, rfl, rfl⟩⟩
    | cons ft zs =>
      cases hf : filterTypeOf ft with
      | none =>
        obtain ⟨t, run, stopped⟩ := h.illegalType hl hf
        simp only [rowLoop, hf]
        exact ⟨t, run, planeEnded_of_fail stopped⟩
      | some f =>
        by_cases short : zs.length < s.fe.bps.toNat
        · obtain ⟨t, run, stopped⟩ := h.shortRow hl hf short
          simp only [rowLoop, hf, if_pos short]
          exact ⟨t, run, planeEnded_of_fail stopped⟩
        · obtain ⟨u, first, fe, prev, next⟩ := h.wholeRow hf (Nat.le_of_not_lt short) rfl
          obtain ⟨t, rest, ended⟩ := ih next
          have turns : (ft :: zs).length + 1 = s.fe.bps.toNat + 1 + ((zs.drop s.fe.bps.toNat).length + 1) := by
            rw [List.length_cons, List.length_drop]
            omega
          refine ⟨t, by rw [turns, runPlane_add, first]; exact rest, ?_⟩
          rw [fe, prev] at ended
          simp only [rowLoop, hf, if_neg short]
          cases loop : rowLoop s.fe.bpp.toNat s.fe.bps.toNat n
            (some (unfilterRow f (zs.take s.fe.bps.toNat) (previousRow s) s.fe.bpp.toNat)) (zs.drop s.fe.bps.toNat) with
          | fail e => exact planeEnded_of_fail (loop ▸ ended).stopped
          | ok rows =>
            refine ⟨(loop ▸ ended).stopped, fun all e => ?_⟩
            cases e
            rw [ended.pOut rows loop, List.flatten_cons, List.append_assoc]

theorem planeRows_of_fail {d : Descriptor} {e : ErrCode}
    (h : rowLoop d.bpp d.bps d.height.toNat Option.none zs = .fail e) : planeRows d zs = .fail e := by
  simp only [planeRows, h]

theorem planeRows_of_ok {d : Descriptor} {rows : List (List Byte)}
    (h : rowLoop d.bpp d.bps d.height.toNat Option.none zs = .ok rows) :
    planeRows d zs = if supportedDepth d.bitDepth = false then .fail .unsupportedBitDepth else .ok rows := by
  simp only [planeRows, h, supportedDepth, decide_eq_false_iff_not, ite_not]

/-- A committed descriptor's registers are its quantities (R157), and a row of it is sound to run. -/
theorem descriptor_bounds (inv : Inv s) (hd : s.fe.descValid = true) :
    s.fe.bpp.toNat = (descriptorOf s).bpp ∧ s.fe.bps.toNat = (descriptorOf s).bps ∧ s.fe.bps.toNat ≤ s.lbBytes ∧
      (0 < s.fe.bps.toNat → 1 ≤ s.fe.bpp.toNat) := by
  obtain ⟨-, fits, derived⟩ := inv.descriptorSound hd
  split at derived
  · rename_i c hc
    obtain ⟨-, bpp, bps⟩ := derived
    have ch : (descriptorOf s).channels = channels c := by simp only [Descriptor.channels, descriptorOf, hc]
    refine ⟨by rw [bpp, Descriptor.bpp, ch]; rfl, by rw [bps, Descriptor.bps, ch]; rfl, fits, fun pos => ?_⟩
    exact bpp ▸ bytesPerPixel_pos (bps ▸ pos)
  · exact derived.elim

/-- PU's whole run from `P_WAIT` with a descriptor. -/
theorem runPlane_plane (inv : Inv s) (hp : s.pu.pst = .wait) (hd : s.fe.descValid = true) (hr : s.pReady = true)
    (hl : ZToken.ends last = true) (hz : s.zIn = zs.map .byte ++ [last]) :
    ∃ t, runPlane (zs.length + 2) s = .next t ∧
      PlaneEnded [] last (descriptorOf s).bitDepth
        (rowLoop (descriptorOf s).bpp (descriptorOf s).bps (descriptorOf s).height.toNat Option.none zs) t := by
  obtain ⟨bpp, bps, fits, stride⟩ := descriptor_bounds inv hd
  obtain ⟨-, canonical, -, -⟩ := inv.buffersCanonical
  have step := puStep_wait hp
  have sound := (puStep_move step).rowsSound ⟨hr, stride, fits, canonical, inv.planeErrorStops⟩
  have empty : s.pOut = [] := by
    have count := inv.pixelsCounted
    simpa only [PixelsCounted, hp] using count
  rw [runPlane_of_step _ step]
  rw [startStep, if_pos hd] at sound ⊢
  obtain ⟨t, run, ended⟩ := runPlane_rows (before := []) (n := s.fe.height.toNat)
    { sound := sound
      pst := by simp only [toNat_eq_zero_iff]
      zIn := hz
      rowsLeft := Nat.zero_add _
      pOut := by rw [empty]; rfl } hl
  rw [bpp, bps] at ended
  exact ⟨t, run, ended⟩

end Sys2Proof.Machine

namespace Sys2Proof.Proofs.PlaneFamily
open Sys2Proof.Machine Sys2Proof.Safety

/-- Settles O55: the run is the row loop (`runPlane_plane`), which either failed or is judged by its bit depth; a `ZErr` overrides
whatever it gave. -/
theorem planeRunIsTheRowLoop : Obligations.PlaneRunIsTheRowLoop := by
  intro s zs inv hp hd hr
  refine ⟨fun hz => ?_, fun hz => ?_⟩
  · obtain ⟨t, run, ⟨pst, zIn, perr⟩, pOut⟩ := runPlane_plane inv hp hd hr rfl hz
    refine ⟨t, run, pst, zIn, ?_⟩
    cases loop : rowLoop (descriptorOf s).bpp (descriptorOf s).bps (descriptorOf s).height.toNat Option.none zs with
    | fail e =>
      rw [loop] at perr
      rw [planeRows_of_fail loop]
      exact perr
    | ok rows =>
      rw [loop] at perr
      rw [planeRows_of_ok loop]
      by_cases depth : supportedDepth (descriptorOf s).bitDepth = false
      · rw [planeCode, if_pos depth] at perr
        rw [if_pos depth]
        exact perr
      · rw [planeCode, if_neg depth] at perr
        rw [if_neg depth]
        exact ⟨perr, pOut rows loop⟩
  · obtain ⟨t, run, ⟨pst, zIn, perr⟩, -⟩ := runPlane_plane inv hp hd hr rfl hz
    exact ⟨t, run, pst, zIn, perr⟩

/-- Settles O23: PU's neighbours in naturals give the byte, `reconstruct_eq` the registers, `reconstruct_read` the buffers. -/
theorem rowByteIsReconstructed : Obligations.RowByteIsReconstructed := by
  intro i f hi s x more buffers hp hft hcol fits hz k bpp a b c y
  obtain rfl := filterInstr_of_mem hi
  obtain ⟨-, canonical, -, -⟩ := buffers
  have inside : ¬ s.lbBytes ≤ s.pu.col.toNat := by omega
  have step : exec f.instr s = .next (reconstruct (recon f) x (popZ s)) := by
    simp only [exec_filterInstr, filterStep, hp, hft, if_true, rowStep, hz, if_neg inside]
  have made : recon f x (neighbours (popZ s)) = y := by
    obtain ⟨left, up, upLeft⟩ := toNat_neighbours (popZ s)
    rw [recon_eq_ofNat, left, up, upLeft]
    rfl
  have last : lastOfRow (popZ s) = decide (k + 1 = s.fe.bps.toNat) := rfl
  have read := reconstruct_read (recon f) x (popZ s) canonical
  refine ⟨_, step, ?_, fun j => made ▸ (read j).1, fun j => ?_⟩
  · simp only [reconstruct_eq, made, last, decide_eq_true_eq, popZ_zIn, hz, popZ_pu, hp]
    rfl
  · rw [(read j).2]
    simp only [last, decide_eq_true_eq, popZ_fe, popZ_pu]

/-- Settles O22: `selectFilter_eq` for the legal bytes; `puStep_reject` for the others. -/
theorem filterTypeByteSelectsTheRow : Obligations.FilterTypeByteSelectsTheRow := by
  refine ⟨fun i f hi s hp => ?_, fun s b more hp hz hb => puStep_reject hp hz (filterTypeOf_eq_none hb)⟩
  obtain rfl := filterInstr_of_mem hi
  rw [exec_filterInstr, filterStep, hp]
  exact congrArg _ (selectFilter_eq f s)

/-- Settles O24: both end tokens cut the rows short. -/
theorem endTokenBeforeLastRowHaltsThePlane : Obligations.EndTokenBeforeLastRowHaltsThePlane := fun _ _ hp =>
  ⟨fun hz => puStep_rowsCutShort hp hz rfl, fun hz => puStep_rowsCutShort hp hz rfl⟩

/-- Settles O25: the turns in `P_TAIL` and `P_DRAIN`, the test of the bit depth read as one of its value. -/
theorem tailAndDrainConsumeToTheEnd : Obligations.TailAndDrainConsumeToTheEnd := by
  intro s more hp
  simp only [← supportedDepth_eq_false_iff]
  exact ⟨fun b hz => puStep_discard hp hz, fun hz => puStep_close hp hz rfl, fun hz => puStep_close hp hz rfl⟩

/-- Settles O26: enabled or not, the turn is `startStep`. -/
theorem planeWaitsForTheDescriptor : Obligations.PlaneWaitsForTheDescriptor := fun _ => puStep_wait

end Sys2Proof.Proofs.PlaneFamily
end

section
/-! PROOFS. The family `60_exceptions.md`: a call run under any schedule is `decode_png` (R258). An agent's turn is the same turn in an
environment of its own (R79), so FE runs as alone on the input and PU as alone on what INFL delivers. FE alone is `decode`, and layer D
follows the fold chunk by chunk (R166); PU alone is the row loop (R215); INFL's contract (R72) joins the two. -/

namespace Sys2Proof.Machine
open Sys2Proof.Safety

variable {s t e u : State} {tok : SToken} {more : List SToken}

/-! ### FE in another environment (R79) -/

/-- The state `e` with FE, its input and its two output streams as in `s`. -/
def frontIn (e s : State) : State := { e with fe := s.fe, sIn := s.sIn, kOut := s.kOut, cOut := s.cOut }

theorem haltFE_frontIn (e s : State) : haltFE (frontIn e s) = frontIn e (haltFE s) := by
  simp only [haltFE_eq]
  rfl

theorem truncateChunk_frontIn (e s : State) : truncateChunk (frontIn e s) = frontIn e (truncateChunk s) :=
  haltFE_frontIn e (raise .F .truncated s)

theorem rejectSignature_frontIn (e s : State) : rejectSignature (frontIn e s) = frontIn e (rejectSignature s) :=
  haltFE_frontIn e (raise .F .badSignature s)

theorem endOfInput_frontIn (e s : State) : endOfInput (frontIn e s) = frontIn e (endOfInput s) := by
  have trunc := truncateChunk_frontIn e (popS s)
  have fst : (frontIn e s).fe.fst = s.fe.fst := rfl
  unfold endOfInput
  rw [fst]
  cases s.fe.fst with
  | sig => exact rejectSignature_frontIn e (popS s)
  | len =>
    simp only [apply_ite (frontIn e)]
    exact if_congr Iff.rfl (haltFE_frontIn e (popS s)) trunc
  | type | data | trail => exact trunc
  | halt => rfl

theorem headerAction_frontIn (c : ChunkClass) (e s : State) :
    headerAction c (frontIn e s) = frontIn e (headerAction c s) := by
  cases c with
  | ihdr => simp only [headerAction, dHeaderIhdr, apply_ite (frontIn e)]; rfl
  | idat => simp only [headerAction, dHeaderIdat, apply_ite (frontIn e)]; rfl
  | plte => simp only [headerAction, dHeaderPlte, apply_ite (frontIn e)]; rfl
  | iend | other => rfl

theorem selectChunk_frontIn (n tag : Word32) (c : ChunkClass) (e s : State) :
    selectChunk n tag (headerAction c) (frontIn e s) = frontIn e (selectChunk n tag (headerAction c) s) := by
  have acted := headerAction_frontIn c e (emitK (.hdr n tag) (latchHeader n tag s))
  simp only [selectChunk_eq]
  have derr : (frontIn e s).fe.derr = s.fe.derr := rfl
  rw [derr]
  split_ifs
  · exact congrArg (enterField _) acted
  · rfl
  · exact congrArg (enterField _) acted
  · rfl

theorem afterPayload_frontIn (e s : State) : afterPayload (frontIn e s) = frontIn e (afterPayload s) := by
  simp only [afterPayload_eq]
  rfl

theorem storeIhdrByte_frontIn (k : Nat) (b : Byte) (e s : State) :
    storeIhdrByte k b (frontIn e s) = frontIn e (storeIhdrByte k b s) := by
  simp only [storeIhdrByte, apply_ite (frontIn e)]
  rfl

theorem commitChannels_frontIn (c : Nat) (h : e.lbBytes = s.lbBytes) :
    commitChannels c (frontIn e s) = frontIn e (commitChannels c s) := by
  have overflow : e.lbBytes < (storeDerived c s).fe.bps.toNat ↔ s.lbBytes < (storeDerived c s).fe.bps.toNat := by rw [h]
  simp only [commitChannels, checkCapacity, apply_ite (frontIn e)]
  exact if_congr Iff.rfl rfl (if_congr overflow rfl rfl)

theorem committed_frontIn (h : e.lbBytes = s.lbBytes) : committed (frontIn e s) = frontIn e (committed s) := by
  have code : (frontIn e s).fe.colorType = s.fe.colorType := rfl
  unfold committed
  rw [code]
  split
  · exact commitChannels_frontIn _ h
  · rfl

theorem payloadAction_frontIn {b : Byte} (h : e.lbBytes = s.lbBytes) (hf : s.fe.fst = .data) (hd : s.fe.derr = .ok)
    (act : payloadAction (classOf s.fe.type) b s = .next u) :
    payloadAction (classOf s.fe.type) b (frontIn e s) = .next (frontIn e u) := by
  cases hc : classOf s.fe.type with
  | ihdr =>
    simp only [hc, payloadAction, dPayloadIhdr] at act ⊢
    have cnt : (frontIn e s).fe.cnt = s.fe.cnt := rfl
    rw [cnt, storeIhdrByte_frontIn]
    split_ifs at act ⊢ with h12 heq
    · have place : atCommit (storeIhdrByte s.fe.cnt.toNat b s) := by simpa [atCommit] using ⟨hf, hc, heq, hd⟩
      rw [commit_eq place] at act
      cases act
      have place' : atCommit (frontIn e (storeIhdrByte s.fe.cnt.toNat b s)) := place
      rw [commit_eq place', committed_frontIn (by simpa using h)]
    · cases act; rfl
  | idat | iend | plte | other => rw [hc] at act; cases act; rfl

theorem feTake_data_byte_frontIn {b : Byte} (hlb : e.lbBytes = s.lbBytes) (hf : s.fe.fst = .data) (hs : s.sIn = .byte b :: more)
    (h : feTake s = .next t) : feTake (frontIn e s) = .next (frontIn e t) := by
  rw [feTake_data_byte hf hs] at h
  obtain ⟨u, act, ht⟩ := andThen_eq_next h
  cases ht
  have acted : (if (frontIn e s).fe.derr = .ok then
        payloadAction (classOf (frontIn e s).fe.type) b (emitK (.pay b) (popS (frontIn e s)))
      else .next (emitK (.pay b) (popS (frontIn e s)))) = .next (frontIn e u) := by
    have derr : (frontIn e s).fe.derr = s.fe.derr := rfl
    rw [derr]
    split_ifs at act ⊢ with hd
    · exact payloadAction_frontIn (s := emitK (.pay b) (popS s)) hlb hf hd act
    · cases act
      rfl
  rw [feTake_data_byte (s := frontIn e s) hf hs, acted, andThen_next, afterPayload_frontIn]

/-- An FE step reads and writes nothing but FE, its streams and the capacity. -/
theorem feTake_frontIn (hlb : e.lbBytes = s.lbBytes) (hf : s.fe.fst ≠ .halt) (hs : s.sIn = tok :: more)
    (h : feTake s = .next t) : feTake (frontIn e s) = .next (frontIn e t) := by
  have hs' : (frontIn e s).sIn = tok :: more := hs
  cases tok with
  | eos =>
    rw [feTake_eos hs] at h
    cases h
    rw [feTake_eos hs', endOfInput_frontIn]
  | byte b =>
    cases hfst : s.fe.fst with
    | halt => exact absurd hfst hf
    | sig =>
      have hc := feTake_sig_in_field hfst hs h
      rw [feTake_sig_byte hfst hc hs] at h
      cases h
      rw [feTake_sig_byte (s := frontIn e s) hfst hc hs']
      have reject := rejectSignature_frontIn e (popS s)
      simp only [apply_ite (frontIn e), ← reject]
      rfl
    | len =>
      rw [feTake_len_byte hfst hs] at h
      cases h
      rw [feTake_len_byte (s := frontIn e s) hfst hs']
      simp only [apply_ite (frontIn e)]
      rfl
    | type =>
      rw [feTake_type_byte hfst hs] at h
      cases h
      rw [feTake_type_byte (s := frontIn e s) hfst hs']
      have select := fun n tag c => selectChunk_frontIn n tag c e (shiftType b (popS s))
      simp only [apply_ite (frontIn e), ← select]
      rfl
    | data =>
      exact feTake_data_byte_frontIn hlb hfst hs h
    | trail =>
      rw [feTake_trail_byte hfst hs] at h
      cases h
      rw [feTake_trail_byte (s := frontIn e s) hfst hs']
      have halted := fun k => haltFE_frontIn e (emitK (.trl k) (shiftTrl b (popS s)))
      simp only [apply_ite (frontIn e), ← halted]
      rfl

/-- What an FE step leaves alone. -/
theorem feTake_frame (hf : s.fe.fst ≠ .halt) (hs : s.sIn = tok :: more) (h : feTake s = .next t) : t = frontIn s t := by
  have same := feTake_frontIn (e := s) rfl hf hs h
  exact Host.Outcome.next.inj (h.symm.trans same)

end Sys2Proof.Machine

namespace Sys2Proof.Machine
open Sys2Proof.Safety

variable {s t e a b : State} {tok : ZToken} {more later : List ZToken} {x : Byte}

/-! ### PU in another environment, with tokens still to come (R79) -/

/-- The state `e` with PU and its two streams as in `s`, the tokens `later` on offer behind those of `s`. -/
def planeIn (e : State) (later : List ZToken) (s : State) : State :=
  { e with pu := s.pu, zIn := s.zIn ++ later, pOut := s.pOut }

/-- What PU reads outside its own part once it has started. -/
def rowShape (s : State) : Nat × Word32 × Byte × BitVec 8 × Word39 :=
  (s.lbBytes, s.fe.height, s.fe.bitDepth, s.fe.bpp, s.fe.bps)

theorem planeIn_self (s : State) : planeIn s [] s = s := by
  rw [planeIn, List.append_nil]

theorem puEnabled_cons (hp : s.pu.pst ≠ .wait) (he : puEnabled s = true) :
    s.pu.pst ≠ .halt ∧ ∃ tok more, s.zIn = tok :: more ∧ puAccepts s tok = true := by
  rw [puEnabled, if_neg hp] at he
  cases hz : s.zIn with
  | nil => simp [hz] at he
  | cons tok more =>
    rw [hz] at he
    refine ⟨?_, tok, more, rfl, he⟩
    simp only [puAccepts, Bool.and_eq_true, decide_eq_true_eq] at he
    exact he.1.2

theorem selectFilter_planeIn (f : FilterType) (shape : rowShape e = rowShape s) :
    selectFilter f (planeIn e later s) = planeIn e later (selectFilter f s) := by
  simp only [rowShape, Prod.mk.injEq] at shape
  obtain ⟨-, height, -, -, bps⟩ := shape
  simp only [selectFilter_eq, apply_ite (planeIn e later)]
  simp only [planeIn, height, bps]

theorem reconstruct_planeIn (f : Byte → Neighbours → Byte) (x : Byte) (shape : rowShape e = rowShape s) :
    reconstruct f x (planeIn e later s) = planeIn e later (reconstruct f x s) := by
  simp only [rowShape, Prod.mk.injEq] at shape
  obtain ⟨-, height, -, bpp, bps⟩ := shape
  have seen : neighbours (planeIn e later s) = neighbours s := by
    simp only [neighbours, planeIn, bpp]
    rfl
  have last : lastOfRow (planeIn e later s) = lastOfRow s := by simp only [lastOfRow, planeIn, bps]
  simp only [reconstruct_eq, seen, last]
  simp only [planeIn, height, bps]

theorem startStep_planeIn (hs : s.fe.descValid = true) (he : e.fe.descValid = true) (shape : rowShape e = rowShape s) :
    startStep (planeIn e later s) = planeIn e later (startStep s) := by
  have height : e.fe.height = s.fe.height := congrArg (·.2.1) shape
  have valid : (planeIn e later s).fe.descValid = true := he
  rw [startStep, startStep, if_pos hs, if_pos valid]
  simp only [planeIn, height]

theorem zIn_planeIn (hz : s.zIn = tok :: more) : (planeIn e later s).zIn = tok :: (more ++ later) := by
  rw [planeIn, hz]
  rfl

/-- An end token is the same turn in any environment of the same row shape. -/
theorem puStep_planeIn_end (hp : s.pu.pst ≠ .wait) (hh : s.pu.pst ≠ .halt) (hz : s.zIn = tok :: more)
    (hl : ZToken.ends tok = true) (h : puStep s = .next t) (shape : rowShape e = rowShape s) :
    puStep (planeIn e later s) = .next (planeIn e later t) := by
  have hz' := zIn_planeIn (e := e) (later := later) hz
  cases hpst : s.pu.pst with
  | wait => exact absurd hpst hp
  | halt => exact absurd hpst hh
  | filt | data =>
    rw [puStep_rowsCutShort (by simp [hpst]) hz hl] at h
    cases h
    rw [puStep_rowsCutShort (s := planeIn e later s) (by simp [planeIn, hpst]) hz' hl]
    rfl
  | tail | drain =>
    rw [puStep_close (by simp [hpst]) hz hl] at h
    cases h
    have depth : (planeIn e later s).fe.bitDepth = s.fe.bitDepth := congrArg (·.2.2.1) shape
    have code : closingCode (planeIn e later s) = closingCode s := by
      rw [closingCode, depth]
      rfl
    rw [puStep_close (s := planeIn e later s) (by simp [planeIn, hpst]) hz' hl, code]
    rfl

/-- A byte is the same turn in any environment of the same row shape in which port P is as ready. -/
theorem puStep_planeIn_byte (hp : s.pu.pst ≠ .wait) (hh : s.pu.pst ≠ .halt) (hz : s.zIn = .byte x :: more)
    (accepts : puAccepts s (.byte x) = true) (h : puStep s = .next t) (shape : rowShape e = rowShape s)
    (ready : s.pReady = true → e.pReady = true) : puStep (planeIn e later s) = .next (planeIn e later t) := by
  have hz' := zIn_planeIn (e := e) (later := later) hz
  cases hpst : s.pu.pst with
  | wait => exact absurd hpst hp
  | halt => exact absurd hpst hh
  | filt =>
    cases hf : filterTypeOf x with
    | none =>
      rw [puStep_reject hpst hz hf] at h
      cases h
      rw [puStep_reject (s := planeIn e later s) hpst hz' hf]
      rfl
    | some f =>
      rw [puStep_select hpst hz hf] at h
      cases h
      rw [puStep_select (s := planeIn e later s) hpst hz' hf]
      exact congrArg _ (selectFilter_planeIn f (s := { s with zIn := more }) shape)
  | data =>
    have hr : s.pReady = true := by simpa [puAccepts, pOffers, hpst] using accepts
    by_cases hl : s.pu.col.toNat < s.lbBytes
    · rw [puStep_rowByte hpst hr hz hl] at h
      cases h
      have lb : e.lbBytes = s.lbBytes := congrArg Prod.fst shape
      have hl' : (planeIn e later s).pu.col.toNat < (planeIn e later s).lbBytes := lb ▸ hl
      rw [puStep_rowByte (s := planeIn e later s) hpst (ready hr) hz' hl', popZ_eq hz, popZ_eq hz']
      exact congrArg _ (reconstruct_planeIn _ x (s := { s with zIn := more }) shape)
    · have quits : puStep s = .fault .lineBufferRange := by
        have enabled : puEnabled s = true := by rw [puEnabled, if_neg hp, hz]; exact accepts
        simp only [puStep, if_pos enabled, puTake, hpst, exec_filterInstr, filterStep, if_true, rowStep, hz,
          if_pos (Nat.not_lt.1 hl)]
      cases quits.symm.trans h
  | tail | drain =>
    rw [puStep_discard (by simp [hpst]) hz] at h
    cases h
    rw [puStep_discard (s := planeIn e later s) (by simp [planeIn, hpst]) hz']
    rfl

/-- An enabled turn of PU is the same turn in any environment of the same row shape in which port P is as ready, once the descriptor is
committed or PU has started without. -/
theorem puStep_planeIn (hw : s.pu.pst = .wait → s.fe.descValid = true ∧ e.fe.descValid = true) (he : puEnabled s = true)
    (h : puStep s = .next t) (shape : rowShape e = rowShape s) (ready : s.pReady = true → e.pReady = true) :
    puStep (planeIn e later s) = .next (planeIn e later t) := by
  by_cases hp : s.pu.pst = .wait
  · obtain ⟨valid, valid'⟩ := hw hp
    rw [puStep_wait hp] at h
    cases h
    rw [puStep_wait (s := planeIn e later s) hp, startStep_planeIn valid valid' shape]
  · obtain ⟨hh, tok, more, hz, accepts⟩ := puEnabled_cons hp he
    cases tok with
    | byte x => exact puStep_planeIn_byte hp hh hz accepts h shape ready
    | zEnd | zErr => exact puStep_planeIn_end hp hh hz rfl h shape

/-- What a turn of PU leaves alone. -/
theorem puStep_frame (h : puStep s = .next t) : t = planeIn s [] t := by
  by_cases hp : s.pu.pst = .wait
  · rw [puStep_wait hp] at h
    cases h
    rw [startStep]
    split_ifs <;> simp [planeIn, setPst]
  · by_cases he : puEnabled s = true
    · have same := puStep_planeIn (later := []) (absurd · hp) he h rfl id
      rw [planeIn_self] at same
      exact Host.Outcome.next.inj (h.symm.trans same)
    · rw [puStep, if_neg he] at h
      cases h
      exact (planeIn_self s).symm

/-- A halted PU stays as it is. -/
theorem puStep_of_halted (hp : s.pu.pst = .halt) : puStep s = .next s := by
  rw [puStep, puTake, hp]
  exact ite_self _

theorem runPlane_of_halted (n : Nat) (hp : s.pu.pst = .halt) : runPlane n s = .next s := by
  induction n with
  | zero => rfl
  | succ n ih => rw [runPlane_of_step n (puStep_of_halted hp), ih]

/-- However many turns it takes, PU halts in one state. -/
theorem runPlane_halted_unique {m n : Nat} (ha : runPlane m s = .next a) (hb : runPlane n s = .next b)
    (pa : a.pu.pst = .halt) (pb : b.pu.pst = .halt) : a = b := by
  have longer : ∀ {k l : Nat} {c d : State}, k ≤ l → runPlane k s = .next c → runPlane l s = .next d →
      c.pu.pst = .halt → c = d := by
    intro k l c d hkl hc hd pc
    obtain ⟨j, rfl⟩ := Nat.exists_eq_add_of_le hkl
    rw [runPlane_add, hc, andThen_next, runPlane_of_halted j pc] at hd
    exact Host.Outcome.next.inj hd
  rcases Nat.le_total m n with hmn | hnm
  · exact longer hmn ha hb pa
  · exact (longer hnm hb ha pb).symm

end Sys2Proof.Machine

namespace Sys2Proof.Machine
open Sys2Proof.Safety

variable {lb : Nat} {cs : List Chunk} {acc acc' : Fold} {e : ErrCode}

/-! ### The fold, chunk by chunk (R166) -/

/-- The accumulator before the first chunk. -/
def Fold.start : Fold := { desc := Option.none, idat := [] }

theorem foldChunks_concat_of_ok (h : foldChunks lb acc cs = .ok acc') (c : Chunk) :
    foldChunks lb acc (cs ++ [c]) = foldChunk lb acc' c := by
  induction cs generalizing acc with
  | nil =>
    cases h
    rw [List.nil_append, foldChunks]
    cases foldChunk lb acc' c <;> rfl
  | cons c' cs ih =>
    rw [foldChunks] at h
    rw [List.cons_append, foldChunks]
    cases first : foldChunk lb acc c' with
    | ok acc1 =>
      rw [first] at h
      exact ih h
    | fail e =>
      rw [first] at h
      cases h

theorem foldChunks_concat_of_fail (h : foldChunks lb acc cs = .fail e) (c : Chunk) :
    foldChunks lb acc (cs ++ [c]) = .fail e := by
  induction cs generalizing acc with
  | nil => cases h
  | cons c' cs ih =>
    rw [foldChunks] at h
    rw [List.cons_append, foldChunks]
    cases first : foldChunk lb acc c' with
    | ok acc1 =>
      rw [first] at h
      exact ih h
    | fail e1 =>
      rw [first] at h
      exact h

theorem fold_of_fail (h : foldChunks lb .start cs = .fail e) : fold lb cs = .fail e := by
  rw [Fold.start] at h
  rw [fold, h]

/-- Without a descriptor the end of the chunks is an error. -/
theorem fold_of_none (h : foldChunks lb .start cs = .ok acc) (hd : acc.desc = Option.none) :
    fold lb cs = .fail .invalidChunkForContext := by
  rw [Fold.start] at h
  simp only [fold, h, hd]

theorem fold_of_desc {d : Descriptor} (h : foldChunks lb .start cs = .ok acc) (hd : acc.desc = some d) :
    fold lb cs = .ok (d, acc.idat) := by
  rw [Fold.start] at h
  simp only [fold, h, hd]

section
variable {c : Chunk}

theorem foldChunk_ihdr (h : classOf c.typeTag = .ihdr) : foldChunk lb acc c = foldIhdr lb acc c := by
  rw [foldChunk, h]

theorem foldChunk_idat (h : classOf c.typeTag = .idat) :
    foldChunk lb acc c =
      if acc.desc = Option.none then .fail .invalidChunkForContext else .ok { acc with idat := acc.idat ++ c.data } := by
  rw [foldChunk, h]

theorem foldChunk_plte (h : classOf c.typeTag = .plte) : foldChunk lb acc c = foldPlte acc c := by
  rw [foldChunk, h]

theorem foldChunk_opaque (h : classOf c.typeTag = .iend ∨ classOf c.typeTag = .other) : foldChunk lb acc c = .ok acc := by
  rcases h with h | h <;> rw [foldChunk, h]

end

/-- What a chunk of the class adds to the `IDAT` payload. -/
def gain (cls : ChunkClass) (data : List Byte) : List Byte := if cls = .idat then data else []

/-! ### The `IHDR` payload, byte by byte (R156) -/

/-- Payload byte `k` in its field. -/
def Descriptor.store (d : Descriptor) (k : Nat) (b : Byte) : Descriptor :=
  if k ≤ 3 then { d with width := shiftIn d.width b }
  else if k ≤ 7 then { d with height := shiftIn d.height b }
  else if k = 8 then { d with bitDepth := b }
  else if k = 9 then { d with colorType := b }
  else if k = 10 then { d with compression := b }
  else if k = 11 then { d with filterMeth := b }
  else { d with interlace := b }

/-- The payload bytes in their fields, in order. -/
def Descriptor.storeAll (d : Descriptor) (p : List Byte) : Descriptor :=
  p.zipIdx.foldl (fun d bk => d.store bk.2 bk.1) d

theorem descriptorOf_storeIhdrByte (k : Nat) (b : Byte) (s : State) :
    descriptorOf (storeIhdrByte k b s) = (descriptorOf s).store k b := by
  unfold storeIhdrByte Descriptor.store
  split_ifs <;> rfl

theorem Descriptor.storeAll_concat (d : Descriptor) (p : List Byte) (b : Byte) :
    d.storeAll (p ++ [b]) = (d.storeAll p).store p.length b := by
  simp [storeAll, List.zipIdx_append]

/-- Four bytes shifted in are the value, whatever the register held. -/
theorem shiftIn_four (v : Word32) (b0 b1 b2 b3 : Byte) :
    shiftIn (shiftIn (shiftIn (shiftIn v b0) b1) b2) b3 = be32 b0 b1 b2 b3 := by
  have bytes : be32Bytes (shiftIn (shiftIn (shiftIn (shiftIn v b0) b1) b2) b3) = [b0, b1, b2, b3] := by
    simp only [← lowBytes_four, lowBytes_shiftIn (k := 3) (by decide), lowBytes_shiftIn (k := 2) (by decide),
      lowBytes_shiftIn (k := 1) (by decide), lowBytes_shiftIn (k := 0) (by decide), lowBytes_zero]
    rfl
  simp only [be32Bytes, List.cons.injEq, and_true] at bytes
  obtain ⟨h0, h1, h2, h3⟩ := bytes
  rw [← be32_extract (shiftIn _ b3), h0, h1, h2, h3]

/-- Thirteen payload bytes are the descriptor of R95. -/
theorem Descriptor.storeAll_eq_parseIhdr (d : Descriptor) {p : List Byte} (h : p.length = 13) : d.storeAll p = parseIhdr p := by
  match p, h with
  | [w0, w1, w2, w3, h0, h1, h2, h3, _, _, _, _, _], _ =>
    have width := shiftIn_four d.width w0 w1 w2 w3
    have height := shiftIn_four d.height h0 h1 h2 h3
    simp [storeAll, store, parseIhdr, List.zipIdx, width, height]

end Sys2Proof.Machine

namespace Sys2Proof.Machine
open Sys2Proof.Safety

variable {s t u : State} {b : Byte} {lb : Nat} {cs : List Chunk} {d : List Byte} {acc : Fold} {r : Result Fold}

/-! ### Layer D along the chunks (R150 to R162) -/

/-- What layer D keeps of the chunks and rests on. -/
def layerDPart (s : State) : ErrCode × Bool × Descriptor × BitVec 3 × BitVec 8 × Word39 × List Byte × Nat :=
  (s.fe.derr, s.fe.descValid, descriptorOf s, s.fe.ch, s.fe.bpp, s.fe.bps, cBytes s, s.lbBytes)

/-- Layer D is active and holds this accumulator. -/
structure Agrees (acc : Fold) (s : State) : Prop where
  derr : s.fe.derr = .ok
  desc : acc.desc = if s.fe.descValid then some (descriptorOf s) else Option.none
  idat : cBytes s = acc.idat
  sound : DescriptorSound s

/-- Layer D holds what the fold over some chunks gives. -/
def Verdict (r : Result Fold) (s : State) : Prop :=
  match r with
  | .ok acc => Agrees acc s
  | .fail e => s.fe.derr = e ∧ e ≠ .ok

/-- Layer D has ended with what `fold` gives. -/
def Concluded (r : Result (Descriptor × List Byte)) (s : State) : Prop :=
  match r with
  | .ok (desc, idat) =>
    s.fe.derr = .ok ∧ s.fe.descValid = true ∧ descriptorOf s = desc ∧ DescriptorSound s ∧ cBytes s = idat
  | .fail e => s.fe.derr = e ∧ e ≠ .ok

theorem Agrees.congr (h : Agrees acc s) (same : layerDPart t = layerDPart s) : Agrees acc t := by
  simp only [layerDPart, Prod.mk.injEq] at same
  obtain ⟨derr, descValid, desc, ch, bpp, bps, idat, lbBytes⟩ := same
  have fields := desc
  simp only [descriptorOf, Descriptor.mk.injEq] at fields
  obtain ⟨width, -, bitDepth, colorType, -, -, interlace⟩ := fields
  refine ⟨derr.trans h.derr, by rw [descValid, desc]; exact h.desc, idat.trans h.idat, ?_⟩
  simp only [DescriptorSound, descValid, interlace, bps, lbBytes, colorType, ch, bpp, bitDepth, width]
  exact h.sound

theorem Verdict.congr (h : Verdict r s) (same : layerDPart t = layerDPart s) : Verdict r t := by
  cases r with
  | ok acc => exact Agrees.congr h same
  | fail e => exact ⟨(congrArg Prod.fst same).trans h.1, h.2⟩

/-- FE has emitted these chunks and the tokens of a part of one more. -/
structure Emitted (cs : List Chunk) (tokens : List KToken) (s : State) : Prop where
  whole : ∀ c ∈ cs, c.consistent = true
  kOut : s.kOut = (cs.map chunkTokens).flatten ++ tokens

/-- Layer D reads the payload of the first `IHDR`, of which it has stored the bytes `d` (R156). -/
structure Parsing (acc : Fold) (d : List Byte) (s : State) : Prop where
  derr : s.fe.derr = .ok
  cls : classOf s.fe.type = .ihdr
  len : s.fe.len = 13
  descValid : s.fe.descValid = false
  desc : acc.desc = Option.none
  idat : cBytes s = acc.idat
  few : d.length ≤ 12
  fields : ∃ d0 : Descriptor, descriptorOf s = d0.storeAll d

/-- Layer D inside a chunk after `cs`, the bytes `d` of its payload consumed: what the fold will give with any chunk this header begins is
settled, but for an `IHDR` it still reads. -/
inductive InPayload (lb : Nat) (cs : List Chunk) (d : List Byte) (s : State) : Prop
  | rejected : s.fe.derr ≠ .ok →
      (∀ c : Chunk, c.length = s.fe.len → c.typeTag = s.fe.type → foldChunks lb .start (cs ++ [c]) = .fail s.fe.derr) →
      InPayload lb cs d s
  | parsing (acc : Fold) : foldChunks lb .start cs = .ok acc → Parsing acc d s → InPayload lb cs d s
  | passing (acc : Fold) : classOf s.fe.type ≠ .ihdr →
      Agrees { acc with idat := acc.idat ++ gain (classOf s.fe.type) d } s →
      (∀ c : Chunk, c.length = s.fe.len → c.typeTag = s.fe.type →
        foldChunks lb .start (cs ++ [c]) = .ok { acc with idat := acc.idat ++ gain (classOf s.fe.type) c.data }) →
      InPayload lb cs d s

/-- Layer D and port K, by FE's state. The fold does not look at a trailing value, so a chunk counts from its last payload byte on. -/
inductive LayerD (lb : Nat) (s : State) : Prop
  | between (cs : List Chunk) : s.fe.fst = .sig ∨ s.fe.fst = .len ∨ s.fe.fst = .type → Emitted cs [] s →
      Verdict (foldChunks lb .start cs) s → LayerD lb s
  | payload (cs : List Chunk) (d : List Byte) : s.fe.fst = .data →
      Emitted cs (.hdr s.fe.len s.fe.type :: d.map .pay) s → d.length = s.fe.cnt.toNat → s.fe.cnt.toNat < s.fe.len.toNat →
      InPayload lb cs d s → LayerD lb s
  | trailer (cs : List Chunk) (d : List Byte) : s.fe.fst = .trail →
      Emitted cs (.hdr s.fe.len s.fe.type :: d.map .pay) s → d.length = s.fe.len.toNat →
      (∀ v, Verdict (foldChunks lb .start (cs ++ [⟨s.fe.len, s.fe.type, d, v⟩])) s) → LayerD lb s
  | halted : s.fe.fst = .halt →
      (s.fe.ferr = .ok → ∃ cs, Emitted cs [] s ∧ Concluded (fold lb cs) s) → LayerD lb s

theorem LayerD.at_boundary (h : LayerD lb s) (hf : s.fe.fst = .sig ∨ s.fe.fst = .len ∨ s.fe.fst = .type) :
    ∃ cs, Emitted cs [] s ∧ Verdict (foldChunks lb .start cs) s := by
  cases h with
  | between cs _ e v => exact ⟨cs, e, v⟩
  | payload _ _ hf' => simp [hf'] at hf
  | trailer _ _ hf' => simp [hf'] at hf
  | halted hf' => simp [hf'] at hf

theorem LayerD.in_payload (h : LayerD lb s) (hf : s.fe.fst = .data) :
    ∃ cs d, Emitted cs (.hdr s.fe.len s.fe.type :: d.map .pay) s ∧ d.length = s.fe.cnt.toNat ∧
      s.fe.cnt.toNat < s.fe.len.toNat ∧ InPayload lb cs d s := by
  cases h with
  | between _ hf' => simp [hf] at hf'
  | payload cs d _ e hd hc v => exact ⟨cs, d, e, hd, hc, v⟩
  | trailer _ _ hf' => simp [hf] at hf'
  | halted hf' => simp [hf] at hf'

theorem LayerD.in_trailer (h : LayerD lb s) (hf : s.fe.fst = .trail) :
    ∃ cs d, Emitted cs (.hdr s.fe.len s.fe.type :: d.map .pay) s ∧ d.length = s.fe.len.toNat ∧
      ∀ v, Verdict (foldChunks lb .start (cs ++ [⟨s.fe.len, s.fe.type, d, v⟩])) s := by
  cases h with
  | between _ hf' => simp [hf] at hf'
  | payload _ _ hf' => simp [hf] at hf'
  | trailer cs d _ e hd v => exact ⟨cs, d, e, hd, v⟩
  | halted hf' => simp [hf] at hf'

/-! ### The header (R152 to R155) -/

/-- A header action that raises rejects every chunk of this header, if the fold does. -/
theorem inPayload_of_raise (hcs : foldChunks lb .start cs = .ok acc)
    (bad : ∀ c : Chunk, c.length = s.fe.len → classOf c.typeTag = classOf s.fe.type →
      foldChunk lb acc c = .fail .invalidChunkForContext) :
    InPayload lb cs [] (raise .D .invalidChunkForContext s) := by
  refine .rejected (by simp) fun c hl ht => ?_
  rw [foldChunks_concat_of_ok hcs, bad c (by simpa using hl) (by rw [ht]; simp), raiseD_derr]

/-- A header action that does nothing accepts every chunk of this header, if the fold does. -/
theorem inPayload_of_accept (hcs : foldChunks lb .start cs = .ok acc) (agrees : Agrees acc s)
    (hc : classOf s.fe.type ≠ .ihdr)
    (good : ∀ c : Chunk, c.length = s.fe.len → classOf c.typeTag = classOf s.fe.type →
      foldChunk lb acc c = .ok { acc with idat := acc.idat ++ gain (classOf s.fe.type) c.data }) :
    InPayload lb cs [] s := by
  have nothing : gain (classOf s.fe.type) [] = [] := ite_self _
  refine .passing acc hc ?_ fun c hl ht => ?_
  · rw [nothing, List.append_nil]; exact agrees
  · rw [foldChunks_concat_of_ok hcs, good c hl (by rw [ht])]

/-- The header action judges a chunk as the fold will. -/
theorem headerAction_inPayload (hcs : foldChunks lb .start cs = .ok acc) (agrees : Agrees acc s) :
    InPayload lb cs [] (headerAction (classOf s.fe.type) s) := by
  have desc := agrees.desc
  cases hc : classOf s.fe.type with
  | ihdr =>
    rw [headerAction, dHeaderIhdr_eq]
    split_ifs with bad
    · refine inPayload_of_raise hcs fun c hl ht => ?_
      rw [foldChunk_ihdr (ht.trans hc)]
      refine if_pos (bad.imp (fun hd => ?_) fun h13 => ?_)
      · simp [desc, hd]
      · rw [hl]; exact fun e => h13 (by rw [e]; rfl)
    · rw [not_or, Bool.not_eq_true, not_not] at bad
      obtain ⟨hd, h13⟩ := bad
      exact .parsing acc hcs
        { derr := agrees.derr
          cls := hc
          len := (toNat_eq_iff _ 13 (by decide)).1 h13
          descValid := hd
          desc := by simp [desc, hd]
          idat := agrees.idat
          few := Nat.zero_le _
          fields := ⟨descriptorOf s, rfl⟩ }
  | idat =>
    rw [headerAction, dHeaderIdat_eq]
    split_ifs with bad
    · refine inPayload_of_raise hcs fun c _ ht => ?_
      rw [foldChunk_idat (ht.trans hc)]
      exact if_pos (by simp [desc, bad])
    · refine inPayload_of_accept hcs agrees (by simp [hc]) fun c _ ht => ?_
      rw [foldChunk_idat (ht.trans hc), hc]
      exact if_neg (by simp [desc, bad])
  | plte =>
    have zero := toNat_eq_iff s.fe.colorType 0 (by decide)
    have four := toNat_eq_iff s.fe.colorType 4 (by decide)
    have judged : ∀ c : Chunk, c.length = s.fe.len → foldPlte acc c =
        if s.fe.descValid = false ∨ s.fe.colorType.toNat = 0 ∨ s.fe.colorType.toNat = 4 ∨ s.fe.len.toNat % 3 ≠ 0
        then .fail .invalidChunkForContext else .ok acc := by
      intro c hl
      rw [foldPlte, desc, hl]
      cases s.fe.descValid with
      | false => rfl
      | true => simp [descriptorOf, zero, four]
    rw [headerAction, dHeaderPlte_eq]
    split_ifs with bad
    · refine inPayload_of_raise hcs fun c hl ht => ?_
      rw [foldChunk_plte (ht.trans hc)]
      exact (judged c hl).trans (if_pos bad)
    · refine inPayload_of_accept hcs agrees (by simp [hc]) fun c hl ht => ?_
      rw [foldChunk_plte (ht.trans hc), hc]
      exact (judged c hl).trans ((if_neg bad).trans (by simp [gain]))
  | iend | other =>
    rw [headerAction, dHeaderNone]
    refine inPayload_of_accept hcs agrees (by simp [hc]) fun c _ ht => ?_
    rw [foldChunk_opaque (by simp [ht, hc]), hc]
    simp [gain]

/-- With its payload complete a chunk that layer D does not read any more is judged. -/
theorem InPayload.close (h : InPayload lb cs d s) (hd : d.length = s.fe.len.toNat) (v : Word32) :
    Verdict (foldChunks lb .start (cs ++ [⟨s.fe.len, s.fe.type, d, v⟩])) s := by
  cases h with
  | rejected err bad => rw [bad _ rfl rfl]; exact ⟨rfl, err⟩
  | parsing acc _ p =>
    have thirteen : s.fe.len.toNat = 13 := by rw [p.len]; rfl
    exact absurd p.few (by omega)
  | passing acc _ agrees good => rw [good _ rfl rfl]; exact agrees

theorem InPayload.congr (h : InPayload lb cs d s) (same : layerDPart t = layerDPart s) (len : t.fe.len = s.fe.len)
    (type : t.fe.type = s.fe.type) : InPayload lb cs d t := by
  have parts := same
  simp only [layerDPart, Prod.mk.injEq] at parts
  obtain ⟨derr, descValid, desc, -, -, -, idat, -⟩ := parts
  cases h with
  | rejected err bad =>
    refine .rejected (by rwa [derr]) fun c hl ht => ?_
    rw [derr]
    exact bad c (hl.trans len) (ht.trans type)
  | parsing acc hcs p =>
    obtain ⟨pderr, cls, plen, pdescValid, pdesc, pidat, few, d0, fields⟩ := p
    exact .parsing acc hcs ⟨derr.trans pderr, type ▸ cls, len.trans plen, descValid.trans pdescValid, pdesc, idat.trans pidat,
      few, d0, desc.trans fields⟩
  | passing acc cls agrees good =>
    rw [← type] at cls agrees
    refine .passing acc cls (agrees.congr same) fun c hl ht => ?_
    rw [type]
    exact good c (hl.trans len) (ht.trans type)

/-- A selected chunk has its payload before it, or none. -/
theorem InPayload.select (h : InPayload lb cs [] s) (e : Emitted cs [.hdr s.fe.len s.fe.type] s) :
    LayerD lb (enterField (if s.fe.len = 0 then .trail else .data) s) := by
  by_cases h0 : s.fe.len = 0#32
  · have none : ([] : List Byte).length = s.fe.len.toNat := by rw [h0]; rfl
    exact .trailer cs [] (if_pos h0) ⟨e.whole, e.kOut⟩ none fun v => (h.close none v).congr rfl
  · exact .payload cs [] (if_neg h0) ⟨e.whole, e.kOut⟩ rfl ((toNat_pos_iff _).2 h0) (h.congr rfl rfl rfl)

/-- The fourth type byte (R135). -/
theorem selectChunk_layerD (hf : s.fe.fst = .type) (h : LayerD lb s) :
    LayerD lb (selectChunk s.fe.len (shiftIn s.fe.type b) (headerAction (classOf (shiftIn s.fe.type b)))
      (shiftType b (popS s))) := by
  obtain ⟨cs, e, v⟩ := h.at_boundary (.inr (.inr hf))
  have begun : ∀ w : State, framerPart w = framerPart (emitK (.hdr s.fe.len (shiftIn s.fe.type b))
        (latchHeader s.fe.len (shiftIn s.fe.type b) (shiftType b (popS s)))) → InPayload lb cs [] w →
      LayerD lb (enterField (if s.fe.len = 0 then .trail else .data) w) := by
    intro w framing inside
    simp only [framerPart, Prod.mk.injEq] at framing
    obtain ⟨⟨-, -, len, type, -⟩, -, kOut, -⟩ := framing
    change w.fe.len = s.fe.len at len
    change w.fe.type = shiftIn s.fe.type b at type
    have selected := inside.select ⟨e.whole, by rw [kOut, len, type]; simp [latchHeader, e.kOut]⟩
    rwa [len] at selected
  rw [selectChunk_eq]
  by_cases hd : (shiftType b (popS s)).fe.derr = .ok
  · rw [if_pos hd]
    refine begun _ (framerPart_headerAction ..) ?_
    cases hcs : foldChunks lb .start cs with
    | fail err =>
      rw [hcs] at v
      exact absurd (v.1.symm.trans hd) v.2
    | ok acc =>
      rw [hcs] at v
      exact headerAction_inPayload (s := emitK _ (latchHeader _ _ (shiftType b (popS s)))) hcs (Agrees.congr v rfl)
  · rw [if_neg hd]
    refine begun _ rfl (.rejected hd fun c _ _ => ?_)
    cases hcs : foldChunks lb .start cs with
    | fail err =>
      rw [hcs] at v
      rw [foldChunks_concat_of_fail hcs, ← v.1]
      rfl
    | ok acc =>
      rw [hcs] at v
      exact absurd v.derr hd

/-! ### The payload (R137, R156 to R161) -/

/-- On from a payload byte that layer D has taken. -/
theorem InPayload.advance (h : InPayload lb cs (d ++ [b]) u) (hf : u.fe.fst = .data)
    (e : Emitted cs (.hdr u.fe.len u.fe.type :: (d ++ [b]).map .pay) u) (hd : d.length = u.fe.cnt.toNat)
    (hc : u.fe.cnt.toNat < u.fe.len.toNat) : LayerD lb (afterPayload u) := by
  have hd' : (d ++ [b]).length = u.fe.cnt.toNat + 1 := by rw [List.length_append, hd]; rfl
  rw [afterPayload_in_field hf hc]
  by_cases last : u.fe.cnt.toNat + 1 = u.fe.len.toNat
  · exact .trailer cs (d ++ [b]) (if_pos last) ⟨e.whole, e.kOut⟩ (hd'.trans last)
      fun v => (h.close (hd'.trans last) v).congr rfl
  · have next : (u.fe.cnt + 1).toNat = u.fe.cnt.toNat + 1 := toNat_succ hc u.fe.len.isLt
    refine .payload cs (d ++ [b]) (if_neg last) ⟨e.whole, e.kOut⟩ ?_ ?_ (h.congr rfl rfl rfl)
    · simp only [if_neg last, next, hd']
    · simp only [if_neg last, next]
      omega

/-- A byte layer D does not look at. -/
theorem InPayload.skip (h : InPayload lb cs d s)
    (idle : s.fe.derr ≠ .ok ∨ classOf s.fe.type ≠ .ihdr ∧ classOf s.fe.type ≠ .idat) : InPayload lb cs (d ++ [b]) s := by
  cases h with
  | rejected err bad => exact .rejected err bad
  | parsing acc _ p => exact (idle.elim (· p.derr) (·.1 p.cls)).elim
  | passing acc cls agrees good =>
    have idat : classOf s.fe.type ≠ .idat := idle.elim (absurd agrees.derr) (·.2)
    refine .passing acc cls ?_ good
    rwa [gain, if_neg idat] at agrees ⊢

theorem cBytes_concat (s : State) (b : Byte) : cBytes (emitC (.byte b) s) = cBytes s ++ [b] := by
  simp [cBytes, emitC]

/-- A forwarded byte (R160). -/
theorem InPayload.forward (h : InPayload lb cs d s) (hd : s.fe.derr = .ok) (hc : classOf s.fe.type = .idat) :
    InPayload lb cs (d ++ [b]) (emitC (.byte b) s) := by
  cases h with
  | rejected err => exact absurd hd err
  | parsing acc _ p => exact absurd (hc.symm.trans p.cls) (by decide)
  | passing acc cls agrees good =>
    refine .passing acc cls ⟨agrees.derr, agrees.desc, ?_, agrees.sound⟩ good
    rw [cBytes_concat, agrees.idat, emitC_fe]
    simp [gain, hc]

theorem layerDPart_storeIhdrByte (k : Nat) (b : Byte) (s : State) :
    layerDPart (storeIhdrByte k b s) =
      (s.fe.derr, s.fe.descValid, (descriptorOf s).store k b, s.fe.ch, s.fe.bpp, s.fe.bps, cBytes s, s.lbBytes) := by
  simp only [layerDPart, descriptorOf_storeIhdrByte, cBytes, storeIhdrByte_derr, storeIhdrByte_descValid, storeIhdrByte_ch,
    storeIhdrByte_bpp, storeIhdrByte_bps, storeIhdrByte_cOut, storeIhdrByte_lbBytes]

/-- The `IHDR` in progress, where layer D reads one. -/
theorem InPayload.parsed (h : InPayload lb cs d s) (hd : s.fe.derr = .ok) (hc : classOf s.fe.type = .ihdr) :
    ∃ acc, foldChunks lb .start cs = .ok acc ∧ Parsing acc d s := by
  cases h with
  | rejected err => exact absurd hd err
  | parsing acc hcs p => exact ⟨acc, hcs, p⟩
  | passing acc cls => exact absurd hc cls

/-- A stored byte (R156). -/
theorem Parsing.store (p : Parsing acc d s) (few : d.length < 12) : Parsing acc (d ++ [b]) (storeIhdrByte d.length b s) := by
  have parts := layerDPart_storeIhdrByte d.length b s
  simp only [layerDPart, Prod.mk.injEq] at parts
  obtain ⟨derr, descValid, desc, -, -, -, idat, -⟩ := parts
  obtain ⟨d0, fields⟩ := p.fields
  exact
    { derr := derr.trans p.derr
      cls := by rw [storeIhdrByte_type]; exact p.cls
      len := by rw [storeIhdrByte_len]; exact p.len
      descValid := descValid.trans p.descValid
      desc := p.desc
      idat := idat.trans p.idat
      few := by rw [List.length_append]; exact few
      fields := ⟨d0, by rw [desc, fields, Descriptor.storeAll_concat]⟩ }

/-- The commit judges the descriptor as the fold does (R157 to R159). -/
theorem committed_verdict {c : Chunk} (hlb : s.lbBytes = lb) (hd : s.fe.derr = .ok) (desc : acc.desc = Option.none)
    (idat : cBytes s = acc.idat) (len : c.length = 13) (parsed : parseIhdr c.data = descriptorOf s) :
    Verdict (foldIhdr lb acc c) (committed s) := by
  have first : ¬ (acc.desc ≠ Option.none ∨ c.length ≠ 13) := by simp [desc, len]
  have code : (descriptorOf s).colorType = s.fe.colorType := rfl
  rw [foldIhdr, if_neg first, committed]
  simp only [parsed, code]
  cases hct : colourTypeOf s.fe.colorType with
  | none => exact ⟨rfl, by decide⟩
  | some ct =>
    have channels : (descriptorOf s).channels = channels ct := by simp only [Descriptor.channels, code, hct]
    have bps : (descriptorOf s).bps = bytesPerScanline s.fe.width (Machine.channels ct) s.fe.bitDepth := by
      rw [Descriptor.bps, channels]; rfl
    have interlace : (descriptorOf s).interlace = s.fe.interlace := rfl
    simp only [commitChannels_eq, bps, interlace, hlb]
    split_ifs with him hcap
    · exact ⟨rfl, by decide⟩
    · exact ⟨rfl, by decide⟩
    · obtain ⟨chFits, bppFits, bpsFits⟩ := derived_lt s.fe.width ct s.fe.bitDepth
      refine ⟨hd, rfl, idat, fun _ => ⟨not_not.1 him, ?_, ?_⟩⟩
      · change (BitVec.ofNat 39 _).toNat ≤ s.lbBytes
        rw [BitVec.toNat_ofNat, Nat.mod_eq_of_lt bpsFits]
        omega
      · simp only [storeDerived_colorType, hct, storeDerived_ch, storeDerived_bpp, storeDerived_bps, BitVec.toNat_ofNat]
        exact ⟨Nat.mod_eq_of_lt (by omega), Nat.mod_eq_of_lt (by omega), Nat.mod_eq_of_lt bpsFits⟩

/-- The last byte of the first `IHDR` (R156). -/
theorem commit_layerD (h : LayerD lb s) (hlb : s.lbBytes = lb) (hf : s.fe.fst = .data) (hok : s.fe.derr = .ok)
    (hcls : classOf s.fe.type = .ihdr) (h12 : s.fe.cnt = 12) :
    LayerD lb (afterPayload (committed (storeIhdrByte 12 b (emitK (.pay b) (popS s))))) := by
  obtain ⟨cs, d, e, hd, -, v⟩ := h.in_payload hf
  obtain ⟨acc, hcs, p⟩ := v.parsed hok hcls
  obtain ⟨d0, fields⟩ := p.fields
  have twelve : d.length = 12 := by rw [hd, h12]; rfl
  have thirteen : (d ++ [b]).length = 13 := by rw [List.length_append, twelve]; rfl
  have parts := layerDPart_storeIhdrByte 12 b (emitK (.pay b) (popS s))
  simp only [layerDPart, Prod.mk.injEq] at parts
  obtain ⟨derr, -, desc, -, -, -, idat, lbBytes⟩ := parts
  have parsed : parseIhdr (d ++ [b]) = descriptorOf (storeIhdrByte 12 b (emitK (.pay b) (popS s))) := by
    rw [desc, ← twelve, ← Descriptor.storeAll_eq_parseIhdr d0 thirteen, Descriptor.storeAll_concat, ← fields]
    rfl
  have framing := framerPart_committed (storeIhdrByte 12 b (emitK (.pay b) (popS s)))
  simp only [framerPart, Prod.mk.injEq, storeIhdrByte_len, storeIhdrByte_type, storeIhdrByte_kOut, emitK_fe, emitK_kOut,
    popS_fe, popS_kOut] at framing
  obtain ⟨⟨-, -, len, type, -⟩, -, kOut, -⟩ := framing
  rw [afterPayload_committed (by simpa using h12) (by simpa using p.len)]
  refine .trailer cs (d ++ [b]) rfl ⟨e.whole, ?_⟩ ?_ fun v => ?_
  · rw [enterField_kOut, enterField_len, enterField_type, kOut, len, type, e.kOut]
    simp
  · rw [enterField_len, len, p.len, thirteen]
    rfl
  · rw [enterField_len, enterField_type, len, type, foldChunks_concat_of_ok hcs, foldChunk_ihdr p.cls]
    have verdict := committed_verdict (c := ⟨s.fe.len, s.fe.type, d ++ [b], v⟩) (lbBytes.trans hlb) (derr.trans p.derr) p.desc
      (idat.trans p.idat) p.len parsed
    exact verdict.congr rfl

/-! ### The end of the container (R162) -/

theorem cBytes_haltFE (s : State) : cBytes (haltFE s) = cBytes s := by
  simp [cBytes]

/-- FE halts at a chunk boundary with the code of the whole fold. -/
theorem haltFE_layerD (e : Emitted cs [] u) (v : Verdict (foldChunks lb .start cs) u) : LayerD lb (haltFE u) := by
  refine .halted haltFE_fst fun ok => ⟨cs, ⟨e.whole, by rw [haltFE_kOut, e.kOut]⟩, ?_⟩
  rw [haltFE_ferr] at ok
  cases hcs : foldChunks lb .start cs with
  | fail err =>
    rw [hcs] at v
    obtain ⟨derr, ne⟩ := v
    rw [fold_of_fail hcs]
    refine ⟨?_, ne⟩
    rw [haltFE_derr, derr, if_neg (fun h => ne h.2.1)]
  | ok acc =>
    rw [hcs] at v
    obtain ⟨derr, desc, idat, sound⟩ := v
    cases hv : u.fe.descValid with
    | false =>
      rw [fold_of_none hcs (by simp [desc, hv])]
      refine ⟨?_, by decide⟩
      rw [haltFE_derr, if_pos ⟨ok, derr, hv⟩]
    | true =>
      rw [fold_of_desc (d := descriptorOf u) hcs (by simp [desc, hv])]
      refine ⟨?_, by rw [haltFE_eq]; exact hv, by rw [haltFE_eq]; rfl, ?_, (cBytes_haltFE u).trans idat⟩
      · rw [haltFE_derr, if_neg (by simp [hv])]
        exact derr
      · rw [haltFE_eq]
        exact sound

/-! ### All moves -/

theorem LayerD.boundary_move (h : LayerD lb s) (hf : s.fe.fst = .sig ∨ s.fe.fst = .len ∨ s.fe.fst = .type)
    (same : layerDPart t = layerDPart s) (kOut : t.kOut = s.kOut)
    (hf' : t.fe.fst = .sig ∨ t.fe.fst = .len ∨ t.fe.fst = .type) : LayerD lb t := by
  obtain ⟨cs, e, v⟩ := h.at_boundary hf
  exact .between cs hf' ⟨e.whole, kOut.trans e.kOut⟩ (v.congr same)

theorem layerD_of_error (hf : t.fe.fst = .halt) (he : t.fe.ferr ≠ .ok) : LayerD lb t := .halted hf fun ok => absurd ok he

/-- With the fourth trailing byte the chunk in progress is one more whole chunk (R139). -/
theorem LayerD.close (h : LayerD lb s) (hf : s.fe.fst = .trail) :
    ∃ cs, Emitted cs [] (emitK (.trl (shiftIn s.fe.trl b)) (shiftTrl b (popS s))) ∧
      Verdict (foldChunks lb .start cs) (emitK (.trl (shiftIn s.fe.trl b)) (shiftTrl b (popS s))) := by
  obtain ⟨cs, d, e, hd, v⟩ := h.in_trailer hf
  refine ⟨cs ++ [closedChunk d b s], ⟨?_, ?_⟩, (v _).congr rfl⟩
  · exact List.forall_mem_append.2 ⟨e.whole, List.forall_mem_singleton.2 (closedChunk_consistent hd)⟩
  · rw [emitK_kOut, shiftTrl_kOut, popS_kOut, e.kOut]
    simp [chunkTokens, closedChunk]

/-- Every move of FE keeps layer D in step with the fold. -/
theorem FeMove.layerD (m : FeMove s t) (hlb : s.lbBytes = lb) (h : LayerD lb s) : LayerD lb t := by
  cases m with
  | hold => exact h
  | sigReject => exact layerD_of_error haltFE_fst (by simp [rejectSignature])
  | truncate => exact layerD_of_error haltFE_fst (by simp [truncateChunk])
  | sigDone hf => exact h.boundary_move (.inl hf) rfl rfl (.inr (.inl rfl))
  | sigNext hf => exact h.boundary_move (.inl hf) rfl rfl (.inl hf)
  | lenDone b hf => exact h.boundary_move (.inr (.inl hf)) rfl rfl (.inr (.inr rfl))
  | lenNext b hf => exact h.boundary_move (.inr (.inl hf)) rfl rfl (.inr (.inl hf))
  | typeNext b hf => exact h.boundary_move (.inr (.inr hf)) rfl rfl (.inr (.inr hf))
  | lenEnd hf =>
    obtain ⟨cs, e, v⟩ := h.at_boundary (.inr (.inl hf))
    exact haltFE_layerD (u := popS s) ⟨e.whole, e.kOut⟩ (v.congr rfl)
  | select b hf => exact selectChunk_layerD hf h
  | payOpaque b hf idle =>
    obtain ⟨cs, d, e, hd, hc, v⟩ := h.in_payload hf
    exact InPayload.advance ((v.skip (b := b) idle).congr rfl rfl rfl) hf ⟨e.whole, by simp [e.kOut]⟩ hd hc
  | payIdat b hf hok hcls =>
    obtain ⟨cs, d, e, hd, hc, v⟩ := h.in_payload hf
    exact InPayload.advance ((v.forward hok hcls).congr rfl rfl rfl) hf ⟨e.whole, by simp [e.kOut]⟩ hd hc
  | payIhdr b hf hok hcls h12 =>
    obtain ⟨cs, d, e, hd, hc, v⟩ := h.in_payload hf
    obtain ⟨acc, hcs, p⟩ := v.parsed hok hcls
    have stored := (InPayload.parsing (lb := lb) acc hcs (p.store (b := b) (hd ▸ h12))).congr
      (t := storeIhdrByte s.fe.cnt.toNat b (emitK (.pay b) (popS s)))
      (by rw [layerDPart_storeIhdrByte, layerDPart_storeIhdrByte, hd]; rfl) (by simp) (by simp)
    exact stored.advance (by simpa using hf) ⟨e.whole, by simp [e.kOut]⟩ (by simpa using hd) (by simpa using hc)
  | payCommit b hf hok hcls h12 =>
    exact commit_layerD h hlb hf hok hcls h12
  | trailNext b hf =>
    obtain ⟨cs, d, e, hd, v⟩ := h.in_trailer hf
    exact .trailer cs d hf ⟨e.whole, e.kOut⟩ hd fun w => (v w).congr rfl
  | trailDone b hf =>
    obtain ⟨cs, e, v⟩ := h.close (b := b) hf
    exact .between cs (.inr (.inl rfl)) ⟨e.whole, e.kOut⟩ (v.congr rfl)
  | trailEnd b hf =>
    obtain ⟨cs, e, v⟩ := h.close (b := b) hf
    exact haltFE_layerD e v

/-- A call starts before the first chunk. -/
theorem callStart_layerD (lb : Nat) (bs : List Byte) (turns : List Event) : LayerD lb (callStart lb bs turns) :=
  .between [] (.inl rfl) ⟨fun _ h => (nomatch h), rfl⟩ ⟨rfl, rfl, rfl, fun h => nomatch h⟩

end Sys2Proof.Machine

namespace Sys2Proof.Machine
open Sys2Proof.Safety

variable {s t : State} {lb : Nat} {bs : List Byte} {all tokens : List ZToken}

/-! ### FE in a call -/

/-- The descriptor registers alone, as PU finds them once FE has halted. -/
def descriptorOnly (fe : FrontEnd) : FrontEnd :=
  { FrontEnd.reset with
    fst := .halt
    descValid := fe.descValid
    width := fe.width
    height := fe.height
    bitDepth := fe.bitDepth
    colorType := fe.colorType
    compression := fe.compression
    filterMeth := fe.filterMeth
    interlace := fe.interlace
    ch := fe.ch
    bpp := fe.bpp
    bps := fe.bps }

theorem descriptorOnly_haltFE (s : State) : descriptorOnly (haltFE s).fe = descriptorOnly s.fe := by
  rw [haltFE_eq]
  rfl

theorem descriptorOnly_afterPayload (s : State) : descriptorOnly (afterPayload s).fe = descriptorOnly s.fe := by
  rw [afterPayload_eq]
  rfl

theorem descriptorOnly_headerAction (c : ChunkClass) (s : State) :
    descriptorOnly (headerAction c s).fe = descriptorOnly s.fe := by
  cases c with
  | ihdr => simp only [headerAction, dHeaderIhdr]; split_ifs <;> rfl
  | idat => simp only [headerAction, dHeaderIdat]; split_ifs <;> rfl
  | plte => simp only [headerAction, dHeaderPlte]; split_ifs <;> rfl
  | iend | other => rfl

/-- Only the payload of an `IHDR` that layer D reads moves the descriptor registers. -/
theorem FeMove.keeps_descriptor (m : FeMove s t)
    (h : s.fe.fst = .data → s.fe.derr = .ok → classOf s.fe.type ≠ .ihdr) : descriptorOnly t.fe = descriptorOnly s.fe := by
  cases m with
  | sigReject | lenEnd | truncate | trailEnd => exact descriptorOnly_haltFE _
  | payOpaque | payIdat => exact descriptorOnly_afterPayload _
  | payIhdr b hf hd hc => exact absurd hc (h hf hd)
  | payCommit b hf hd hc => exact absurd hc (h hf hd)
  | select b =>
    rw [selectChunk_eq]
    by_cases hd : (shiftType b (popS s)).fe.derr = .ok
    · rw [if_pos hd]
      exact descriptorOnly_headerAction ..
    · rw [if_neg hd]
      rfl
  | hold | sigDone | sigNext | lenDone | lenNext | typeNext | trailNext | trailDone => rfl

/-- A move that does not halt FE emits no `CEnd`. -/
theorem FeMove.cEnd (m : FeMove s t) (ht : t.fe.fst ≠ .halt) (h : CToken.cEnd ∈ t.cOut) : CToken.cEnd ∈ s.cOut := by
  cases m with
  | sigReject | lenEnd | truncate | trailEnd => exact absurd haltFE_fst ht
  | payOpaque => rwa [afterPayload_cOut] at h
  | payIdat => rw [afterPayload_cOut] at h; simpa using h
  | payIhdr => simpa using h
  | payCommit b =>
    have framing := framerPart_committed (storeIhdrByte 12 b (emitK (.pay b) (popS s)))
    simp only [framerPart, Prod.mk.injEq, storeIhdrByte_cOut] at framing
    rw [afterPayload_cOut, framing.2.2.2.1] at h
    exact h
  | select b =>
    have framing := framerPart_selectChunk s.fe.len (shiftIn s.fe.type b) (classOf (shiftIn s.fe.type b)) (shiftType b (popS s))
    simp only [framerPart, Prod.mk.injEq] at framing
    rw [framing.2.2.2.1] at h
    exact h
  | hold | sigDone | sigNext | lenDone | lenNext | typeNext | trailNext | trailDone => exact h

/-- What holds of FE all through a call on the input `bs`, with its ports ready. -/
structure FrontInv (lb : Nat) (bs : List Byte) (s : State) : Prop where
  progress : ∃ rest, Progress bs rest s
  layerD : LayerD lb s
  noEnd : s.fe.fst ≠ .halt → CToken.cEnd ∉ s.cOut
  lbBytes : s.lbBytes = lb

theorem FrontInv.after_feTake (h : FrontInv lb bs s) (hf : s.fe.fst ≠ .halt) (step : feTake s = .next t) : FrontInv lb bs t := by
  have move := feTake_move step
  have kept : ∀ {tok more}, s.sIn = tok :: more → t.lbBytes = lb := fun hs =>
    (congrArg (·.lbBytes) (feTake_frame hf hs step)).trans h.lbBytes
  have layerD := move.layerD h.lbBytes h.layerD
  have noEnd : t.fe.fst ≠ .halt → CToken.cEnd ∉ t.cOut := fun ht => mt (move.cEnd ht) (h.noEnd hf)
  obtain ⟨rest, ⟨p, pos⟩ | fin⟩ := h.progress
  · cases rest with
    | nil =>
      have last := step
      rw [feTake_eos p.sIn] at last
      cases last
      exact ⟨⟨[], .inr (pos.endOfInput_finished p)⟩, layerD, noEnd, kept p.sIn⟩
    | cons b rest =>
      obtain ⟨u, hu, progress⟩ := pos.byte p
      cases step.symm.trans hu
      exact ⟨⟨rest, progress⟩, layerD, noEnd, kept p.sIn⟩
  · exact absurd fin.1 hf

/-- A committed descriptor stays (R80). -/
theorem FrontInv.keeps_descriptor (h : FrontInv lb bs s) (hd : s.fe.descValid = true) (step : feTake s = .next t) :
    descriptorOnly t.fe = descriptorOnly s.fe := by
  refine (feTake_move step).keeps_descriptor fun hf hok hc => ?_
  obtain ⟨cs, d, -, -, -, v⟩ := h.layerD.in_payload hf
  obtain ⟨acc, -, p⟩ := v.parsed hok hc
  exact absurd hd (by simp [p.descValid])

theorem callStart_frontInv (lb : Nat) (bs : List Byte) (turns : List Event) : FrontInv lb bs (callStart lb bs turns) :=
  ⟨⟨bs, callStart_progress lb bs turns⟩, callStart_layerD lb bs turns, fun _ h => (nomatch h), rfl⟩

/-- FE is enabled by a token it accepts. -/
theorem feEnabled_iff (s : State) :
    feEnabled s = true ↔ ∃ tok more, s.sIn = tok :: more ∧ feAccepts s tok = true := by
  unfold feEnabled
  cases s.sIn with
  | nil => simp
  | cons tok more => simp

/-! ### Stream Z in a call (R72) -/

/-- The end token that the result of `inflate` calls for, and the bytes before it. -/
def Ending (last : ZToken) (zs : List Byte) (result : Option (List Byte)) : Prop :=
  (last = .zEnd ∧ result = some zs) ∨ (last = .zErr ∧ result = Option.none)

/-- INFL has offered these tokens in the call. -/
inductive Delivered (all : List ZToken) (s : State) : Prop
  | ongoing : s.infl.ended = false → all = s.infl.sent.map .byte → Delivered all s
  | ended (zs : List Byte) (last : ZToken) : s.infl.ended = true → s.fe.fst = .halt → all = zs.map .byte ++ [last] →
      Ending last zs (Config.inflate (cBytes s)) → Delivered all s

/-! ### PU in a call (R215) -/

/-- The environment of a run of PU alone: FE halted with this descriptor, every port ready. -/
def planeEnv (lb : Nat) (fe : FrontEnd) : State :=
  { callStart lb [] [] with fe := descriptorOnly fe, cOut := [.cEnd] }

/-- Where PU is in a call in which INFL has offered the tokens `all`. -/
inductive PlaneAt (lb : Nat) (all : List ZToken) (s : State) : Prop
  | waiting : s.pu = PlaneUnit.reset → s.pOut = [] → s.zIn = all → PlaneAt lb all s
  | noDescriptor : s.fe.fst = .halt → s.fe.descValid = false → PlaneAt lb all s
  | started : s.fe.descValid = true →
      (∀ later, ∃ n, runPlane n { planeEnv lb s.fe with zIn := all ++ later } =
        .next (planeIn (planeEnv lb s.fe) later s)) →
      PlaneAt lb all s

/-- With a descriptor PU counts as started, be it before its first turn. -/
theorem PlaneAt.runs (h : PlaneAt lb all s) (hd : s.fe.descValid = true) (later : List ZToken) :
    ∃ n, runPlane n { planeEnv lb s.fe with zIn := all ++ later } = .next (planeIn (planeEnv lb s.fe) later s) := by
  cases h with
  | waiting pu pOut zIn =>
    refine ⟨0, ?_⟩
    rw [planeIn, pu, pOut, zIn]
    rfl
  | noDescriptor _ none => exact absurd hd (by simp [none])
  | started _ run => exact run later

/-- More tokens offered. -/
theorem PlaneAt.offer (h : PlaneAt lb all s) (fe : t.fe = s.fe) (pu : t.pu = s.pu) (pOut : t.pOut = s.pOut)
    (zIn : t.zIn = s.zIn ++ tokens) : PlaneAt lb (all ++ tokens) t := by
  cases h with
  | waiting hpu hpOut hzIn => exact .waiting (pu.trans hpu) (pOut.trans hpOut) (by rw [zIn, hzIn])
  | noDescriptor hf hd => exact .noDescriptor (fe ▸ hf) (fe ▸ hd)
  | started hd run =>
    refine .started (fe ▸ hd) fun later => ?_
    have moved := run (tokens ++ later)
    simp only [planeIn, fe, pu, pOut, zIn, List.append_assoc] at moved ⊢
    exact moved

/-- A turn of PU. -/
theorem PlaneAt.after_puStep (h : PlaneAt lb all s) (hlb : s.lbBytes = lb) (step : puStep s = .next t) : PlaneAt lb all t := by
  have frame := puStep_frame step
  have fe : t.fe = s.fe := congrArg (·.fe) frame
  by_cases enabled : puEnabled s = true
  · cases hd : s.fe.descValid with
    | true =>
      refine .started (fe ▸ hd) fun later => ?_
      obtain ⟨n, run⟩ := h.runs hd later
      have turn := puStep_planeIn (e := planeEnv lb s.fe) (later := later) (fun _ => ⟨hd, hd⟩) enabled step
        (by rw [← hlb]; rfl) (fun _ => rfl)
      refine ⟨n + 1, ?_⟩
      rw [runPlane_add, fe, run, andThen_next]
      exact runPlane_of_step 0 turn
    | false =>
      cases h with
      | waiting pu =>
        have hp : s.pu.pst = .wait := by rw [pu]; rfl
        have hf : s.fe.fst = .halt := by simpa [puEnabled, hp, hd] using enabled
        exact .noDescriptor (fe ▸ hf) (fe ▸ hd)
      | noDescriptor hf => exact .noDescriptor (fe ▸ hf) (fe ▸ hd)
      | started hd' => exact absurd hd' (by simp [hd])
  · rw [puStep, if_neg enabled] at step
    cases step
    exact h

/-- When PU has halted with a descriptor, INFL has ended, and PU has run as the row loop over what it delivered. -/
theorem PlaneAt.halted (h : PlaneAt lb all s) (hd : s.fe.descValid = true) (sound : DescriptorSound s) (hlb : s.lbBytes = lb)
    (hp : s.pu.pst = .halt) {zs : List Byte} {last : ZToken} (hl : ZToken.ends last = true) {later : List ZToken}
    (hall : all ++ later = zs.map .byte ++ [last]) :
    later = [] ∧ PlaneEnded [] last s.fe.bitDepth
      (rowLoop (descriptorOf s).bpp (descriptorOf s).bps s.fe.height.toNat Option.none zs) s := by
  subst hlb
  obtain ⟨m, run⟩ := h.runs hd later
  have inv : Inv { planeEnv s.lbBytes s.fe with zIn := all ++ later } :=
    { counterInField := trivial
      rowInImage := trivial
      descriptorSound := sound
      ihdrInProgress := fun h => nomatch h
      idatInProgress := fun h => nomatch h
      planeStarted := trivial
      codesOfLayer := ⟨List.mem_cons_self, List.mem_cons_self, List.mem_cons_self⟩
      frontErrorHalts := fun _ => rfl
      haltHasReason := fun _ none => Bool.noConfusion (hd.symm.trans none)
      planeErrorStops := fun h => absurd rfl h
      drainHasReason := fun h => nomatch h
      buffersCanonical := ⟨rfl, rfl, fun _ h => (nomatch h), fun _ h => nomatch h⟩
      endEmittedOnce := ⟨rfl, fun h => nomatch h⟩
      forwardedNeedsDescriptor := fun _ => hd
      pixelsCounted := rfl }
  obtain ⟨u, whole, stopped, pOut⟩ := runPlane_plane inv rfl hd rfl hl hall
  have same := runPlane_halted_unique run whole hp stopped.pst
  subst same
  have zIn : s.zIn ++ later = [] := stopped.zIn
  exact ⟨(List.append_eq_nil_iff.1 zIn).2, ⟨hp, (List.append_eq_nil_iff.1 zIn).1, stopped.perr⟩, pOut⟩

end Sys2Proof.Machine

namespace Sys2Proof.Machine
open Sys2Proof.Safety

variable {s t : State} {lb : Nat} {bs : List Byte} {all : List ZToken}

/-! ### All agents in a call -/

/-- The streams, registers and records a call's result depends on. -/
def callPart (s : State) : (FrontEnd × PlaneUnit) × (List SToken × List ZToken × List KToken × List CToken × List PToken) ×
    Inflater × Nat × Bool :=
  ((s.fe, s.pu), (s.sIn, s.zIn, s.kOut, s.cOut, s.pOut), s.infl, s.lbBytes, s.srcEnded)

/-- What holds all through a call on the input `bs`, under any schedule. -/
structure CallInv (lb : Nat) (bs : List Byte) (s : State) : Prop where
  front : FrontInv lb bs (frontIn (callStart lb [] []) s)
  lbBytes : s.lbBytes = lb
  srcEnded : s.srcEnded = true
  plane : ∃ all, Delivered all s ∧ PlaneAt lb all s
  noReset : ∀ e ∈ s.sched, Event.isReset e = false

theorem Delivered.congr (h : Delivered all s) (infl : t.infl = s.infl) (fe : t.fe = s.fe) (cOut : t.cOut = s.cOut) :
    Delivered all t := by
  cases h with
  | ongoing hi ha => exact .ongoing (by rw [infl, hi]) (by rw [infl, ha])
  | ended zs last hi hf ha he =>
    refine .ended zs last (by rw [infl, hi]) (by rw [fe, hf]) ha ?_
    rwa [cBytes, cOut, ← cBytes]

theorem CallInv.congr (h : CallInv lb bs s) (same : callPart t = callPart s) (sched : t.sched ⊆ s.sched) :
    CallInv lb bs t := by
  simp only [callPart, Prod.mk.injEq] at same
  obtain ⟨⟨fe, pu⟩, ⟨sIn, zIn, kOut, cOut, pOut⟩, infl, lbBytes, srcEnded⟩ := same
  obtain ⟨all, delivered, plane⟩ := h.plane
  have view : frontIn (callStart lb [] []) t = frontIn (callStart lb [] []) s := by simp only [frontIn, fe, sIn, kOut, cOut]
  have at_plane := plane.offer (tokens := []) fe pu pOut (by rw [zIn, List.append_nil])
  rw [List.append_nil] at at_plane
  exact ⟨view ▸ h.front, lbBytes.trans h.lbBytes, srcEnded.trans h.srcEnded, ⟨all, delivered.congr infl fe cOut, at_plane⟩,
    fun e he => h.noReset e (sched he)⟩

/-- FE's turn. Before FE halts INFL has not ended, and from the commit on FE leaves what PU reads. -/
theorem CallInv.after_feStep (h : CallInv lb bs s) (step : feStep s = .next t) : CallInv lb bs t := by
  by_cases enabled : feEnabled s = true
  · rw [feStep_of_enabled enabled] at step
    obtain ⟨tok, more, hs, accepts⟩ := (feEnabled_iff s).1 enabled
    obtain ⟨hf, -, -⟩ := (feAccepts_iff s tok).1 accepts
    have frame := feTake_frame hf hs step
    have pu : t.pu = s.pu := congrArg (·.pu) frame
    have pOut : t.pOut = s.pOut := congrArg (·.pOut) frame
    have zIn : t.zIn = s.zIn := congrArg (·.zIn) frame
    have infl : t.infl = s.infl := congrArg (·.infl) frame
    have sched : t.sched = s.sched := congrArg (·.sched) frame
    have step' : feTake (frontIn (callStart lb [] []) s) = .next (frontIn (callStart lb [] []) t) :=
      feTake_frontIn (e := callStart lb [] []) h.lbBytes.symm hf hs step
    refine ⟨h.front.after_feTake hf step', (congrArg (·.lbBytes) frame).trans h.lbBytes,
      (congrArg (·.srcEnded) frame).trans h.srcEnded, ?_, sched ▸ h.noReset⟩
    obtain ⟨all, delivered, plane⟩ := h.plane
    refine ⟨all, ?_, ?_⟩
    · cases delivered with
      | ongoing hi ha => exact .ongoing (by rw [infl, hi]) (by rw [infl, ha])
      | ended _ _ _ hf' => exact absurd hf' hf
    · cases plane with
      | waiting hpu hpOut hzIn => exact .waiting (pu.trans hpu) (pOut.trans hpOut) (zIn.trans hzIn)
      | noDescriptor hf' => exact absurd hf' hf
      | started hd run =>
        have kept : descriptorOnly t.fe = descriptorOnly s.fe :=
          h.front.keeps_descriptor (t := frontIn (callStart lb [] []) t) hd step'
        have valid : t.fe.descValid = s.fe.descValid := congrArg (·.descValid) kept
        refine .started (valid.trans hd) fun later => ?_
        have moved := run later
        simp only [planeIn, planeEnv, kept, pu, pOut, zIn] at moved ⊢
        exact moved
  · rw [feStep, if_neg enabled] at step
    cases step
    exact h

/-- PU's turn. -/
theorem CallInv.after_puStep (h : CallInv lb bs s) (step : puStep s = .next t) : CallInv lb bs t := by
  have frame := puStep_frame step
  have fe : t.fe = s.fe := congrArg (·.fe) frame
  have cOut : t.cOut = s.cOut := congrArg (·.cOut) frame
  have view : frontIn (callStart lb [] []) t = frontIn (callStart lb [] []) s := by
    rw [frame]
    rfl
  have sched : t.sched = s.sched := congrArg (·.sched) frame
  obtain ⟨all, delivered, plane⟩ := h.plane
  exact ⟨view ▸ h.front, (congrArg (·.lbBytes) frame).trans h.lbBytes, (congrArg (·.srcEnded) frame).trans h.srcEnded,
    ⟨all, delivered.congr (congrArg (·.infl) frame) fe cOut, plane.after_puStep h.lbBytes step⟩, sched ▸ h.noReset⟩

/-- INFL has accepted `CEnd` only from a halted FE. -/
theorem CallInv.halted_of_cEnd (h : CallInv lb bs s) (hc : CToken.cEnd ∈ s.cOut) : s.fe.fst = .halt :=
  by_contra fun hf => h.front.noEnd hf hc

/-- INFL ends with the token its result calls for. -/
theorem CallInv.after_deliverAll {zs more : List Byte} {last : ZToken} (h : CallInv lb bs s) (hi : s.infl.ended = false)
    (hc : CToken.cEnd ∈ s.cOut) (hzs : s.infl.sent ++ more = zs) (ending : Ending last zs (Config.inflate (cBytes s))) :
    CallInv lb bs (deliverAll more last s) := by
  obtain ⟨all, delivered, plane⟩ := h.plane
  have sent : all = s.infl.sent.map .byte := by
    cases delivered with
    | ongoing _ ha => exact ha
    | ended _ _ hi' => exact absurd hi' (by simp [hi])
  refine ⟨h.front, h.lbBytes, h.srcEnded, ⟨all ++ (more.map .byte ++ [last]), ?_, ?_⟩, h.noReset⟩
  · refine .ended zs last rfl (h.halted_of_cEnd hc) ?_ ending
    rw [sent, ← hzs, List.map_append, List.append_assoc]
  · exact plane.offer rfl rfl rfl (List.append_assoc ..)

/-- INFL's turn. -/
theorem CallInv.after_inflStep (h : CallInv lb bs s) (step : inflStep s = .next t) : CallInv lb bs t := by
  unfold inflStep at step
  split at step
  · rename_i enabled
    simp only [inflEnabled, Bool.and_eq_true, decide_eq_true_eq, Bool.not_eq_true'] at enabled
    obtain ⟨hc, hi⟩ := enabled
    split at step
    · rename_i zs hz
      split at step
      · rename_i consistent
        cases step
        refine h.after_deliverAll hi hc ?_ (.inl ⟨rfl, hz⟩)
        obtain ⟨more, rfl⟩ := List.isPrefixOf_iff_prefix.1 consistent
        rw [List.drop_left]
      · cases step
    · rename_i hz
      cases step
      exact h.after_deliverAll hi hc rfl (.inr ⟨rfl, hz⟩)
  · cases step
    exact h

/-- INFL's turn with a token of its own choice. -/
theorem CallInv.after_deliverStep {z : ZToken} (h : CallInv lb bs s) (step : deliverStep z s = .next t) : CallInv lb bs t := by
  unfold deliverStep at step
  split at step
  · cases step
  · rename_i notEnded
    have hi : s.infl.ended = false := by simpa using notEnded
    split at step
    · rename_i b
      cases step
      obtain ⟨all, delivered, plane⟩ := h.plane
      cases delivered with
      | ongoing _ ha =>
        refine ⟨h.front, h.lbBytes, h.srcEnded, ⟨all ++ [.byte b], ?_, plane.offer rfl rfl rfl rfl⟩, h.noReset⟩
        exact .ongoing hi (by rw [ha]; exact (List.map_append (l₁ := s.infl.sent) (l₂ := [b])).symm)
      | ended _ _ hi' => exact absurd hi' notEnded
    · split at step
      · rename_i agrees
        cases step
        exact h.after_deliverAll hi agrees.1 (List.append_nil _) (.inl ⟨rfl, agrees.2⟩)
      · cases step
    · split at step
      · rename_i agrees
        cases step
        exact h.after_deliverAll hi agrees.1 rfl (.inr ⟨rfl, agrees.2⟩)
      · cases step

/-- The reference encoder touches its own record alone. -/
theorem encodeRowStep_callPart {b : Byte} (h : encodeRowStep b s = .next t) : callPart t = callPart s ∧ t.sched = s.sched := by
  unfold encodeRowStep at h
  split at h
  · cases h
    exact ⟨rfl, rfl⟩
  · split at h
    · rw [exec_fwdInstr, forwardRow] at h
      split at h
      · cases h
        exact ⟨rfl, rfl⟩
      · cases h
        exact ⟨rfl, rfl⟩
    · cases h
      exact ⟨rfl, rfl⟩

/-- A scheduled turn other than a reset. -/
theorem CallInv.after_event {e : Event} (h : CallInv lb bs s) (he : Event.isReset e = false) (step : runEvent e s = .next t) :
    CallInv lb bs t := by
  cases e with
  | fe => exact h.after_feStep step
  | pu => exact h.after_puStep step
  | infl => exact h.after_inflStep step
  | deliver z => exact h.after_deliverStep step
  | src z =>
    rw [runEvent, srcStep, if_pos h.srcEnded] at step
    cases step
  | setKReady | setCReady | setPReady =>
    cases step
    exact h.congr rfl (List.Subset.refl _)
  | rst => cases he
  | encodeRow b =>
    obtain ⟨same, sched⟩ := encodeRowStep_callPart step
    exact h.congr same (sched ▸ List.Subset.refl _)

/-- Every step of a call without a reset. -/
theorem CallInv.after_step (h : CallInv lb bs s) (taken : step s = .next t) : CallInv lb bs t := by
  unfold step takeTurn at taken
  split at taken
  · unfold defaultTurn at taken
    split_ifs at taken
    · exact h.after_feStep taken
    · exact h.after_puStep taken
    · exact h.after_inflStep taken
    · cases taken
      exact h
  · rename_i e rest hs
    have turn : CallInv lb bs { s with sched := rest } := h.congr rfl (by rw [hs]; exact List.subset_cons_self ..)
    exact turn.after_event (h.noReset e (by rw [hs]; exact List.mem_cons_self)) taken

/-- A run is a step and the rest of the run. -/
theorem coreRun_succ (n : Nat) (s : State) :
    Host.Core.run Sys2Proof.core (n + 1) s = andThen (step s) (Host.Core.run Sys2Proof.core n) := by
  have first : Sys2Proof.core.step s = step s := rfl
  simp only [Host.Core.run, first]
  cases step s <;> rfl

theorem CallInv.after_run (n : Nat) (h : CallInv lb bs s) (run : Host.Core.run Sys2Proof.core n s = .next t) : CallInv lb bs t := by
  induction n generalizing s with
  | zero =>
    cases run
    exact h
  | succ n ih =>
    obtain ⟨u, taken, rest⟩ := andThen_eq_next ((coreRun_succ n s).symm.trans run)
    exact ih (h.after_step taken) rest

theorem callStart_callInv (lb : Nat) (bs : List Byte) {turns : List Event} (h : ∀ e ∈ turns, Event.isReset e = false) :
    CallInv lb bs (callStart lb bs turns) :=
  ⟨callStart_frontInv lb bs [], rfl, rfl, ⟨[], .ongoing rfl rfl, .waiting rfl rfl rfl⟩, h⟩

/-! ### The result of a call (R257, R258) -/

/-- Where FE has halted, layer F has the result of `decode`. -/
theorem CallInv.layerFResult_eq (h : CallInv lb bs s) (hf : s.fe.fst = .halt) : layerFResult s = some (decodeContainer bs) := by
  obtain ⟨rest, ⟨-, pos⟩ | fin⟩ := h.front.progress
  · exact absurd hf pos.not_halted
  · exact fin.2

/-- Where FE has halted without a layer-F error, layer D has the result of the fold over the chunks of `decode`. -/
theorem CallInv.layerD_eq (h : CallInv lb bs s) (hf : s.fe.fst = .halt) (ok : s.fe.ferr = .ok) :
    ∃ cs, decodeContainer bs = .ok cs ∧ Concluded (fold lb cs) s := by
  obtain rfl := h.lbBytes
  cases h.front.layerD with
  | between _ hf' => exact absurd hf' (by simp [frontIn, hf])
  | payload _ _ hf' => exact nomatch hf'.symm.trans hf
  | trailer _ _ hf' => exact nomatch hf'.symm.trans hf
  | halted _ result =>
    obtain ⟨cs, e, verdict⟩ := result ok
    have kOut : s.kOut = (cs.map chunkTokens).flatten := by simpa [frontIn] using e.kOut
    have decoded := h.layerFResult_eq hf
    rw [layerFResult, if_pos hf, if_pos ok, kOut, chunksOf_tokens e.whole] at decoded
    exact ⟨cs, (Option.some.inj decoded).symm, verdict⟩

/-- The row loop fails with an error only. -/
theorem rowLoop_fail_ne_ok {bpp bps n : Nat} {prev : Option (List Byte)} {zs : List Byte} {e : ErrCode}
    (h : rowLoop bpp bps n prev zs = .fail e) : e ≠ .ok := by
  induction n generalizing prev zs with
  | zero => cases h
  | succ n ih =>
    cases zs with
    | nil =>
      cases h
      decide
    | cons ft zs =>
      simp only [rowLoop] at h
      split at h
      · cases h
        decide
      · split_ifs at h
        · cases h
          decide
        · split at h
          · cases h
          · rename_i loop
            cases h
            exact ih loop

/-- Where both agents have halted with a descriptor, layer P has the result of `decode_plane`. -/
theorem CallInv.plane_eq (h : CallInv lb bs s) (hp : s.pu.pst = .halt) (hd : s.fe.descValid = true) (sound : DescriptorSound s) :
    (if s.pu.perr = .ok then Result.ok (matrixView (descriptorOf s) (s.pOut.map PToken.b)) else .fail s.pu.perr)
      = decodePlane Config.inflate (cBytes s) (descriptorOf s) := by
  obtain ⟨all, delivered, plane⟩ := h.plane
  cases delivered with
  | ongoing _ ha =>
    obtain ⟨none, -⟩ := plane.halted hd sound h.lbBytes hp (last := .zEnd) rfl (later := [.zEnd]) (by rw [ha])
    cases none
  | ended zs last _ _ ha ending =>
    have ends : ZToken.ends last = true := by rcases ending with ⟨rfl, -⟩ | ⟨rfl, -⟩ <;> rfl
    obtain ⟨-, ⟨-, -, perr⟩, pOut⟩ := plane.halted hd sound h.lbBytes hp ends (later := []) (by rw [List.append_nil, ha])
    rcases ending with ⟨rfl, hz⟩ | ⟨rfl, hz⟩
    · rw [decodePlane, hz]
      cases loop : rowLoop (descriptorOf s).bpp (descriptorOf s).bps s.fe.height.toNat Option.none zs with
      | fail e =>
        rw [loop] at perr
        have code : s.pu.perr = e := perr
        simp only [planeRows_of_fail loop, code, if_neg (rowLoop_fail_ne_ok loop)]
      | ok rows =>
        rw [loop] at perr
        by_cases depth : supportedDepth (descriptorOf s).bitDepth = false
        · have code : s.pu.perr = .unsupportedBitDepth := perr.trans (if_pos depth)
          simp [planeRows_of_ok loop, code, if_pos depth]
        · have code : s.pu.perr = .ok := perr.trans (if_neg depth)
          simp only [planeRows_of_ok loop, code, if_neg depth, if_true, pOut rows loop, List.nil_append]
    · have code : s.pu.perr = .decompressionFailed := perr
      simp [decodePlane, hz, code]

end Sys2Proof.Machine

namespace Sys2Proof.Proofs.ExceptionsFamily
open Sys2Proof.Machine Sys2Proof.Safety

/-- Settles O59: the call invariant holds at the end of the run, where it gives the result of each layer, and `RESULT` takes the first error
in the order of `decode_png`. -/
theorem wholeCallIsDecodePng : Obligations.WholeCallIsDecodePng := by
  intro lb n bs turns t noReset run hdone
  have inv := (callStart_callInv lb bs noReset).after_run n run
  obtain ⟨hf, hp⟩ := (done_eq_true_iff t).1 hdone
  have layerF := inv.layerFResult_eq hf
  refine ⟨?_, (if_pos hdone).trans layerF⟩
  rw [callResult, if_pos hdone]
  refine congrArg some ?_
  by_cases ok : t.fe.ferr = .ok
  · obtain ⟨cs, decoded, verdict⟩ := inv.layerD_eq hf ok
    rw [decodePng, decoded]
    cases folded : fold lb cs with
    | fail e =>
      rw [folded] at verdict
      obtain ⟨derr, ne⟩ := verdict
      simp only [folded]
      rw [result_of_derr ok (derr ▸ ne), derr, if_neg ne]
    | ok r =>
      obtain ⟨desc, idat⟩ := r
      rw [folded] at verdict
      obtain ⟨derr, valid, rfl, sound, rfl⟩ := verdict
      simp only [folded]
      rw [result_of_perr ok derr]
      exact inv.plane_eq hp valid sound
  · rw [layerFResult, if_pos hf, if_neg ok] at layerF
    rw [decodePng, ← Option.some.inj layerF, result_of_ferr ok, if_neg ok]

end Sys2Proof.Proofs.ExceptionsFamily
end

section
/-! PROOFS. The family `70_reset_and_hazards.md`: what an edge with `rst = 1` does, and the pins while `rst` is 1 (R290). -/

namespace Sys2Proof.Machine

/-- R290: the turn `rst` is the reset of the state whose schedule has that turn taken, whatever the block was doing. -/
theorem step_of_sched_rst {s : State} {input : List Byte} {ends : Bool} {turns : List Event}
    (h : s.sched = .rst input ends :: turns) : step s = .next (assertReset input ends { s with sched := turns }) := by
  simp only [step, takeTurn, h, runEvent]

/-- What reset sets, beside what it leaves (`assertReset_keeps`): the registers of FE and PU (R52). -/
theorem assertReset_registers (input : List Byte) (ends : Bool) (s : State) :
    (assertReset input ends s).fe = State.reset.fe ∧ (assertReset input ends s).pu.pst = .wait ∧
      (assertReset input ends s).pu.row = 0 ∧ (assertReset input ends s).pu.col = 0 ∧
      (assertReset input ends s).pu.ft = .none ∧ (assertReset input ends s).pu.perr = .ok :=
  ⟨rfl, rfl, rfl, rfl, rfl, rfl⟩

/-- R290: `rst` drives the five handshake pins to 0 and no other pin. -/
theorem pins_of_rst (s : State) :
    pins true s = { pins false s with
      sReady := false, zReady := false, kValid := false, cValid := false, pValid := false } := rfl

end Sys2Proof.Machine

namespace Sys2Proof.Proofs.ResetAndHazardsFamily
open Sys2Proof.Machine

/-- Settles O34: the step is `assertReset`, which sets every register of the block, and `rst` masks every handshake pin. -/
theorem resetStartsACallFromAnyState : Obligations.ResetStartsACallFromAnyState := by
  refine ⟨fun s input ends turns h => ?_, fun s => ?_⟩
  · exact ⟨_, step_of_sched_rst h, assertReset_registers input ends _⟩
  · rw [pins_of_rst]
    exact ⟨rfl, rfl, rfl, rfl, rfl⟩

end Sys2Proof.Proofs.ResetAndHazardsFamily
end

section
/-! PROOFS. Encodings and codes: decoding undoes encoding and encoding undoes decoding (`30_encoding.md` R91 to R101, R118). Every
well-formed instruction is the row of its format for a header, a colour type or a filter type, so each format has one law in each
direction. -/

namespace Sys2Proof
open Sys2Proof.Machine

/-! ### Words in bytes (R9) -/

theorem be32Bytes_be32 (b0 b1 b2 b3 : Byte) : be32Bytes (be32 b0 b1 b2 b3) = [b0, b1, b2, b3] := by
  rw [← shiftIn_four 0 b0 b1 b2 b3]
  simp only [← lowBytes_four, lowBytes_shiftIn (k := 3) (by decide), lowBytes_shiftIn (k := 2) (by decide),
    lowBytes_shiftIn (k := 1) (by decide), lowBytes_shiftIn (k := 0) (by decide), lowBytes_zero]
  rfl

/-! ### Rows of the table (R118) -/

theorem headerInstr_row (n t : Word32) :
    (headerInstr n t).wf = true ∧ (headerInstr n t).format = .chunkHeader ∧
      encode (headerInstr n t) = be32Bytes n ++ be32Bytes t := by
  rcases classOf_cases t with ⟨rfl, -⟩ | ⟨rfl, -⟩ | ⟨rfl, -⟩ | ⟨rfl, -⟩ | h
  · exact ⟨rfl, rfl, rfl⟩
  · exact ⟨rfl, rfl, rfl⟩
  · exact ⟨rfl, rfl, rfl⟩
  · exact ⟨rfl, rfl, rfl⟩
  · rw [headerInstr, h]
    exact ⟨(other_wf_iff n t).2 h, rfl, rfl⟩

theorem headerInstr_other {n t : Word32} (h : (Instr.other n t).wf = true) : headerInstr n t = .other n t := by
  rw [headerInstr, (other_wf_iff n t).1 h]

/-- A well-formed instruction is a row of one of the five formats. -/
inductive TableRow : Instr → Prop
  | sig : TableRow .sig
  | header (n t : Word32) : TableRow (headerInstr n t)
  | colour (c : ColourType) : TableRow c.instr
  | filter (f : FilterType) : TableRow f.instr
  | forward (f : FilterType) : TableRow f.fwdInstr

theorem tableRow_of_wf {i : Instr} (h : i.wf = true) : TableRow i := by
  cases i with
  | sig => exact .sig
  | ihdr n => exact .header n ihdrTag
  | idat n => exact .header n idatTag
  | iend n => exact .header n iendTag
  | plte n => exact .header n plteTag
  | other n t => exact headerInstr_other h ▸ .header n t
  | gray => exact .colour .gray
  | rgb => exact .colour .rgb
  | indexed => exact .colour .indexed
  | graya => exact .colour .graya
  | rgba => exact .colour .rgba
  | none => exact .filter .none
  | sub => exact .filter .sub
  | up => exact .filter .up
  | avg => exact .filter .avg
  | paeth => exact .filter .paeth
  | fwdNone => exact .forward .none
  | fwdSub => exact .forward .sub
  | fwdUp => exact .forward .up
  | fwdAvg => exact .forward .avg
  | fwdPaeth => exact .forward .paeth

/-! ### One law for each format -/

theorem decode_header (n t : Word32) (rest : List Byte) :
    decode .chunkHeader (be32Bytes n ++ be32Bytes t ++ rest) = .ok (headerInstr n t) rest := by
  simp only [be32Bytes, List.cons_append, List.nil_append, decode, be32_extract]

theorem colourTypeOf_code (c : ColourType) : colourTypeOf c.code = some c := by cases c <;> rfl

theorem colourTypeOf_eq_some {b : Byte} {c : ColourType} (h : colourTypeOf b = some c) : c.code = b := by
  unfold colourTypeOf at h
  split_ifs at h <;> cases h <;> symm <;> assumption

theorem filterTypeOf_eq_some {b : Byte} {f : FilterType} (h : filterTypeOf b = some f) : f.byte = b := by
  unfold filterTypeOf at h
  split_ifs at h <;> cases h <;> symm <;> assumption

/-- A one-byte row of a legal colour type (R96). -/
theorem colourInstr_row (c : ColourType) :
    c.instr.wf = true ∧ c.instr.format = .colourType ∧ encode c.instr = [c.code] := by
  cases c <;> exact ⟨rfl, rfl, rfl⟩

/-- A one-byte row of a legal filter type (R99). -/
theorem filterInstr_row (f : FilterType) :
    f.instr.wf = true ∧ f.instr.format = .filterByte ∧ encode f.instr = [f.byte] := by
  cases f <;> exact ⟨rfl, rfl, rfl⟩

/-- A one-byte row of a forward filter (R118). -/
theorem fwdInstr_row (f : FilterType) :
    f.fwdInstr.wf = true ∧ f.fwdInstr.format = .filterByteEncode ∧ encode f.fwdInstr = [f.byte] := by
  cases f <;> exact ⟨rfl, rfl, rfl⟩

theorem decode_encode_row {i : Instr} (h : TableRow i) (rest : List Byte) : decode i.format (encode i ++ rest) = .ok i rest := by
  cases h with
  | sig => rfl
  | header n t =>
    obtain ⟨-, format, bytes⟩ := headerInstr_row n t
    rw [format, bytes, decode_header]
  | colour c =>
    obtain ⟨-, format, bytes⟩ := colourInstr_row c
    rw [format, bytes, List.singleton_append, decode, colourTypeOf_code]
  | filter f =>
    obtain ⟨-, format, bytes⟩ := filterInstr_row f
    rw [format, bytes, List.singleton_append, decode, filterTypeOf_byte]
  | forward f =>
    obtain ⟨-, format, bytes⟩ := fwdInstr_row f
    rw [format, bytes, List.singleton_append, decode, filterTypeOf_byte]

/-- A format decodes a byte list only as a row of its own, whose bytes the list begins with. -/
theorem encode_of_decode {f : Format} {bs rest : List Byte} {i : Instr} (h : decode f bs = .ok i rest) :
    i.wf = true ∧ i.format = f ∧ encode i ++ rest = bs := by
  unfold decode at h
  split at h
  · split_ifs at h with hs
    cases h
    exact ⟨rfl, rfl, by rw [encode, ← hs, List.take_append_drop]⟩
  · cases h
    obtain ⟨wf, format, bytes⟩ := headerInstr_row (be32 _ _ _ _) (be32 _ _ _ _)
    exact ⟨wf, format, by rw [bytes, be32Bytes_be32, be32Bytes_be32]; rfl⟩
  · cases h
  · cases h
  · split at h
    · rename_i c hc
      cases h
      obtain ⟨wf, format, bytes⟩ := colourInstr_row c
      exact ⟨wf, format, by rw [bytes, colourTypeOf_eq_some hc]; rfl⟩
    · cases h
  · cases h
  · split at h
    · rename_i f hf
      cases h
      obtain ⟨wf, format, bytes⟩ := filterInstr_row f
      exact ⟨wf, format, by rw [bytes, filterTypeOf_eq_some hf]; rfl⟩
    · cases h
  · cases h
  · split at h
    · rename_i f hf
      cases h
      obtain ⟨wf, format, bytes⟩ := fwdInstr_row f
      exact ⟨wf, format, by rw [bytes, filterTypeOf_eq_some hf]; rfl⟩
    · cases h

end Sys2Proof

namespace Sys2Proof.Proofs.OtherFamily
open Sys2Proof.Machine

/-- Settles O1: a well-formed instruction is a row of its format, and each format's law gives the row back. -/
theorem decodeOfEncodeIsTheInstruction : Obligations.DecodeOfEncodeIsTheInstruction := fun _ rest wf =>
  decode_encode_row (tableRow_of_wf wf) rest

/-- Settles O2: the decoder answers rows of the format only, each from its own bytes. -/
theorem encodeOfDecodeIsTheBytes : Obligations.EncodeOfDecodeIsTheBytes := fun _ _ _ _ h => encode_of_decode h

/-- Settles O3: by evaluation of the decoder on the nine words. -/
theorem specWordsDecodeToTheirRows : Obligations.SpecWordsDecodeToTheirRows := by
  unfold Obligations.SpecWordsDecodeToTheirRows
  decide

/-- Settles O5: the tables compare the byte with numerals of 8 bits, the statement its value. -/
theorem oneByteFormatsFollowTheirTables : Obligations.OneByteFormatsFollowTheirTables := by
  intro b rest
  have value := fun k hk => toNat_eq_iff b k hk
  refine ⟨?_, ?_, ?_⟩
  · simp only [decode, colourTypeOf, value 0 (by decide), value 2 (by decide), value 3 (by decide), value 4 (by decide),
      value 6 (by decide)]
    split_ifs <;> rfl
  · simp only [decode, filterTypeOf, value 0 (by decide), value 1 (by decide), value 2 (by decide), value 3 (by decide),
      value 4 (by decide)]
    split_ifs <;> rfl
  · simp only [decode, filterTypeOf, value 0 (by decide), value 1 (by decide), value 2 (by decide), value 3 (by decide),
      value 4 (by decide)]
    split_ifs <;> rfl

/-- Settles O31: by evaluation of the four code tables. -/
theorem registerCodesFollowTheTables : Obligations.RegisterCodesFollowTheTables := by
  unfold Obligations.RegisterCodesFollowTheTables
  decide

end Sys2Proof.Proofs.OtherFamily
end

section
/-! PROOFS. Laws 1 to 3 of `44_forward_reference.md` section 5, and the fold over the chunks (`41_dispatch.md` R166). A list of equal
rows is read back by index (`getD_flatten`), which carries law 3 from bytes to elements and from elements to pixels. -/

namespace Sys2Proof.Machine
open Sys2Proof.Safety

/-! ### Law 1 -/

/-- Whole chunks, of which only the last may be `IEND`, are what their records decode to. -/
theorem decodeContainer_containerBytes {cs : List Chunk} (whole : ∀ c ∈ cs, c.consistent = true)
    (inner : ∀ c ∈ cs.dropLast, c.typeTag ≠ iendTag) : decodeContainer (containerBytes cs) = .ok cs := by
  rcases cs.eq_nil_or_concat' with rfl | ⟨front, last, rfl⟩
  · exact decodeContainer_clean fun _ h => nomatch h
  · rw [List.dropLast_concat] at inner
    obtain ⟨wholeFront, wholeLast⟩ := List.forall_mem_append.1 whole
    have before : Inner front := fun c hc => ⟨wholeFront c hc, inner c hc⟩
    have wholeLast := wholeLast last List.mem_cons_self
    by_cases ending : last.typeTag = iendTag
    · simpa [containerBytes] using decodeContainer_end before wholeLast ending []
    · exact decodeContainer_clean (List.forall_mem_append.2 ⟨before, List.forall_mem_singleton.2 ⟨wholeLast, ending⟩⟩)

/-! ### Law 2 -/

variable {f : FilterType} {prev : Option (List Byte)} {bpp : Nat}

theorem filt_eq_sub (f : FilterType) (x : Byte) (n : Neighbours) : filt f x n = x - predicted f n := by
  cases f with
  | none => exact (BitVec.sub_zero x).symm
  | sub | up | avg | paeth => rfl

theorem recon_filt (f : FilterType) (x : Byte) (n : Neighbours) : recon f (filt f x n) n = x := by
  rw [recon_eq_add, filt_eq_sub, BitVec.sub_add_cancel]

/-- With a stride of at least 1 the neighbours of a byte are bytes before it. -/
theorem listNeighbours_append (done xs : List Byte) (prev : Option (List Byte)) (hb : 1 ≤ bpp) :
    listNeighbours (done ++ xs) prev bpp done.length = listNeighbours done prev bpp done.length := by
  have left : (if bpp ≤ done.length then (done ++ xs).getD (done.length - bpp) 0 else 0)
      = if bpp ≤ done.length then done.getD (done.length - bpp) 0 else 0 := by
    split_ifs with h
    · exact List.getD_append _ _ _ _ (by omega)
    · rfl
  simp only [listNeighbours, left]

/-- Byte `i` of the filtered row (R237). -/
def filteredByte (f : FilterType) (row : List Byte) (prev : Option (List Byte)) (bpp i : Nat) : Byte :=
  filt f (row.getD i 0) (listNeighbours row prev bpp i)

theorem filterRow_eq (f : FilterType) (row : List Byte) (prev : Option (List Byte)) (bpp : Nat) :
    filterRow f row prev bpp = (List.range' 0 row.length).map (filteredByte f row prev bpp) := by
  rw [filterRow, filterRowWith, List.range_eq_range']
  rfl

theorem filterRow_length (f : FilterType) (row : List Byte) (prev : Option (List Byte)) (bpp : Nat) :
    (filterRow f row prev bpp).length = row.length := by
  rw [filterRow_eq, List.length_map, List.length_range']

/-- The loop of `unfilter` over the rest of a filtered row makes the rest of the row. -/
theorem unfilterLoop_filteredByte (hb : 1 ≤ bpp) (done xs : List Byte) :
    unfilterLoop f prev bpp ((List.range' done.length xs.length).map (filteredByte f (done ++ xs) prev bpp)) done
      = done ++ xs := by
  induction xs generalizing done with
  | nil => exact (List.append_nil done).symm
  | cons x xs ih =>
    have made : recon f (filteredByte f (done ++ x :: xs) prev bpp done.length) (listNeighbours done prev bpp done.length) = x := by
      rw [filteredByte, listNeighbours_append done (x :: xs) prev hb, List.getD_append_right _ _ _ _ le_rfl, Nat.sub_self]
      exact recon_filt f x _
    rw [List.length_cons, List.range'_succ, List.map_cons, unfilterLoop, made]
    simpa using ih (done ++ [x])

theorem unfilterRow_filterRow (hb : 1 ≤ bpp) (row : List Byte) :
    unfilterRow f (filterRow f row prev bpp) prev bpp = row := by
  rw [filterRow_eq]
  exact unfilterLoop_filteredByte hb [] row

/-- A byte up to 4 is a filter type. -/
theorem filterTypeOf_of_le {b : Byte} (h : b.toNat ≤ 4) : ∃ f, filterTypeOf b = some f := by
  have value := fun k hk => toNat_eq_iff b k hk
  have legal : b.toNat = 0 ∨ b.toNat = 1 ∨ b.toNat = 2 ∨ b.toNat = 3 ∨ b.toNat = 4 := by omega
  rw [value 0 (by decide), value 1 (by decide), value 2 (by decide), value 3 (by decide), value 4 (by decide)] at legal
  rcases legal with rfl | rfl | rfl | rfl | rfl
  · exact ⟨.none, rfl⟩
  · exact ⟨.sub, rfl⟩
  · exact ⟨.up, rfl⟩
  · exact ⟨.avg, rfl⟩
  · exact ⟨.paeth, rfl⟩

/-! ### Law 3: rows -/

/-- The row loop undoes the encoding of rows of one length. -/
theorem rowLoop_encodeRows {bps : Nat} (hb : 1 ≤ bpp) (rows : List (List Byte)) (hlen : ∀ row ∈ rows, row.length = bps)
    (prev : Option (List Byte)) : rowLoop bpp bps rows.length prev (encodeRows f bpp prev rows) = .ok rows := by
  induction rows generalizing prev with
  | nil => rfl
  | cons row rows ih =>
    obtain ⟨hrow, hrows⟩ := List.forall_mem_cons.1 hlen
    have filtered : (filterRow f row prev bpp).length = bps := (filterRow_length ..).trans hrow
    have enough : ¬ (filterRow f row prev bpp ++ encodeRows f bpp (some row) rows).length < bps := by
      rw [List.length_append]
      omega
    rw [List.length_cons, encodeRows, List.cons_append, rowLoop, filterTypeOf_byte]
    simp only [if_neg enough, List.take_left' filtered, List.drop_left' filtered, unfilterRow_filterRow hb, ih hrows]

/-! ### Law 3: elements -/

section
variable {α : Type}

/-- Element `j` of list `i` in the concatenation of lists of one length. -/
theorem getD_flatten {ls : List (List α)} {n : Nat} (hlen : ∀ l ∈ ls, l.length = n) (i : Nat) {j : Nat} (hj : j < n) (z : α) :
    ls.flatten.getD (i * n + j) z = (ls.getD i []).getD j z := by
  induction ls generalizing i with
  | nil => rfl
  | cons l ls ih =>
    obtain ⟨hl, hls⟩ := List.forall_mem_cons.1 hlen
    cases i with
    | zero => rw [List.flatten_cons, Nat.zero_mul, Nat.zero_add, List.getD_append _ _ _ _ (hl ▸ hj), List.getD_cons_zero]
    | succ i =>
      have past : (i + 1) * n + j = l.length + (i * n + j) := by rw [hl]; ring
      rw [List.flatten_cons, past, List.getD_append_right _ _ _ _ (Nat.le_add_right ..), Nat.add_sub_cancel_left, ih hls,
        List.getD_cons_succ]

/-- A list is the table of its entries. -/
theorem map_range_eq {l : List α} {n : Nat} (hlen : l.length = n) {g : Nat → α} (hg : ∀ i (hi : i < l.length), g i = l[i]) :
    (List.range n).map g = l :=
  List.ext_getElem (by simp [hlen]) fun i _ hi => by rw [List.getElem_map, List.getElem_range, hg i hi]

end

variable {d : Descriptor} {m : PixelMatrix}

theorem elementBytesOf_length (d : Descriptor) (e : Nat) : (elementBytesOf d e).length = d.elementBytes := by
  unfold elementBytesOf Descriptor.elementBytes
  split_ifs <;> rfl

/-- The value of an element's bytes (R100, R212). -/
def elementValue (d : Descriptor) (bs : List Byte) : Nat :=
  if d.bitDepth = 16 then (bs.getD 0 0).toNat * 256 + (bs.getD 1 0).toNat else (bs.getD 0 0).toNat

theorem elementValue_elementBytesOf {e : Nat} (he : e < 256 ^ d.elementBytes) : elementValue d (elementBytesOf d e) = e := by
  unfold Descriptor.elementBytes at he
  unfold elementValue elementBytesOf
  split_ifs at he ⊢ with h
  · simp only [List.getD_cons_zero, List.getD_cons_succ, BitVec.toNat_ofNat]
    omega
  · simp only [List.getD_cons_zero, BitVec.toNat_ofNat]
    omega

/-- The bytes of a row of elements (R238). -/
def rowBytes (d : Descriptor) (row : List Nat) : List Byte := (row.map (elementBytesOf d)).flatten

theorem rowBytes_length (d : Descriptor) (row : List Nat) : (rowBytes d row).length = row.length * d.elementBytes := by
  induction row with
  | nil => exact (Nat.zero_mul _).symm
  | cons e row ih =>
    rw [rowBytes] at ih
    rw [rowBytes, List.map_cons, List.flatten_cons, List.length_append, ih, elementBytesOf_length, List.length_cons]
    ring

/-- What fits a descriptor has its rows of `WIDTH` pixels, each element in range (R213, R238). -/
structure ElementsFit (d : Descriptor) (rows : List (List Nat)) : Prop where
  height : rows.length = d.height.toNat
  width : ∀ row ∈ rows, row.length = d.width.toNat * d.channels
  range : ∀ row ∈ rows, ∀ e ∈ row, e < 256 ^ d.elementBytes

theorem flatten_length_of_uniform {α : Type} {ls : List (List α)} {n : Nat} (hlen : ∀ l ∈ ls, l.length = n) :
    ls.flatten.length = ls.length * n := by
  rw [List.length_flatten, List.eq_replicate_of_mem (l := ls.map List.length) (a := n) (by simpa using hlen), List.sum_replicate_nat,
    List.length_map]

theorem elementsFit_of_fits (h : m.fits d) : ElementsFit d m.elements := by
  cases m with
  | flat rows =>
    obtain ⟨one, height, rows_fit⟩ := h
    exact ⟨height, fun row hr => by rw [one, Nat.mul_one]; exact (rows_fit row hr).1, fun row hr => (rows_fit row hr).2⟩
  | deep rows =>
    obtain ⟨-, height, rows_fit⟩ := h
    refine ⟨(List.length_map _).trans height, List.forall_mem_map.2 fun row hr => ?_, List.forall_mem_map.2 fun row hr e he => ?_⟩
    · rw [flatten_length_of_uniform fun px hp => ((rows_fit row hr).2 px hp).1, (rows_fit row hr).1]
    · obtain ⟨px, hp, hep⟩ := List.mem_flatten.1 he
      exact ((rows_fit row hr).2 px hp).2 e hep

/-- Pixels of whole bytes: `BPP` and `BPS` in elements (R157, R212). -/
theorem quantities_in_elements (hd : d.bitDepth = 8 ∨ d.bitDepth = 16) :
    d.bpp = d.channels * d.elementBytes ∧ d.bps = d.width.toNat * d.channels * d.elementBytes := by
  have pixel : d.bpp = d.channels * d.elementBytes := by
    unfold Descriptor.bpp bytesPerPixel ceilDiv8 Descriptor.elementBytes
    rcases hd with hd | hd <;> rw [hd] <;> simp <;> omega
  refine ⟨pixel, ?_⟩
  rw [Nat.mul_assoc, ← pixel]
  exact bytesPerScanline_eq_mul hd d.width d.channels

theorem rowBytes_length_of_fit {rows : List (List Nat)} (fit : ElementsFit d rows) (hd : d.bitDepth = 8 ∨ d.bitDepth = 16) :
    ∀ bs ∈ rows.map (rowBytes d), bs.length = d.bps := by
  refine List.forall_mem_map.2 fun row hr => ?_
  rw [rowBytes_length, fit.width row hr, (quantities_in_elements hd).2]

/-- Byte `i` of element `q` of row `r` in the bytes of all rows. -/
theorem byte_of_element {rows : List (List Nat)} (fit : ElementsFit d rows) (hd : d.bitDepth = 8 ∨ d.bitDepth = 16) {r q i : Nat}
    (hr : r < rows.length) (hq : q < rows[r].length) (hi : i < d.elementBytes) :
    (rows.map (rowBytes d)).flatten.getD (r * d.bps + (q * d.elementBytes + i)) 0
      = (elementBytesOf d rows[r][q]).getD i 0 := by
  have inRow : q * d.elementBytes + i < d.bps := by
    rw [(quantities_in_elements hd).2, ← fit.width _ (List.getElem_mem hr)]
    calc q * d.elementBytes + i < (q + 1) * d.elementBytes := by rw [Nat.add_mul]; omega
      _ ≤ rows[r].length * d.elementBytes := Nat.mul_le_mul_right _ hq
  have row : (rows.map (rowBytes d)).getD r [] = rowBytes d rows[r] := by
    rw [List.getD_eq_getElem _ _ (by simpa using hr), List.getElem_map]
  have element : (rows[r].map (elementBytesOf d)).getD q [] = elementBytesOf d rows[r][q] := by
    rw [List.getD_eq_getElem _ _ (by simpa using hq), List.getElem_map]
  rw [getD_flatten (rowBytes_length_of_fit fit hd) r inRow, row, rowBytes,
    getD_flatten (List.forall_mem_map.2 fun e _ => elementBytesOf_length d e) q hi, element]

/-- The matrix view finds each element where the encoding put it (R212). -/
theorem matrixElement_eq {rows : List (List Nat)} (fit : ElementsFit d rows) (hd : d.bitDepth = 8 ∨ d.bitDepth = 16) {r x k : Nat}
    (hr : r < rows.length) (hq : x * d.channels + k < rows[r].length) :
    matrixElement d (rows.map (rowBytes d)).flatten r x k = rows[r][x * d.channels + k] := by
  have byte := fun i hi => byte_of_element fit hd (i := i) hr hq hi
  rw [← elementValue_elementBytesOf (fit.range _ (List.getElem_mem hr) _ (List.getElem_mem hq)), elementValue]
  unfold Descriptor.elementBytes at byte
  unfold matrixElement Descriptor.elementBytes
  split_ifs at byte ⊢ with h
  · rw [← byte 0 (by decide), ← byte 1 (by decide), Nat.mul_comm 2]
    rfl
  · rw [← byte 0 (by decide), Nat.mul_comm 1]
    rfl

theorem matrixView_rowBytes (h : m.fits d) (hd : d.bitDepth = 8 ∨ d.bitDepth = 16) :
    matrixView d (m.elements.map (rowBytes d)).flatten = m := by
  have fit := elementsFit_of_fits h
  cases m with
  | flat rows =>
    obtain ⟨one, height, rows_fit⟩ := h
    rw [matrixView, if_pos one]
    refine congrArg PixelMatrix.flat (map_range_eq height fun r hr => map_range_eq (rows_fit _ (List.getElem_mem hr)).1 fun x hx => ?_)
    have hq : x * d.channels + 0 < rows[r].length := by rw [one]; omega
    refine (matrixElement_eq fit hd hr hq).trans ?_
    simp only [PixelMatrix.elements, one, Nat.mul_one, Nat.add_zero]
  | deep rows =>
    obtain ⟨many, height, rows_fit⟩ := h
    rw [matrixView, if_neg many]
    refine congrArg PixelMatrix.deep (map_range_eq height fun r hr => map_range_eq (rows_fit _ (List.getElem_mem hr)).1 fun x hx => ?_)
    obtain ⟨width, pixels⟩ := rows_fit _ (List.getElem_mem hr)
    refine map_range_eq (pixels _ (List.getElem_mem hx)).1 fun k hk => ?_
    have hr' : r < (PixelMatrix.deep rows).elements.length := by simpa [PixelMatrix.elements] using hr
    have row : (PixelMatrix.deep rows).elements[r] = rows[r].flatten := List.getElem_map ..
    have uniform : ∀ px ∈ rows[r], px.length = d.channels := fun px hp => (pixels px hp).1
    have hk' : k < d.channels := uniform _ (List.getElem_mem hx) ▸ hk
    have hq : x * d.channels + k < (PixelMatrix.deep rows).elements[r].length := by
      rw [row, flatten_length_of_uniform uniform]
      calc x * d.channels + k < (x + 1) * d.channels := by rw [Nat.add_mul]; omega
        _ ≤ rows[r].length * d.channels := Nat.mul_le_mul_right _ hx
    have found := getD_flatten uniform x hk' 0
    rw [matrixElement_eq fit hd hr' hq, ← List.getD_eq_getElem _ 0 hq, row, found, List.getD_eq_getElem _ _ hx,
      List.getD_eq_getElem _ _ hk]

/-- A legal colour type has channels. -/
theorem channels_pos (h : d.colorType.toNat ∈ [0, 2, 3, 4, 6]) : 1 ≤ d.channels := by
  have value := fun k hk => toNat_eq_iff d.colorType k hk
  simp only [List.mem_cons, List.not_mem_nil, or_false, value 0 (by decide), value 2 (by decide), value 3 (by decide),
    value 4 (by decide), value 6 (by decide)] at h
  unfold Descriptor.channels
  rcases h with h | h | h | h | h <;> rw [h] <;> decide

/-- Decompressed, the encoded rows are the rows of the matrix (R215, R239). -/
theorem planeRows_encodeRows (f : FilterType) (hc : 1 ≤ d.channels) (hd : d.bitDepth = 8 ∨ d.bitDepth = 16) {rows : List (List Nat)}
    (fit : ElementsFit d rows) :
    planeRows d (encodeRows f d.bpp Option.none (rows.map (rowBytes d))) = .ok (rows.map (rowBytes d)) := by
  have stride : 1 ≤ d.bpp := by
    rw [(quantities_in_elements hd).1]
    exact Nat.mul_pos hc (by unfold Descriptor.elementBytes; split_ifs <;> decide)
  have loop := rowLoop_encodeRows (f := f) stride _ (rowBytes_length_of_fit fit hd) Option.none
  rw [List.length_map, fit.height] at loop
  rw [planeRows, loop]
  exact if_pos hd

/-! ### The fold (R166) -/

/-- FE's turns keep what holds of a call. -/
theorem CallInv.after_runFront {lb : Nat} {bs : List Byte} {s t : State} (n : Nat) (h : CallInv lb bs s)
    (run : runFront n s = .next t) : CallInv lb bs t := by
  induction n generalizing s with
  | zero =>
    cases run
    exact h
  | succ n ih =>
    obtain ⟨u, step, rest⟩ := andThen_eq_next run
    exact ih (h.after_feStep step) rest

/-- The derived registers of a sound descriptor are its quantities (R157). -/
theorem derived_of_sound {s : State} (hd : s.fe.descValid = true) (sound : DescriptorSound s) :
    s.fe.ch.toNat = (descriptorOf s).channels ∧ s.fe.bpp.toNat = (descriptorOf s).bpp ∧
      s.fe.bps.toNat = (descriptorOf s).bps := by
  obtain ⟨-, -, derived⟩ := sound hd
  split at derived
  · rename_i c hc
    have channels_eq : (descriptorOf s).channels = channels c := by simp only [Descriptor.channels, descriptorOf, hc]
    rw [Descriptor.bpp, Descriptor.bps, channels_eq]
    exact derived
  · exact derived.elim

end Sys2Proof.Machine

namespace Sys2Proof.Proofs.OtherFamily
open Sys2Proof.Machine Sys2Proof.Safety

/-- Settles O54: FE alone keeps the call invariant, which at its halt holds the fold of the chunks `decode` gives. -/
theorem layerDIsTheFoldOverChunks : Obligations.LayerDIsTheFoldOverChunks := by
  intro lb bs cs t run decoded
  have inv := (callStart_callInv lb bs (turns := []) fun _ h => nomatch h).after_runFront _ run
  obtain ⟨t', run', halted, -⟩ := runFront_finishes (callStart_progress lb bs [])
  obtain rfl := Host.Outcome.next.inj (run.symm.trans run')
  have result := inv.layerFResult_eq halted
  have ok : t.fe.ferr = .ok := by
    by_contra bad
    simp [layerFResult, halted, bad, decoded] at result
  obtain ⟨cs', decoded', verdict⟩ := inv.layerD_eq halted ok
  obtain rfl := Result.ok.inj (decoded.symm.trans decoded')
  cases folded : fold lb cs with
  | fail e =>
    rw [folded] at verdict
    exact verdict.1
  | ok r =>
    obtain ⟨d, idat⟩ := r
    rw [folded] at verdict
    obtain ⟨derr, valid, rfl, sound, idat⟩ := verdict
    obtain ⟨ch, bpp, bps⟩ := derived_of_sound valid sound
    exact ⟨derr, valid, rfl, ch, bpp, bps, idat⟩

/-- Settles O56: `encode` answers the records exactly on consistent chunks, and the records decode to the chunks. -/
theorem containerRoundTrip : Obligations.ContainerRoundTrip := by
  refine ⟨fun cs whole inner => ?_, fun cs broken => ?_⟩
  · exact ⟨_, if_pos (List.all_eq_true.2 whole), decodeContainer_containerBytes whole inner⟩
  · obtain ⟨c, hc, bad⟩ := broken
    refine if_neg fun all => ?_
    rw [List.all_eq_true.1 all c hc] at bad
    cases bad

/-- Settles O57: the reversal of each byte sees the neighbours the forward filter saw, since those stand before it. -/
theorem filterRoundTrip : Obligations.FilterRoundTrip := by
  intro ft row prev bpp hft hb
  obtain ⟨f, hf⟩ := filterTypeOf_of_le hft
  refine ⟨filterRow f row prev bpp, by rw [filter, hf], ?_⟩
  rw [unfilter, hf]
  exact congrArg Result.ok (unfilterRow_filterRow hb row)

/-- Settles O58: law 2 row by row gives the bytes of the matrix back, and the matrix view finds each element in them. -/
theorem planeRoundTrip : Obligations.PlaneRoundTrip := by
  intro inflate deflate undoes d m f hc hd h
  have encoded : encodePlane deflate m d f =
      some (deflate (encodeRows f d.bpp Option.none (m.elements.map (rowBytes d)))) := by
    rw [encodePlane, flattenMatrix, if_pos hd]
    rfl
  refine ⟨_, encoded, ?_⟩
  simp only [decodePlane, undoes, planeRows_encodeRows f (channels_pos hc) hd (elementsFit_of_fits h), matrixView_rowBytes h hd]

end Sys2Proof.Proofs.OtherFamily
end

section
/-! PROOFS. The invariant of `10_state.md` R54 is kept by every step. It is cut into what FE answers for and what PU answers for. A move
of FE either leaves FE running, with what layer D and port C rest on, or is `halt_FE`; PU looks at FE's registers only once it has
started, and from then on they are committed. -/

namespace Sys2Proof.Machine
open Sys2Proof.Safety

variable {s t u : State} {b : Byte}

/-! ### The invariant by agent -/

/-- The part of the invariant that FE answers for. -/
structure FrontSound (s : State) : Prop where
  counterInField : CounterInField s
  descriptorSound : DescriptorSound s
  ihdrInProgress : IhdrInProgress s
  idatInProgress : IdatInProgress s
  ferr : s.fe.ferr ∈ [ErrCode.ok, .badSignature, .truncated]
  derr : s.fe.derr ∈ [ErrCode.ok, .unsupportedColorType, .invalidChunkForContext, .notImplemented, .lineBufferOverflow]
  frontErrorHalts : FrontErrorHalts s
  haltHasReason : HaltHasReason s
  endEmittedOnce : EndEmittedOnce s
  forwardedNeedsDescriptor : ForwardedNeedsDescriptor s

/-- The part of the invariant that PU answers for. -/
structure PlaneSound (s : State) : Prop where
  rowInImage : RowInImage s
  planeStarted : PlaneStarted s
  perr : s.pu.perr ∈ [ErrCode.ok, .unknownFilterType, .decompressionFailed, .truncatedPixelData, .unsupportedBitDepth]
  planeErrorStops : PlaneErrorStops s
  drainHasReason : DrainHasReason s
  buffersCanonical : BuffersCanonical s
  pixelsCounted : PixelsCounted s

theorem inv_iff (s : State) : Inv s ↔ FrontSound s ∧ PlaneSound s := by
  constructor
  · intro h
    obtain ⟨ferr, derr, perr⟩ := h.codesOfLayer
    exact ⟨⟨h.counterInField, h.descriptorSound, h.ihdrInProgress, h.idatInProgress, ferr, derr, h.frontErrorHalts, h.haltHasReason,
      h.endEmittedOnce, h.forwardedNeedsDescriptor⟩, ⟨h.rowInImage, h.planeStarted, perr, h.planeErrorStops, h.drainHasReason,
      h.buffersCanonical, h.pixelsCounted⟩⟩
  · rintro ⟨f, p⟩
    exact ⟨f.counterInField, p.rowInImage, f.descriptorSound, f.ihdrInProgress, f.idatInProgress, p.planeStarted,
      ⟨f.ferr, f.derr, p.perr⟩, f.frontErrorHalts, f.haltHasReason, p.planeErrorStops, p.drainHasReason, p.buffersCanonical,
      f.endEmittedOnce, f.forwardedNeedsDescriptor, p.pixelsCounted⟩

theorem FrontSound.congr (h : FrontSound s) (fe : t.fe = s.fe) (cOut : t.cOut = s.cOut) (lbBytes : t.lbBytes = s.lbBytes) :
    FrontSound t := by
  obtain ⟨h1, h2, h3, h4, h5, h6, h7, h8, h9, h10⟩ := h
  constructor <;>
    simp only [CounterInField, DescriptorSound, IhdrInProgress, IdatInProgress, FrontErrorHalts, HaltHasReason, EndEmittedOnce,
      ForwardedNeedsDescriptor, fe, cOut, lbBytes] <;>
    assumption

/-! ### FE between the start of a call and its halt -/

/-- What FE keeps, wherever it stands, until it halts. -/
structure Running (s : State) : Prop where
  ferr : s.fe.ferr = .ok
  derr : s.fe.derr ∈ [ErrCode.ok, .unsupportedColorType, .invalidChunkForContext, .notImplemented, .lineBufferOverflow]
  descriptorSound : DescriptorSound s
  noEnd : CToken.cEnd ∉ s.cOut
  forwardedNeedsDescriptor : ForwardedNeedsDescriptor s

/-- The chunk in progress is one layer D takes a payload of, or it does not look at it (R153, R156). -/
def PayloadSound (s : State) : Prop := IhdrInProgress s ∧ IdatInProgress s

theorem FrontSound.running (h : FrontSound s) (hf : s.fe.fst ≠ .halt) : Running s where
  ferr := by_contra fun bad => hf (h.frontErrorHalts bad)
  derr := h.derr
  descriptorSound := h.descriptorSound
  noEnd := by simpa [EndEmittedOnce, hf] using h.endEmittedOnce
  forwardedNeedsDescriptor := h.forwardedNeedsDescriptor

theorem Running.congr (h : Running s) (same : layerDPart t = layerDPart s) (ferr : t.fe.ferr = s.fe.ferr)
    (cOut : t.cOut = s.cOut) : Running t := by
  simp only [layerDPart, descriptorOf, Prod.mk.injEq, Descriptor.mk.injEq] at same
  obtain ⟨derr, descValid, ⟨width, -, bitDepth, colorType, -, -, interlace⟩, ch, bpp, bps, -, lbBytes⟩ := same
  obtain ⟨h1, h2, h3, h4, h5⟩ := h
  constructor <;>
    simp only [DescriptorSound, ForwardedNeedsDescriptor, derr, descValid, width, bitDepth, colorType, interlace, ch, bpp, bps,
      lbBytes, ferr, cOut] <;>
    assumption

/-- FE running at a place in its field. -/
theorem Running.frontSound (h : Running s) (hf : s.fe.fst ≠ .halt) (counter : CounterInField s) (payload : PayloadSound s) :
    FrontSound s where
  counterInField := counter
  descriptorSound := h.descriptorSound
  ihdrInProgress := payload.1
  idatInProgress := payload.2
  ferr := h.ferr ▸ List.mem_cons_self
  derr := h.derr
  frontErrorHalts bad := absurd h.ferr bad
  haltHasReason halted := absurd halted hf
  endEmittedOnce := by rw [EndEmittedOnce, if_neg hf]; exact h.noEnd
  forwardedNeedsDescriptor := h.forwardedNeedsDescriptor

theorem payloadSound_of_fst_ne (hf : s.fe.fst ≠ .data) : PayloadSound s := ⟨fun h => absurd h hf, fun h => absurd h hf⟩

/-- `halt_FE` with the code it raises, or with none. -/
theorem Running.halt {k : ErrCode} (h : Running s) (hk : k ∈ [ErrCode.ok, .badSignature, .truncated]) :
    FrontSound (haltFE (raise .F k s)) where
  counterInField := by simp [CounterInField]
  descriptorSound := by rw [haltFE_eq]; exact h.descriptorSound
  ihdrInProgress := by simp [IhdrInProgress]
  idatInProgress := by simp [IdatInProgress]
  ferr := by simpa using hk
  derr := by
    rw [haltFE_derr]
    split_ifs
    · decide
    · exact h.derr
  frontErrorHalts _ := haltFE_fst
  haltHasReason _ none := by
    rw [haltFE_ferr, haltFE_derr]
    by_cases bad : (raise .F k s).fe.ferr = .ok ∧ (raise .F k s).fe.derr = .ok
    · rw [if_pos ⟨bad.1, bad.2, by rw [haltFE_eq] at none; exact none⟩]
      exact .inr (by decide)
    · rw [if_neg fun h => bad ⟨h.1, h.2.1⟩]
      exact not_and_or.1 bad
  endEmittedOnce := by simpa [EndEmittedOnce] using h.noEnd
  forwardedNeedsDescriptor := by
    rw [haltFE_eq]
    rintro ⟨b, hb⟩
    exact h.forwardedNeedsDescriptor ⟨b, by simpa using hb⟩

theorem Running.halt_clean (h : Running s) : FrontSound (haltFE s) := by
  have raised : raise .F .ok s = s := by rw [raise, ← h.ferr]
  exact raised ▸ h.halt List.mem_cons_self

/-! ### Chunk headers -/

/-- A raised context error keeps what FE rests on. -/
theorem Running.raiseContext (h : Running s) : Running (raise .D .invalidChunkForContext s) where
  ferr := h.ferr
  derr := by simp
  descriptorSound := h.descriptorSound
  noEnd := h.noEnd
  forwardedNeedsDescriptor := h.forwardedNeedsDescriptor

/-- A header action either raises the context error, or leaves the state alone and lets the payload of its class follow (R152 to R155). -/
theorem headerAction_cases (c : ChunkClass) (s : State) :
    headerAction c s = raise .D .invalidChunkForContext s ∨
      (headerAction c s = s ∧ (c = .ihdr → s.fe.descValid = false ∧ s.fe.len = 13) ∧ (c = .idat → s.fe.descValid = true)) := by
  cases c with
  | ihdr =>
    simp only [headerAction, dHeaderIhdr]
    split_ifs with hd hl
    · exact .inl rfl
    · exact .inl rfl
    · exact .inr ⟨rfl, fun _ => ⟨by simpa using hd, not_not.1 hl⟩, fun h => nomatch h⟩
  | idat =>
    simp only [headerAction, dHeaderIdat]
    split_ifs with hd
    · exact .inr ⟨rfl, fun h => (nomatch h), fun _ => hd⟩
    · exact .inl rfl
  | plte =>
    rw [headerAction, dHeaderPlte_eq]
    split_ifs
    · exact .inl rfl
    · exact .inr ⟨rfl, fun h => (nomatch h), fun h => nomatch h⟩
  | iend | other => exact .inr ⟨rfl, fun h => (nomatch h), fun h => nomatch h⟩

/-- Into the payload of a chunk, or past it where it has none. -/
theorem Running.enter {n : Word32} (h : Running u) (len : u.fe.len = n) (payload : PayloadSound (enterField .data u)) :
    FrontSound (enterField (if n = 0 then .trail else .data) u) := by
  have entered : ∀ q, Running (enterField q u) := fun q => h.congr rfl rfl rfl
  split_ifs with h0
  · exact (entered .trail).frontSound (by simp) (by simp [CounterInField]) (payloadSound_of_fst_ne (by simp))
  · refine (entered .data).frontSound (by simp) ?_ payload
    have pos := Nat.pos_of_ne_zero (mt (toNat_eq_zero_iff n).1 h0)
    simpa [CounterInField, len] using pos

/-- The selection of a chunk (R135). -/
theorem Running.select (h : Running s) (n tag : Word32) :
    FrontSound (selectChunk n tag (headerAction (classOf tag)) s) := by
  have announced : Running (emitK (.hdr n tag) (latchHeader n tag s)) := h.congr rfl rfl rfl
  rw [selectChunk_eq]
  by_cases hd : s.fe.derr = .ok
  · rw [if_pos hd]
    rcases headerAction_cases (classOf tag) (emitK (.hdr n tag) (latchHeader n tag s)) with e | ⟨e, ihdr, idat⟩
    · rw [e]
      exact announced.raiseContext.enter rfl ⟨fun _ _ ok => (nomatch ok), fun _ _ ok => nomatch ok⟩
    · rw [e]
      exact announced.enter rfl ⟨fun _ hc _ => ihdr hc, fun _ hc _ => idat hc⟩
  · rw [if_neg hd]
    exact announced.enter rfl ⟨fun _ _ ok => absurd ok hd, fun _ _ ok => absurd ok hd⟩

/-! ### Payloads -/

/-- The advance after a payload byte (R137). -/
theorem Running.advance (h : Running u) (hf : u.fe.fst = .data) (counter : CounterInField u) (payload : PayloadSound u) :
    FrontSound (afterPayload u) := by
  have hc : u.fe.cnt.toNat < u.fe.len.toNat := by simpa [CounterInField, hf] using counter
  have last : u.fe.cnt = u.fe.len - 1 ↔ u.fe.cnt.toNat + 1 = u.fe.len.toNat := by constructor <;> intro h <;> bv_omega
  unfold afterPayload
  split_ifs with done
  · exact (h.congr (t := enterField .trail u) rfl rfl rfl).frontSound (by simp) (by simp [CounterInField])
      (payloadSound_of_fst_ne (by simp))
  · refine (h.congr (t := nextByte u) rfl rfl rfl).frontSound (by simp [hf]) ?_ payload
    have more := mt last.2 done
    rw [CounterInField, nextByte_fst, hf]
    show (u.fe.cnt + 1).toNat < u.fe.len.toNat
    rw [toNat_succ hc u.fe.len.isLt]
    omega

/-- A byte of an `IHDR` payload goes to its register while no descriptor is committed (R156). -/
theorem Running.store (h : Running s) (hd : s.fe.descValid = false) (k : Nat) (b : Byte) : Running (storeIhdrByte k b s) where
  ferr := by simpa using h.ferr
  derr := by simpa using h.derr
  descriptorSound valid := by simp [hd] at valid
  noEnd := by simpa using h.noEnd
  forwardedNeedsDescriptor some := by simpa using h.forwardedNeedsDescriptor (by simpa using some)

/-- The commit (R158, R159). -/
theorem Running.commit (h : Running s) (hd : s.fe.descValid = false) : Running (committed s) := by
  have noBytes : ¬ ∃ b, CToken.byte b ∈ s.cOut := fun some => by simpa [hd] using h.forwardedNeedsDescriptor some
  have raised : ∀ k ∈ [ErrCode.unsupportedColorType, .notImplemented, .lineBufferOverflow], ∀ v : State,
      v.fe.ferr = s.fe.ferr → v.fe.descValid = false → v.cOut = s.cOut → Running (raise .D k v) := by
    intro k hk v ferr none cOut
    refine ⟨ferr.trans h.ferr, ?_, fun valid => ?_, cOut ▸ h.noEnd, fun some => absurd (cOut ▸ some) noBytes⟩
    · simp only [List.mem_cons, List.not_mem_nil, or_false] at hk
      rcases hk with rfl | rfl | rfl <;> simp
    · simp [none] at valid
  unfold committed
  split
  · rename_i c hc
    obtain ⟨ch, bpp, bps⟩ := derived_lt s.fe.width c s.fe.bitDepth
    rcases commitChannels_cases (channels c) s with ⟨-, e⟩ | ⟨-, -, e⟩ | ⟨interlace, fits, e⟩
    · rw [e]
      exact raised _ (by decide) s rfl hd rfl
    · rw [e]
      exact raised _ (by decide) _ rfl hd rfl
    · rw [e]
      refine ⟨h.ferr, h.derr, fun _ => ⟨interlace, fits, ?_⟩, h.noEnd, fun _ => rfl⟩
      show match colourTypeOf s.fe.colorType with
        | some c' => _ ∧ _ ∧ _
        | Option.none => False
      rw [hc]
      refine ⟨?_, ?_, ?_⟩
      · exact (BitVec.toNat_ofNat ..).trans (Nat.mod_eq_of_lt (by omega))
      · exact (BitVec.toNat_ofNat ..).trans (Nat.mod_eq_of_lt (by omega))
      · exact (BitVec.toNat_ofNat ..).trans (Nat.mod_eq_of_lt bps)
  · exact raised _ (by decide) s rfl hd rfl

/-! ### Moves of FE -/

/-- Before the last byte of a field `CNT` counts on inside it. -/
theorem toNat_next_le {w : Word32} {k : Nat} (hle : w.toNat ≤ k) (hne : w ≠ BitVec.ofNat 32 k) (hk : k < 2 ^ 32 := by decide) :
    (w + 1).toNat ≤ k := by
  obtain ⟨e, le⟩ := toNat_succ_le k hle hne hk
  exact e ▸ le

/-- A byte of a field that is no payload leaves FE running. -/
theorem Running.field (h : Running s) (same : layerDPart t = layerDPart s) (ferr : t.fe.ferr = s.fe.ferr) (cOut : t.cOut = s.cOut)
    (ht : t.fe.fst ≠ .halt ∧ t.fe.fst ≠ .data) (counter : CounterInField t) : FrontSound t :=
  (h.congr same ferr cOut).frontSound ht.1 counter (payloadSound_of_fst_ne ht.2)

theorem FeMove.frontSound (m : FeMove s t) (h : FrontSound s) : FrontSound t := by
  have counter := h.counterInField
  have run : ∀ {q}, s.fe.fst = q → q ≠ .halt → Running s := fun hf hq => h.running (hf ▸ hq)
  cases m with
  | hold => exact h
  | sigReject hf => exact ((run hf (by decide)).congr (t := popS s) rfl rfl rfl).halt (by decide)
  | truncate hf => exact ((h.running hf).congr (t := popS s) rfl rfl rfl).halt (by decide)
  | lenEnd hf => exact ((run hf (by decide)).congr (t := popS s) rfl rfl rfl).halt_clean
  | sigDone hf => exact (run hf (by decide)).field rfl rfl rfl (by simp) (by simp [CounterInField])
  | sigNext hf h7 =>
    rw [CounterInField, hf] at counter
    refine (run hf (by decide)).field rfl rfl rfl (by simp [hf]) ?_
    simpa [CounterInField, hf] using toNat_next_le counter h7
  | lenDone b hf => exact (run hf (by decide)).field rfl rfl rfl (by simp) (by simp [CounterInField])
  | lenNext b hf h3 =>
    rw [CounterInField, hf] at counter
    refine (run hf (by decide)).field rfl rfl rfl (by simp [hf]) ?_
    simpa [CounterInField, hf] using toNat_next_le counter h3
  | typeNext b hf h3 =>
    rw [CounterInField, hf] at counter
    refine (run hf (by decide)).field rfl rfl rfl (by simp [hf]) ?_
    simpa [CounterInField, hf] using toNat_next_le counter h3
  | select b hf => exact ((run hf (by decide)).congr (t := shiftType b (popS s)) rfl rfl rfl).select _ _
  | payOpaque b hf =>
    exact ((run hf (by decide)).congr (t := emitK (.pay b) (popS s)) rfl rfl rfl).advance hf counter
      ⟨h.ihdrInProgress, h.idatInProgress⟩
  | payIdat b hf hd hc =>
    have r := run hf (by decide)
    refine Running.advance ⟨r.ferr, r.derr, r.descriptorSound, ?_, fun _ => h.idatInProgress hf hc hd⟩ hf counter
      ⟨h.ihdrInProgress, h.idatInProgress⟩
    simpa using r.noEnd
  | payIhdr b hf hd hc =>
    obtain ⟨none, len⟩ := h.ihdrInProgress hf hc hd
    refine (((run hf (by decide)).congr (t := emitK (.pay b) (popS s)) rfl rfl rfl).store none _ b).advance (by simpa using hf)
      (by simpa [CounterInField, hf] using counter) ⟨fun _ _ _ => ?_, fun _ hc' => ?_⟩
    · simpa using And.intro none len
    · simp [hc] at hc'
  | payCommit b hf hd hc h12 =>
    obtain ⟨none, len⟩ := h.ihdrInProgress hf hc hd
    have stored := ((run hf (by decide)).congr (t := emitK (.pay b) (popS s)) rfl rfl rfl).store none 12 b
    rw [afterPayload_committed (by simpa using h12) (by simpa using len)]
    exact ((stored.commit (by simpa using none)).congr (t := enterField .trail _) rfl rfl rfl).frontSound (by simp)
      (by simp [CounterInField]) (payloadSound_of_fst_ne (by simp))
  | trailNext b hf h3 =>
    rw [CounterInField, hf] at counter
    refine (run hf (by decide)).field rfl rfl rfl (by simp [hf]) ?_
    simpa [CounterInField, hf] using toNat_next_le counter h3
  | trailDone b hf => exact (run hf (by decide)).field rfl rfl rfl (by simp) (by simp [CounterInField])
  | trailEnd b hf =>
    exact ((run hf (by decide)).congr (t := emitK _ (shiftTrl b (popS s))) rfl rfl rfl).halt_clean

/-! ### Moves of PU -/

/-- A started PU has a descriptor, or FE has halted. -/
theorem PlaneSound.started (h : PlaneSound s) (hp : s.pu.pst ≠ .wait) : s.fe.descValid = true ∨ s.fe.fst = .halt := by
  have started := h.planeStarted
  cases hpst : s.pu.pst <;> simp only [PlaneStarted, hpst] at started
  · exact absurd hpst hp
  · exact .inl started
  · exact .inl started
  · exact .inl started
  · exact started
  · exact started

theorem PlaneSound.perr_ok (h : PlaneSound s) (hd : s.pu.pst ≠ .drain) (hh : s.pu.pst ≠ .halt) : s.pu.perr = .ok :=
  by_contra fun bad => (h.planeErrorStops bad).elim hd hh

/-- PU stands before a row, or behind the last, with whole rows on port P. -/
theorem planeSound_between (desc : s.fe.descValid = true) (perr : s.pu.perr = .ok) (buffers : BuffersCanonical s)
    (rows : s.pu.row.toNat ≤ s.fe.height.toNat) (pst : s.pu.pst = if s.pu.row = s.fe.height then .tail else .filt)
    (pixels : s.pOut.length = s.pu.row.toNat * s.fe.bps.toNat) : PlaneSound s := by
  have clean : PlaneErrorStops s := fun bad => absurd perr bad
  by_cases last : s.pu.row = s.fe.height
  · rw [if_pos last] at pst
    refine ⟨?_, ?_, by simp [perr], clean, fun hd => ?_, buffers, ?_⟩
    · rw [RowInImage, pst]; exact last
    · rw [PlaneStarted, pst]; exact desc
    · simp [pst] at hd
    · rw [PixelsCounted, pst, pixels, last]
  · rw [if_neg last] at pst
    refine ⟨?_, ?_, by simp [perr], clean, fun hd => ?_, buffers, ?_⟩
    · rw [RowInImage, pst]; exact lt_of_le_of_ne rows fun e => last (BitVec.eq_of_toNat_eq e)
    · rw [PlaneStarted, pst]; exact desc
    · simp [pst] at hd
    · rw [PixelsCounted, pst]; exact pixels

/-- PU stands inside a row. -/
theorem planeSound_inRow (pst : s.pu.pst = .data) (desc : s.fe.descValid = true) (perr : s.pu.perr = .ok)
    (buffers : BuffersCanonical s) (place : s.pu.row.toNat < s.fe.height.toNat ∧ s.pu.col.toNat < s.fe.bps.toNat)
    (pixels : s.pOut.length = s.pu.row.toNat * s.fe.bps.toNat + s.pu.col.toNat) : PlaneSound s where
  rowInImage := by rw [RowInImage, pst]; exact place
  planeStarted := by rw [PlaneStarted, pst]; exact desc
  perr := by simp [perr]
  planeErrorStops bad := absurd perr bad
  drainHasReason hd := by simp [pst] at hd
  buffersCanonical := buffers
  pixelsCounted := by rw [PixelsCounted, pst]; exact pixels

/-- PU discards what is left of stream Z, for an error or for want of a descriptor. -/
theorem planeSound_draining (pst : s.pu.pst = .drain) (started : s.fe.descValid = true ∨ s.fe.fst = .halt)
    (perr : s.pu.perr = .unknownFilterType ∨ s.pu.perr = .ok ∧ s.fe.descValid = false) (buffers : BuffersCanonical s) :
    PlaneSound s where
  rowInImage := by rw [RowInImage, pst]; trivial
  planeStarted := by rw [PlaneStarted, pst]; exact started
  perr := by rcases perr with perr | ⟨perr, -⟩ <;> simp [perr]
  planeErrorStops _ := .inl pst
  drainHasReason _ ok := perr.elim (fun bad => by simp [ok] at bad) And.right
  buffersCanonical := buffers
  pixelsCounted := by rw [PixelsCounted, pst]; trivial

/-- A row that ends is one row more. -/
theorem planeSound_rowEnded (h : PlaneSound s) (hp : s.pu.pst = .filt ∨ s.pu.pst = .data) (fe : t.fe = s.fe)
    (perr : t.pu.perr = s.pu.perr) (buffers : BuffersCanonical t) (row : t.pu.row = s.pu.row + 1)
    (pst : t.pu.pst = if s.pu.row + 1 = s.fe.height then .tail else .filt)
    (pixels : t.pOut.length = (s.pu.row.toNat + 1) * s.fe.bps.toNat) : PlaneSound t := by
  have inImage : s.pu.row.toNat < s.fe.height.toNat ∧ s.fe.descValid = true ∧ s.pu.perr = .ok := by
    have rows := h.rowInImage
    have started := h.planeStarted
    rcases hp with hp | hp <;> simp only [RowInImage, PlaneStarted, hp] at rows started
    · exact ⟨rows, started, h.perr_ok (by simp [hp]) (by simp [hp])⟩
    · exact ⟨rows.1, started, h.perr_ok (by simp [hp]) (by simp [hp])⟩
  obtain ⟨lt, desc, ok⟩ := inImage
  have count : t.pu.row.toNat = s.pu.row.toNat + 1 := by rw [row, toNat_succ lt s.fe.height.isLt]
  refine planeSound_between (fe ▸ desc) (perr.trans ok) buffers ?_ ?_ ?_
  · rw [count, fe]
    exact lt
  · rw [pst, row, fe]
  · rw [pixels, count, fe]

/-- PU at the end of stream Z. -/
theorem planeSound_ended (h : PlaneSound s) (hp : s.pu.pst ≠ .wait) (fe : t.fe = s.fe) (buffers : BuffersCanonical t)
    (pst : t.pu.pst = .halt)
    (perr : t.pu.perr ∈ [ErrCode.ok, .unknownFilterType, .decompressionFailed, .truncatedPixelData, .unsupportedBitDepth])
    (pixels : s.fe.descValid = true → t.pu.perr = .ok →
      t.pOut.length = s.fe.height.toNat * s.fe.bps.toNat ∧ supportedDepth s.fe.bitDepth = true) : PlaneSound t where
  rowInImage := by simp [RowInImage, pst]
  planeStarted := by
    rw [PlaneStarted, pst, fe]
    exact h.started hp
  perr := perr
  planeErrorStops _ := .inr pst
  drainHasReason hd := by simp [pst] at hd
  buffersCanonical := buffers
  pixelsCounted := by
    rw [PixelsCounted, pst, fe]
    exact pixels

theorem reconstruct_buffers {f : Byte → Neighbours → Byte} {x : Byte} (h : BuffersCanonical s) (hl : s.pu.col.toNat < s.lbBytes) :
    BuffersCanonical (reconstruct f x s) := by
  obtain ⟨prev, cur, prevIn, curIn⟩ := h
  have written := LineBuffer.wf_write s.pu.cur s.pu.col.toNat (f x (neighbours s)) cur
  have writtenIn := LineBuffer.within_write (n := s.lbBytes) (f x (neighbours s)) hl curIn
  rw [reconstruct_eq]
  cases lastOfRow s with
  | false => exact ⟨prev, written, prevIn, writtenIn⟩
  | true => exact ⟨LineBuffer.wf_copyBelow _ _ _ written prev, written, LineBuffer.within_copyBelow writtenIn prevIn, writtenIn⟩

/-- P.START (R201). -/
theorem startStep_planeSound (h : PlaneSound s) (hp : s.pu.pst = .wait) : PlaneSound (startStep s) := by
  have ok := h.perr_ok (by simp [hp]) (by simp [hp])
  have none : s.pOut = [] := by simpa [PixelsCounted, hp] using h.pixelsCounted
  unfold startStep
  by_cases hd : s.fe.descValid = true
  · rw [if_pos hd]
    refine planeSound_between hd ok h.buffersCanonical (Nat.zero_le _) ?_ ?_
    · simp only [eq_comm]
    · simp [none]
  · rw [if_neg hd]
    by_cases hf : s.fe.fst = .halt
    · rw [if_pos hf]
      exact planeSound_draining rfl (.inr hf) (.inr ⟨ok, by simpa using hd⟩) h.buffersCanonical
    · rw [if_neg hf]
      exact h

/-- A legal filter-type byte (R202). -/
theorem selectFilter_planeSound (f : FilterType) (h : PlaneSound s) (hp : s.pu.pst = .filt) : PlaneSound (selectFilter f s) := by
  have rows := h.rowInImage
  have started := h.planeStarted
  have pixels := h.pixelsCounted
  simp only [RowInImage, PlaneStarted, PixelsCounted, hp] at rows started pixels
  have ok := h.perr_ok (by simp [hp]) (by simp [hp])
  rw [selectFilter_eq]
  by_cases h0 : s.fe.bps.toNat = 0
  · rw [if_pos h0]
    refine planeSound_rowEnded h (.inl hp) rfl rfl h.buffersCanonical rfl rfl ?_
    simp [pixels, h0]
  · rw [if_neg h0]
    exact planeSound_inRow rfl started ok h.buffersCanonical ⟨rows, Nat.pos_of_ne_zero h0⟩ pixels

/-- A row byte (R204). -/
theorem reconstruct_planeSound (f : Byte → Neighbours → Byte) (x : Byte) (h : PlaneSound s) (hp : s.pu.pst = .data)
    (hl : s.pu.col.toNat < s.lbBytes) : PlaneSound (reconstruct f x s) := by
  have rows := h.rowInImage
  have started := h.planeStarted
  have pixels := h.pixelsCounted
  simp only [RowInImage, PlaneStarted, PixelsCounted, hp] at rows started pixels
  have ok := h.perr_ok (by simp [hp]) (by simp [hp])
  have buffers := reconstruct_buffers (f := f) (x := x) h.buffersCanonical hl
  rw [reconstruct_eq] at buffers ⊢
  cases last : lastOfRow s with
  | true =>
    rw [last] at buffers
    refine planeSound_rowEnded h (.inr hp) rfl rfl buffers rfl rfl ?_
    have full : s.pu.col.toNat + 1 = s.fe.bps.toNat := by simpa [lastOfRow] using last
    rw [List.length_append, pixels, Nat.succ_mul, ← full]
    rfl
  | false =>
    rw [last] at buffers
    have inner : s.pu.col.toNat + 1 ≠ s.fe.bps.toNat := by simpa [lastOfRow] using last
    have one : (1 : Word39).toNat = 1 := rfl
    have col : (s.pu.col + 1).toNat = s.pu.col.toNat + 1 := by
      have := s.fe.bps.isLt
      rw [BitVec.toNat_add_of_lt (by omega), one]
    have lt : s.pu.col.toNat + 1 < s.fe.bps.toNat := by omega
    refine planeSound_inRow hp started ok buffers ⟨rows.1, ?_⟩ ?_
    · exact col ▸ lt
    · show (s.pOut ++ [_]).length = s.pu.row.toNat * s.fe.bps.toNat + (s.pu.col + 1).toNat
      rw [List.length_append, pixels, col]
      rfl

/-- A turn of PU. -/
theorem PuMove.planeSound (m : PuMove s t) (h : PlaneSound s) : PlaneSound t := by
  have popped : PlaneSound (popZ s) := ⟨h.1, h.2, h.3, h.4, h.5, h.6, h.7⟩
  cases m with
  | hold => exact h
  | start hp => exact startStep_planeSound h hp
  | select f hp => exact selectFilter_planeSound f popped hp
  | rowByte x hp hl => exact reconstruct_planeSound _ x popped hp hl
  | discard => exact popped
  | reject hp =>
    exact planeSound_draining rfl (h.started (by simp [hp])) (.inl rfl) h.buffersCanonical
  | cutShort k hp hk =>
    refine planeSound_ended h (by rcases hp with hp | hp <;> simp [hp]) rfl h.buffersCanonical rfl ?_ fun _ ok => ?_
    · rcases hk with rfl | rfl <;> simp [rowsCutShort]
    · rcases hk with rfl | rfl <;> simp [rowsCutShort] at ok
  | finish hp =>
    refine planeSound_ended h (by rcases hp with ⟨hp, -⟩ | hp <;> simp [hp]) rfl h.buffersCanonical rfl h.perr fun valid ok => ?_
    rcases hp with ⟨hp, depth⟩ | hp
    · have pixels := h.pixelsCounted
      simp only [PixelsCounted, hp] at pixels
      exact ⟨pixels, depth⟩
    · exact absurd (h.drainHasReason hp ok) (by simp [valid])
  | badDepth hp =>
    exact planeSound_ended h (by simp [hp]) rfl h.buffersCanonical rfl (by simp) fun _ ok => nomatch ok
  | failed hp =>
    exact planeSound_ended h (by rcases hp with hp | hp <;> simp [hp]) rfl h.buffersCanonical rfl (by simp) fun _ ok => nomatch ok

/-! ### FE's moves as PU sees them (R79, R80) -/

/-- What PU's part of the invariant looks at, besides PU. -/
theorem PlaneSound.congr (h : PlaneSound s) (pu : t.pu = s.pu) (pOut : t.pOut = s.pOut) (lbBytes : t.lbBytes = s.lbBytes)
    (fe : descriptorOnly t.fe = descriptorOnly s.fe) (halted : s.fe.fst = .halt → t.fe.fst = .halt) : PlaneSound t := by
  simp only [descriptorOnly, FrontEnd.mk.injEq] at fe
  obtain ⟨-, -, -, -, -, -, -, descValid, -, height, bitDepth, -, -, -, -, -, -, bps⟩ := fe
  obtain ⟨h1, h2, h3, h4, h5, h6, h7⟩ := h
  refine ⟨?_, ?_, pu ▸ h3, ?_, ?_, ?_, ?_⟩
  · simpa only [RowInImage, pu, height, bps] using h1
  · rw [PlaneStarted, pu, descValid]
    cases hp : s.pu.pst <;> simp only [PlaneStarted, hp] at h2 ⊢
    · exact h2
    · exact h2
    · exact h2
    · exact h2.imp id halted
    · exact h2.imp id halted
  · simpa only [PlaneErrorStops, pu] using h4
  · simpa only [DrainHasReason, pu, descValid] using h5
  · simpa only [BuffersCanonical, pu, lbBytes] using h6
  · simpa only [PixelsCounted, pu, pOut, descValid, height, bps, bitDepth] using h7

/-- A PU that waits rests on nothing of FE. -/
theorem PlaneSound.congr_waiting (h : PlaneSound s) (hp : s.pu.pst = .wait) (pu : t.pu = s.pu) (pOut : t.pOut = s.pOut)
    (lbBytes : t.lbBytes = s.lbBytes) : PlaneSound t := by
  obtain ⟨-, -, h3, h4, -, h6, h7⟩ := h
  refine ⟨?_, ?_, pu ▸ h3, ?_, fun hd => ?_, ?_, ?_⟩
  · rw [RowInImage, pu, hp]; trivial
  · rw [PlaneStarted, pu, hp]; trivial
  · simpa only [PlaneErrorStops, pu] using h4
  · rw [pu, hp] at hd; cases hd
  · simpa only [BuffersCanonical, pu, lbBytes] using h6
  · simpa only [PixelsCounted, pu, pOut, hp] using h7

/-- `F_HALT` is absorbing (R142). -/
theorem FeMove.of_halted (m : FeMove s t) (hf : s.fe.fst = .halt) : t = s := by
  cases m with
  | hold => rfl
  | truncate hf' => exact absurd hf hf'
  | sigReject hf' | sigDone hf' | sigNext hf' | lenEnd hf' | lenDone _ hf' | lenNext _ hf' | typeNext _ hf' | select _ hf'
  | payOpaque _ hf' | payIdat _ hf' | payIhdr _ hf' | payCommit _ hf' | trailNext _ hf' | trailDone _ hf' | trailEnd _ hf' =>
    cases hf'.symm.trans hf

/-- A committed descriptor stays (R28). -/
theorem FeMove.keeps_committed (m : FeMove s t) (h : FrontSound s) (hd : s.fe.descValid = true) :
    descriptorOnly t.fe = descriptorOnly s.fe :=
  m.keeps_descriptor fun hf hok hc => Bool.noConfusion (hd.symm.trans (h.ihdrInProgress hf hc hok).1)

/-! ### Turns -/

/-- FE's turn holds, or takes the token on offer. -/
theorem feStep_cases (h : feStep s = .next t) :
    t = s ∨ ∃ tok more, s.sIn = tok :: more ∧ s.fe.fst ≠ .halt ∧ feTake s = .next t := by
  by_cases enabled : feEnabled s = true
  · rw [feStep_of_enabled enabled] at h
    obtain ⟨tok, more, hs, accepts⟩ := (feEnabled_iff s).1 enabled
    exact .inr ⟨tok, more, hs, ((feAccepts_iff s tok).1 accepts).1, h⟩
  · rw [feStep_of_disabled (by simpa using enabled)] at h
    exact .inl (Host.Outcome.next.inj h).symm

/-- What FE's turn leaves alone. -/
theorem feStep_frame (h : feStep s = .next t) : t = frontIn s t := by
  rcases feStep_cases h with rfl | ⟨tok, more, hs, hf, h⟩
  · rfl
  · exact feTake_frame hf hs h

theorem feStep_inv (inv : Inv s) (h : feStep s = .next t) : Inv t := by
  obtain ⟨front, plane⟩ := (inv_iff s).1 inv
  have move := feStep_move h
  by_cases hf : s.fe.fst = .halt
  · rwa [move.of_halted hf]
  · obtain ⟨pu, -, pOut⟩ := feStep_keeps_plane h
    have lbBytes : t.lbBytes = s.lbBytes := congrArg (·.lbBytes) (feStep_frame h)
    refine (inv_iff t).2 ⟨move.frontSound front, ?_⟩
    by_cases hp : s.pu.pst = .wait
    · exact plane.congr_waiting hp pu pOut lbBytes
    · exact plane.congr pu pOut lbBytes (move.keeps_committed front ((plane.started hp).resolve_right hf)) (absurd · hf)

theorem puStep_inv (inv : Inv s) (h : puStep s = .next t) : Inv t := by
  obtain ⟨front, plane⟩ := (inv_iff s).1 inv
  obtain ⟨fe, -, -, cOut⟩ := puStep_keeps_front h
  have lbBytes : t.lbBytes = s.lbBytes := congrArg (·.lbBytes) (puStep_frame h)
  exact (inv_iff t).2 ⟨front.congr fe cOut lbBytes, (puStep_move h).planeSound plane⟩

/-- The registers after reset meet the invariant, whatever the line buffers hold in canonical form (R52). -/
theorem inv_of_reset (fe : s.fe = FrontEnd.reset) (pst : s.pu.pst = .wait) (perr : s.pu.perr = .ok) (cOut : s.cOut = [])
    (pOut : s.pOut = []) (buffers : BuffersCanonical s) : Inv s := by
  have running : Running s := ⟨by simp [fe, FrontEnd.reset], by simp [fe, FrontEnd.reset],
    fun valid => by simp [fe, FrontEnd.reset] at valid, by simp [cOut], by simp [ForwardedNeedsDescriptor, cOut]⟩
  refine (inv_iff s).2 ⟨running.frontSound (by rw [fe]; decide) ?_ (payloadSound_of_fst_ne (by rw [fe]; decide)), ?_⟩
  · rw [CounterInField, fe]
    exact Nat.zero_le 7
  · refine ⟨?_, ?_, by simp [perr], fun bad => absurd perr bad, fun hd => ?_, buffers, ?_⟩
    · rw [RowInImage, pst]; trivial
    · rw [PlaneStarted, pst]; trivial
    · simp [pst] at hd
    · rw [PixelsCounted, pst]; exact pOut

theorem OutsideMove.inv (m : OutsideMove s t) (inv : Inv s) : Inv t := inv_of_same_block inv m.fe m.pu m.cOut m.pOut m.lbBytes

/-- A turn, by the agent or the environment that takes it. -/
theorem runEvent_inv {e : Event} (inv : Inv s) (h : runEvent e s = .next t) : Inv t := by
  cases e with
  | fe => exact feStep_inv inv h
  | pu => exact puStep_inv inv h
  | infl => exact (inflStep_outside h).inv inv
  | deliver z => exact (deliverStep_outside h).inv inv
  | src z => exact (srcStep_outside h).inv inv
  | setKReady | setCReady | setPReady =>
    cases h
    exact inv_of_same_block inv rfl rfl rfl rfl rfl
  | rst input ends =>
    cases h
    exact inv_of_reset rfl rfl rfl rfl rfl inv.buffersCanonical
  | encodeRow b => exact (encodeRowStep_outside h).inv inv

/-- A step is the turn of one entry of the schedule, or of an agent by the default order. -/
theorem step_event (h : step s = .next t) :
    ∃ e rest, runEvent e { s with sched := rest } = .next t ∧ (NoReset s → Event.isReset e = false) := by
  unfold step takeTurn at h
  split at h
  · unfold defaultTurn at h
    split_ifs at h with fe
    · exact ⟨.fe, s.sched, h, fun _ => rfl⟩
    · exact ⟨.pu, s.sched, h, fun _ => rfl⟩
    · exact ⟨.infl, s.sched, h, fun _ => rfl⟩
    · exact ⟨.fe, s.sched, (feStep_of_disabled (by simpa using fe)).trans h, fun _ => rfl⟩
  · rename_i e rest hs
    exact ⟨e, rest, h, fun noReset => noReset e rest hs⟩

theorem step_inv (inv : Inv s) (h : step s = .next t) : Inv t := by
  obtain ⟨e, rest, run, -⟩ := step_event h
  exact runEvent_inv (s := { s with sched := rest }) (inv_of_same_block inv rfl rfl rfl rfl rfl) run

end Sys2Proof.Machine

namespace Sys2Proof.Proofs.OtherFamily
open Sys2Proof.Machine Sys2Proof.Safety

/-- Settles O40: the reset state has the registers of reset and empty line buffers. -/
theorem invariantHoldsAtReset : Obligations.InvariantHoldsAtReset :=
  inv_of_reset rfl rfl rfl rfl rfl ⟨rfl, rfl, fun _ h => (nomatch h), fun _ h => nomatch h⟩

/-- Settles O41: each turn keeps the invariant, that of FE and of PU by their moves, reset by the registers it sets. -/
theorem stepKeepsTheInvariant : Obligations.StepKeepsTheInvariant := fun _ _ => step_inv

end Sys2Proof.Proofs.OtherFamily
end

section
/-! PROOFS. What a step cannot do. Under the invariant every turn of FE and PU answers, so only the environment can stop the machine
(`93_implementation_defined.md` U12); and between two resets the halts, the codes and the committed descriptor stay (`10_state.md` R28,
R54; `60_exceptions.md` R253 to R256). -/

namespace Sys2Proof.Machine
open Sys2Proof.Safety

variable {s t : State} {r : Refusal}

/-! ### Every turn answers under the invariant -/

theorem feStep_answers (inv : Inv s) : ∃ t, feStep s = .next t := by
  by_cases enabled : feEnabled s = true
  · obtain ⟨tok, more, hs, -⟩ := (feEnabled_iff s).1 enabled
    rw [feStep_of_enabled enabled]
    have counter := inv.counterInField
    cases tok with
    | eos => exact ⟨_, feTake_eos hs⟩
    | byte b =>
      cases hf : s.fe.fst <;> simp only [CounterInField, hf] at counter
      · exact ⟨_, feTake_sig_byte hf counter hs⟩
      · exact ⟨_, feTake_len_byte hf hs⟩
      · exact ⟨_, feTake_type_byte hf hs⟩
      · refine feTake_data_answers hf hs fun hc hd => ?_
        have len : s.fe.len.toNat = 13 := by rw [(inv.ihdrInProgress hf hc hd).2]; rfl
        omega
      · exact ⟨_, feTake_trail_byte hf hs⟩
      · exact ⟨s, by simp only [feTake, hf]⟩
  · exact ⟨s, feStep_of_disabled (by simpa using enabled)⟩

theorem puStep_answers (inv : Inv s) : ∃ t, puStep s = .next t := by
  by_cases hw : s.pu.pst = .wait
  · exact ⟨_, puStep_wait hw⟩
  by_cases enabled : puEnabled s = true
  · obtain ⟨-, tok, more, hz, accepts⟩ := puEnabled_cons hw enabled
    cases tok with
    | zEnd | zErr =>
      cases hp : s.pu.pst with
      | wait => exact absurd hp hw
      | filt | data => exact ⟨_, puStep_rowsCutShort (by simp [hp]) hz rfl⟩
      | tail | drain => exact ⟨_, puStep_close (by simp [hp]) hz rfl⟩
      | halt => exact ⟨s, puStep_of_halted hp⟩
    | byte x =>
      cases hp : s.pu.pst with
      | wait => exact absurd hp hw
      | filt =>
        cases hf : filterTypeOf x with
        | none => exact ⟨_, puStep_reject hp hz hf⟩
        | some f => exact ⟨_, puStep_select hp hz hf⟩
      | data =>
        have ready : s.pReady = true := by simpa [puAccepts, pOffers, hp] using accepts
        have place := inv.rowInImage
        simp only [RowInImage, hp] at place
        exact ⟨_, puStep_rowByte hp ready hz (place.2.trans_le (inRow_bounds inv hp).2.1)⟩
      | tail | drain => exact ⟨_, puStep_discard (by simp [hp]) hz⟩
      | halt => exact ⟨s, puStep_of_halted hp⟩
  · exact ⟨s, by rw [puStep, if_neg enabled]⟩

/-! ### What an outcome can be

Each lemma takes a property of outcomes and asks for it of those the turn can have. -/

section
variable {P : Outcome → Prop} (next : ∀ t, P (.next t))
include next

theorem commit_outcome (s : State) : P (commit s) := by
  unfold commit
  split <;> exact next _

theorem payloadAction_outcome (fault : P (.fault .counterRange)) (c : ChunkClass) (b : Byte) (s : State) :
    P (payloadAction c b s) := by
  cases c with
  | ihdr =>
    simp only [payloadAction, dPayloadIhdr]
    split_ifs
    · exact fault
    · exact commit_outcome next _
    · exact next _
  | idat | iend | plte | other => exact next _

theorem feStep_outcome (fault : P (.fault .counterRange)) (s : State) : P (feStep s) := by
  by_cases enabled : feEnabled s = true
  · obtain ⟨tok, more, hs, -⟩ := (feEnabled_iff s).1 enabled
    rw [feStep_of_enabled enabled]
    cases tok with
    | eos => rw [feTake_eos hs]; exact next _
    | byte b =>
      cases hf : s.fe.fst with
      | sig =>
        by_cases counter : s.fe.cnt.toNat ≤ 7
        · rw [feTake_sig_byte hf counter hs]; exact next _
        · have past : signature[s.fe.cnt.toNat]? = Option.none := List.getElem?_eq_none (by simp [signature]; omega)
          simp only [feTake, hf, exec, execSig, hs, past]
          exact fault
      | len => rw [feTake_len_byte hf hs]; exact next _
      | type => rw [feTake_type_byte hf hs]; exact next _
      | data =>
        have act : ∀ {o : Outcome}, o = .fault .counterRange ∨ (∃ u, o = .next u) →
            P (andThen o fun u => .next (afterPayload u)) := by
          rintro _ (rfl | ⟨u, rfl⟩)
          · exact fault
          · exact next _
        rw [feTake_data_byte hf hs]
        split_ifs
        · exact act (payloadAction_outcome (P := fun o => o = .fault .counterRange ∨ ∃ u, o = .next u)
            (fun t => .inr ⟨t, rfl⟩) (.inl rfl) _ b _)
        · exact next _
      | trail => rw [feTake_trail_byte hf hs]; exact next _
      | halt => simp only [feTake, hf]; exact next _
  · rw [feStep_of_disabled (by simpa using enabled)]
    exact next _

theorem rowStep_outcome (fault : P (.fault .lineBufferRange)) (f : Byte → Neighbours → Byte) (s : State) : P (rowStep f s) := by
  unfold rowStep
  split
  · exact next _
  · split_ifs
    · exact fault
    · exact next _
  · exact next _
  · exact next _

theorem puStep_outcome (fault : P (.fault .lineBufferRange)) (s : State) : P (puStep s) := by
  unfold puStep puTake
  split_ifs
  · cases hp : s.pu.pst with
    | wait => exact next _
    | filt =>
      simp only [filtStep]
      split
      · exact next _
      · split
        · rw [exec_filterInstr, filterStep, popZ_pu, hp]; exact next _
        · exact next _
      · exact next _
      · exact next _
    | data =>
      simp only [exec_filterInstr, filterStep, hp, if_true]
      exact rowStep_outcome next fault _ _
    | tail => simp only [tailStep]; split <;> exact next _
    | drain => simp only [drainStep]; split <;> exact next _
    | halt => exact next _
  · exact next _

theorem inflStep_outcome (refused : P (.refused .environmentContract)) (s : State) : P (inflStep s) := by
  unfold inflStep
  split
  · split
    · split
      · exact next _
      · exact refused
    · exact next _
  · exact next _

theorem deliverStep_outcome (refused : P (.refused .environmentContract)) (z : ZToken) (s : State) : P (deliverStep z s) := by
  unfold deliverStep
  split
  · exact refused
  · split
    · exact next _
    · split
      · exact next _
      · exact refused
    · split
      · exact next _
      · exact refused

theorem srcStep_outcome (refused : P (.refused .environmentContract)) (z : SToken) (s : State) : P (srcStep z s) := by
  unfold srcStep
  split
  · exact refused
  · exact next _

theorem encodeRowStep_outcome (b : Byte) (s : State) : P (encodeRowStep b s) := by
  unfold encodeRowStep
  split
  · exact next _
  · split
    · rw [exec_fwdInstr]; exact next _
    · exact next _

theorem runEvent_outcome (refused : P (.refused .environmentContract)) {s : State} (fe : P (feStep s)) (pu : P (puStep s)) (e : Event) :
    P (runEvent e s) := by
  cases e with
  | fe => exact fe
  | pu => exact pu
  | infl => exact inflStep_outcome next refused s
  | deliver z => exact deliverStep_outcome next refused z s
  | src z => exact srcStep_outcome next refused z s
  | encodeRow b => exact encodeRowStep_outcome next b s
  | setKReady | setCReady | setPReady | rst => exact next _

/-- The outcome of a step is that of a turn of FE or PU, a next state, or the refusal of the environment. -/
theorem step_outcome (refused : P (.refused .environmentContract)) {s : State}
    (fe : ∀ rest, P (feStep { s with sched := rest })) (pu : ∀ rest, P (puStep { s with sched := rest })) : P (step s) := by
  unfold step takeTurn
  split
  · unfold defaultTurn
    split_ifs
    · exact fe s.sched
    · exact pu s.sched
    · exact inflStep_outcome next refused s
    · exact next s
  · exact runEvent_outcome next refused (fe _) (pu _) _

end

/-! ### What stays between two resets -/

/-- A recorded layer-D code stays (R150). -/
theorem FeMove.keeps_derr (m : FeMove s t) (hd : s.fe.derr ≠ .ok) : t.fe.derr = s.fe.derr := by
  have halted : ∀ u : State, u.fe.derr = s.fe.derr → (haltFE u).fe.derr = s.fe.derr := by
    intro u hu
    rw [haltFE_derr, if_neg fun h => hd (hu.symm.trans h.2.1), hu]
  cases m with
  | sigReject | lenEnd | truncate | trailEnd => exact halted _ rfl
  | select b =>
    have idle : ¬ (shiftType b (popS s)).fe.derr = .ok := hd
    rw [selectChunk_eq, if_neg idle]
    rfl
  | payOpaque => rw [afterPayload_eq]; rfl
  | payIdat _ _ ok | payIhdr _ _ ok | payCommit _ _ ok => exact absurd ok hd
  | hold | sigDone | sigNext | lenDone | lenNext | typeNext | trailNext | trailDone => rfl

/-- `P_HALT` is absorbing (R211). -/
theorem PuMove.of_halted (m : PuMove s t) (hp : s.pu.pst = .halt) : t = s := by
  cases m with
  | hold => rfl
  | start hp' | reject hp' | select _ hp' | rowByte _ hp' | badDepth hp' => cases hp'.symm.trans hp
  | cutShort _ hp' | discard hp' | failed hp' => simp [hp] at hp'
  | finish hp' => simp [hp] at hp'

/-- A recorded layer-P code gives way to `DecompressionFailed` alone (`60_exceptions.md` R256). -/
theorem PuMove.perr (m : PuMove s t) (stops : PlaneErrorStops s) (hp : s.pu.perr ≠ .ok) :
    t.pu.perr = s.pu.perr ∨ t.pu.perr = .decompressionFailed := by
  have place := stops hp
  cases m with
  | hold | discard | finish => exact .inl rfl
  | failed => exact .inr rfl
  | start hp' | reject hp' | select _ hp' | rowByte _ hp' | badDepth hp' => simp [hp'] at place
  | cutShort _ hp' => rcases hp' with hp' | hp' <;> simp [hp'] at place

/-- A step between two resets leaves each agent alone or is a move of it. -/
theorem step_registers (inv : Inv s) (noReset : NoReset s) (h : step s = .next t) :
    (t.fe = s.fe ∨ ∃ u, Inv u ∧ u.fe = s.fe ∧ FeMove u t) ∧ (t.pu = s.pu ∨ ∃ u, Inv u ∧ u.pu = s.pu ∧ PuMove u t) := by
  have taken : ∀ {u : State}, (u = s ∨ ∃ rest, u = { s with sched := rest }) → Inv u ∧ u.fe = s.fe ∧ u.pu = s.pu := by
    rintro u (rfl | ⟨rest, rfl⟩)
    · exact ⟨inv, rfl, rfl⟩
    · exact ⟨inv_of_same_block inv rfl rfl rfl rfl rfl, rfl, rfl⟩
  cases step_turn h with
  | front start m =>
    obtain ⟨invU, fe, pu⟩ := taken start
    exact ⟨.inr ⟨_, invU, fe, m⟩, .inl ((congrArg Prod.fst m.planePart_eq).trans pu)⟩
  | plane start m =>
    obtain ⟨invU, fe, pu⟩ := taken start
    exact ⟨.inl ((congrArg Prod.fst m.frontPart_eq).trans fe), .inr ⟨_, invU, pu, m⟩⟩
  | outside m => exact ⟨.inl m.fe, .inl m.pu⟩
  | reset input ends rest hs => cases noReset _ _ hs

theorem descriptorKept_of_descriptorOnly (h : descriptorOnly t.fe = descriptorOnly s.fe) :
    DescriptorKept s t ∧ t.fe.descValid = s.fe.descValid := by
  simp only [descriptorOnly, FrontEnd.mk.injEq] at h
  obtain ⟨-, -, -, -, -, -, -, descValid, fields⟩ := h
  exact ⟨fields, descValid⟩

/-- What a step between two resets leaves of a committed descriptor. -/
theorem step_keeps_committed (inv : Inv s) (noReset : NoReset s) (h : step s = .next t) (hd : s.fe.descValid = true) :
    DescriptorKept s t ∧ t.fe.descValid = s.fe.descValid := by
  rcases (step_registers inv noReset h).1 with same | ⟨u, invU, fe, m⟩
  · exact descriptorKept_of_descriptorOnly (by rw [same])
  · exact descriptorKept_of_descriptorOnly (fe ▸ m.keeps_committed ((inv_iff u).1 invU).1 (fe ▸ hd))

/-- FE's halt and codes between two resets. -/
theorem step_keeps_front_codes (inv : Inv s) (noReset : NoReset s) (h : step s = .next t) :
    (s.fe.fst = .halt → t.fe = s.fe) ∧ (s.fe.derr ≠ .ok → t.fe.derr = s.fe.derr) := by
  rcases (step_registers inv noReset h).1 with same | ⟨u, -, fe, m⟩
  · exact ⟨fun _ => same, fun _ => by rw [same]⟩
  · rw [← fe]
    exact ⟨fun hf => congrArg State.fe (m.of_halted hf), m.keeps_derr⟩

/-- PU's halt and code between two resets. -/
theorem step_keeps_plane_code (inv : Inv s) (noReset : NoReset s) (h : step s = .next t) :
    (s.pu.pst = .halt → t.pu = s.pu) ∧ (s.pu.perr ≠ .ok → t.pu.perr = s.pu.perr ∨ t.pu.perr = .decompressionFailed) := by
  rcases (step_registers inv noReset h).2 with same | ⟨u, invU, pu, m⟩
  · exact ⟨fun _ => same, fun _ => .inl (by rw [same])⟩
  · rw [← pu]
    exact ⟨fun hp => congrArg State.pu (m.of_halted hp), m.perr invU.planeErrorStops⟩

end Sys2Proof.Machine

namespace Sys2Proof.Proofs.OtherFamily
open Sys2Proof.Machine Sys2Proof.Safety

/-- Settles O42: FE and PU answer under the invariant, and no agent of the block refuses in any state. -/
theorem noFaultUnderTheInvariant : Obligations.NoFaultUnderTheInvariant := by
  refine ⟨fun s inv f => ?_, fun s r h => ?_⟩
  · have answered : ∀ {o : Outcome}, (∃ t, o = .next t) → o ≠ .fault f := by
      rintro _ ⟨t, rfl⟩ h
      cases h
    have invU : ∀ rest, Inv { s with sched := rest } := fun _ => inv_of_same_block inv rfl rfl rfl rfl rfl
    exact step_outcome (P := fun o => o ≠ .fault f) (fun _ h => nomatch h) (fun h => nomatch h)
      (fun rest => answered (feStep_answers (invU rest))) (fun rest => answered (puStep_answers (invU rest)))
  · have next : ∀ t, (.next t : Outcome) = .refused r → r = .environmentContract := fun _ h => nomatch h
    have fault : ∀ f, (.fault f : Outcome) = .refused r → r = .environmentContract := fun _ h => nomatch h
    exact step_outcome (P := fun o => o = .refused r → r = .environmentContract) next
      (fun h => (Host.Outcome.refused.inj h).symm)
      (fun _ => feStep_outcome (P := fun o => o = .refused r → r = .environmentContract) next (fault _) _)
      (fun _ => puStep_outcome (P := fun o => o = .refused r → r = .environmentContract) next (fault _) _) h

/-- Settles O43: a halted agent has no move but to hold, and no move takes a recorded code or the descriptor back. -/
theorem haltsAndCodesStayWithinACall : Obligations.HaltsAndCodesStayWithinACall := by
  intro s t inv noReset h
  obtain ⟨halted, derr⟩ := step_keeps_front_codes inv noReset h
  obtain ⟨planeHalted, perr⟩ := step_keeps_plane_code inv noReset h
  exact ⟨halted, planeHalted, fun bad => congrArg FrontEnd.ferr (halted (inv.frontErrorHalts bad)), derr,
    fun hd => (step_keeps_committed inv noReset h hd).2.trans hd, perr⟩

/-- Settles O44: a committed descriptor stays, and the invariant says that a PU in its rows has one. -/
theorem committedDescriptorNeverChanges : Obligations.CommittedDescriptorNeverChanges := by
  intro s t inv noReset h
  refine ⟨fun hd => (step_keeps_committed inv noReset h hd).1, fun hp => ?_⟩
  have started := (step_inv inv h).planeStarted
  rcases hp with hp | hp | hp <;> simpa only [PlaneStarted, hp] using started

end Sys2Proof.Proofs.OtherFamily
end

section
/-! PROOFS. Streams and the environment's contracts (`20_memory.md` R62, R72, R73). `AgentTurn` says once what each agent, in or outside
the block, can do to the streams; the order of each stream is read off it. -/

namespace Sys2Proof.Machine
open Sys2Proof.Safety

variable {s t : State} {tok : ZToken} {more : List ZToken}

/-! ### PU's step on the token offered (R200) -/

theorem puEnabled_of_token (hp : s.pu.pst ≠ .wait) (hz : s.zIn = tok :: more) : puEnabled s = puAccepts s tok := by
  rw [puEnabled, if_neg hp, hz]

theorem puStep_of_no_token (hp : s.pu.pst ≠ .wait) (hz : s.zIn = []) : puStep s = .next s := by
  simp [puStep, puEnabled, hp, hz]

theorem puStep_of_disabled (h : puEnabled s = false) : puStep s = .next s := by
  simp [puStep, h]

theorem pOffers_iff (s : State) (tok : ZToken) : pOffers s tok = true ↔ s.pu.pst = .data ∧ ∃ x, tok = .byte x := by
  cases tok <;> simp [pOffers]

theorem puAccepts_iff (hp : s.pu.pst ≠ .wait) :
    puAccepts s tok = true ↔ s.pu.pst ≠ .halt ∧ (pOffers s tok = true → s.pReady = true) := by
  cases offers : pOffers s tok <;> simp [puAccepts, hp, offers]

/-- PU took the token: it has halted on an end token alone, and has emitted on a row byte alone. -/
structure PlaneTakes (s t : State) (tok : ZToken) (more : List ZToken) : Prop where
  zIn : t.zIn = more
  halts : t.pu.pst = .halt ↔ ZToken.ends tok = true
  pOut : ∃ ps, t.pOut = s.pOut ++ ps ∧ ps.length = (pOffers s tok).toNat

/-- A row byte that is answered is inside the capacity. -/
theorem col_lt_of_puStep {x : Byte} (hp : s.pu.pst = .data) (hr : s.pReady = true) (hz : s.zIn = .byte x :: more)
    (h : puStep s = .next t) : s.pu.col.toNat < s.lbBytes := by
  have enabled : puEnabled s = true := by simp [puEnabled, puAccepts, hp, hz, hr]
  by_contra out
  simp [puStep, enabled, puTake, hp, exec_filterInstr, filterStep, rowStep, hz, Nat.not_lt.1 out] at h

theorem puStep_takes (hp : s.pu.pst ≠ .wait) (hz : s.zIn = tok :: more) (accepts : puAccepts s tok = true)
    (h : puStep s = .next t) : PlaneTakes s t tok more := by
  obtain ⟨hh, ready⟩ := (puAccepts_iff hp).1 accepts
  have silent : ∀ {q}, s.pu.pst = q → q ≠ .data → t.pOut = s.pOut → ∃ ps, t.pOut = s.pOut ++ ps ∧ ps.length = (pOffers s tok).toNat :=
    fun hq outside same => ⟨[], by rw [same, List.append_nil], by rw [pOffers_outside_row hq outside]; rfl⟩
  cases tok with
  | zEnd | zErr =>
    cases hq : s.pu.pst with
    | wait => exact absurd hq hp
    | halt => exact absurd hq hh
    | filt | data =>
      rw [puStep_rowsCutShort (by simp [hq]) hz rfl] at h
      cases h
      exact ⟨rfl, ⟨fun _ => rfl, fun _ => rfl⟩, [], (List.append_nil _).symm, rfl⟩
    | tail | drain =>
      rw [puStep_close (by simp [hq]) hz rfl] at h
      cases h
      exact ⟨rfl, ⟨fun _ => rfl, fun _ => rfl⟩, [], (List.append_nil _).symm, rfl⟩
  | byte x =>
    cases hq : s.pu.pst with
    | wait => exact absurd hq hp
    | halt => exact absurd hq hh
    | filt =>
      cases hf : filterTypeOf x with
      | none =>
        rw [puStep_reject hq hz hf] at h
        cases h
        exact ⟨rfl, ⟨fun e => (nomatch e), fun e => nomatch e⟩, silent hq (by decide) rfl⟩
      | some f =>
        rw [puStep_select hq hz hf, selectFilter_eq] at h
        cases h
        refine ⟨?_, ⟨fun e => ?_, fun e => nomatch e⟩, silent hq (by decide) ?_⟩
        · split_ifs <;> rfl
        · split_ifs at e
        · split_ifs <;> rfl
    | data =>
      have hr := ready ((pOffers_iff s _).2 ⟨hq, x, rfl⟩)
      rw [puStep_rowByte hq hr hz (col_lt_of_puStep hq hr hz h), reconstruct_eq, popZ_eq hz] at h
      cases h
      refine ⟨rfl, ⟨fun e => ?_, fun e => nomatch e⟩, _, rfl, by simp [pOffers, hq]⟩
      simp only [hq] at e
      split_ifs at e
    | tail | drain =>
      rw [puStep_discard (by simp [hq]) hz] at h
      cases h
      exact ⟨rfl, ⟨fun e => (nomatch hq.symm.trans e), fun e => nomatch e⟩, silent hq (by decide) rfl⟩

/-- PU's turn holds, starts, or takes the token on offer. -/
theorem puStep_cases (h : puStep s = .next t) :
    t = s ∨ (s.pu.pst = .wait ∧ t = startStep s) ∨ ∃ tok more, s.pu.pst ≠ .halt ∧ s.zIn = tok :: more ∧ PlaneTakes s t tok more := by
  by_cases hw : s.pu.pst = .wait
  · exact .inr (.inl ⟨hw, (Host.Outcome.next.inj ((puStep_wait hw).symm.trans h)).symm⟩)
  · by_cases enabled : puEnabled s = true
    · obtain ⟨hh, tok, more, hz, accepts⟩ := puEnabled_cons hw enabled
      exact .inr (.inr ⟨tok, more, hh, hz, puStep_takes hw hz accepts h⟩)
    · rw [puStep_of_disabled (by simpa using enabled)] at h
      exact .inl (Host.Outcome.next.inj h).symm

/-! ### What each agent can do -/

/-- What INFL can do (R72). -/
inductive InflMove (s : State) : State → Prop
  | hold : InflMove s s
  | byte (b : Byte) : s.infl.ended = false →
      InflMove s { s with zIn := s.zIn ++ [.byte b], infl := { s.infl with sent := s.infl.sent ++ [b] } }
  | close (bs : List Byte) (last : ZToken) : s.infl.ended = false → CToken.cEnd ∈ s.cOut →
      Ending last (s.infl.sent ++ bs) (Config.inflate (cBytes s)) → InflMove s (deliverAll bs last s)

theorem inflStep_move (h : inflStep s = .next t) : InflMove s t := by
  unfold inflStep at h
  split at h
  · rename_i enabled
    simp only [inflEnabled, Bool.and_eq_true, decide_eq_true_eq, Bool.not_eq_true'] at enabled
    obtain ⟨hc, hi⟩ := enabled
    split at h
    · rename_i zs hz
      split at h
      · rename_i consistent
        cases h
        obtain ⟨rest, rfl⟩ := List.isPrefixOf_iff_prefix.1 consistent
        rw [List.drop_left]
        exact .close rest .zEnd hi hc (.inl ⟨rfl, hz⟩)
      · cases h
    · rename_i hz
      cases h
      exact .close _ .zErr hi hc (.inr ⟨rfl, hz⟩)
  · cases h
    exact .hold

theorem deliverStep_move {z : ZToken} (h : deliverStep z s = .next t) : InflMove s t := by
  unfold deliverStep at h
  split at h
  · cases h
  · rename_i notEnded
    have hi : s.infl.ended = false := by simpa using notEnded
    split at h
    · rename_i b
      cases h
      exact .byte b hi
    · split at h
      · rename_i agrees
        cases h
        exact .close [] .zEnd hi agrees.1 (.inl ⟨rfl, by rw [List.append_nil]; exact agrees.2⟩)
      · cases h
    · split at h
      · rename_i agrees
        cases h
        exact .close [] .zErr hi agrees.1 (.inr ⟨rfl, agrees.2⟩)
      · cases h

/-- A turn that is no reset, by the agent that takes it. -/
inductive AgentTurn (s : State) : State → Prop
  | front {t : State} : feStep s = .next t → AgentTurn s t
  | plane {t : State} : puStep s = .next t → AgentTurn s t
  | inflater {t : State} : InflMove s t → AgentTurn s t
  | source (z : SToken) : s.srcEnded = false →
      AgentTurn s { s with sIn := s.sIn ++ [z], srcEnded := decide (z = .eos) }
  | sinks {t : State} : callPart t = callPart s → AgentTurn s t

theorem runEvent_turn {e : Event} (he : Event.isReset e = false) (h : runEvent e s = .next t) : AgentTurn s t := by
  cases e with
  | fe => exact .front h
  | pu => exact .plane h
  | infl => exact .inflater (inflStep_move h)
  | deliver z => exact .inflater (deliverStep_move h)
  | src z =>
    simp only [runEvent, srcStep] at h
    split_ifs at h with ended
    cases h
    exact .source z (by simpa using ended)
  | setKReady | setCReady | setPReady =>
    cases h
    exact .sinks rfl
  | rst => cases he
  | encodeRow b => exact .sinks (encodeRowStep_callPart h).1

/-- A step is a turn of an agent, or a reset. -/
theorem step_agentTurn (h : step s = .next t) :
    ∃ rest, AgentTurn { s with sched := rest } t ∨
      (¬ NoReset s ∧ ∃ input ends, t = assertReset input ends { s with sched := rest }) := by
  obtain ⟨e, rest, run, noReset⟩ := step_event h
  refine ⟨rest, ?_⟩
  by_cases he : Event.isReset e = false
  · exact .inl (runEvent_turn he run)
  · refine .inr ⟨mt noReset he, ?_⟩
    cases e with
    | rst input ends =>
      cases run
      exact ⟨input, ends, rfl⟩
    | fe | pu | infl | deliver | src | setKReady | setCReady | setPReady | encodeRow => exact absurd rfl he

/-! ### Streams are first-in first-out (R62) -/

/-- Emitted tokens stay, and an offered token leaves only from the front. -/
def StreamsFlow (s t : State) : Prop :=
  s.kOut <+: t.kOut ∧ s.cOut <+: t.cOut ∧ s.pOut <+: t.pOut ∧
    (∃ taken more, taken.length ≤ 1 ∧ taken ++ t.sIn = s.sIn ++ more) ∧
    (∃ taken more, taken.length ≤ 1 ∧ taken ++ t.zIn = s.zIn ++ more)

/-- Nothing taken, these tokens added. -/
theorem flow_of_append {α : Type} {l l' more : List α} (h : l' = l ++ more) :
    ∃ taken more, taken.length ≤ 1 ∧ taken ++ l' = l ++ more := ⟨[], more, Nat.zero_le 1, h⟩

theorem flow_of_tail {α : Type} {l l' more : List α} {a : α} (h : l = a :: more) (h' : l' = more) :
    ∃ taken more, taken.length ≤ 1 ∧ taken ++ l' = l ++ more := ⟨[a], [], le_rfl, by rw [h, h', List.append_nil]; rfl⟩

theorem flow_of_eq {α : Type} {l l' : List α} (h : l' = l) : ∃ taken more, taken.length ≤ 1 ∧ taken ++ l' = l ++ more :=
  flow_of_append (h.trans (List.append_nil l).symm)

theorem emitted_of_eq {α : Type} {l l' : List α} (h : l' = l) : l <+: l' := ⟨[], by rw [h, List.append_nil]⟩

theorem streamsFlow_of_callPart_eq (h : callPart t = callPart s) : StreamsFlow s t := by
  simp only [callPart, Prod.mk.injEq] at h
  obtain ⟨-, ⟨sIn, zIn, kOut, cOut, pOut⟩, -⟩ := h
  exact ⟨emitted_of_eq kOut, emitted_of_eq cOut, emitted_of_eq pOut, flow_of_eq sIn, flow_of_eq zIn⟩

theorem feStep_streamsFlow (h : feStep s = .next t) : StreamsFlow s t := by
  obtain ⟨-, zIn, pOut⟩ := feStep_keeps_plane h
  rcases feStep_cases h with rfl | ⟨tok, more, hs, hf, h⟩
  · exact streamsFlow_of_callPart_eq rfl
  · obtain ⟨sIn, kOut, cOut⟩ := feTake_takes hf hs h
    exact ⟨⟨_, kOut.symm⟩, ⟨_, cOut.symm⟩, emitted_of_eq pOut, flow_of_tail hs (by rw [sIn, hs]; rfl), flow_of_eq zIn⟩

theorem puStep_streamsFlow (h : puStep s = .next t) : StreamsFlow s t := by
  obtain ⟨-, sIn, kOut, cOut⟩ := puStep_keeps_front h
  have front : ∀ {ps : List PToken}, t.pOut = s.pOut ++ ps → (∃ taken more, taken.length ≤ 1 ∧ taken ++ t.zIn = s.zIn ++ more) →
      StreamsFlow s t :=
    fun pOut zIn => ⟨emitted_of_eq kOut, emitted_of_eq cOut, ⟨_, pOut.symm⟩, flow_of_eq sIn, zIn⟩
  rcases puStep_cases h with rfl | ⟨-, rfl⟩ | ⟨tok, more, -, hz, takes⟩
  · exact streamsFlow_of_callPart_eq rfl
  · have same : (startStep s).pOut = s.pOut ∧ (startStep s).zIn = s.zIn := by
      unfold startStep
      split_ifs <;> exact ⟨rfl, rfl⟩
    exact front (same.1.trans (List.append_nil _).symm) (flow_of_eq same.2)
  · obtain ⟨ps, pOut, -⟩ := takes.pOut
    exact front pOut (flow_of_tail hz takes.zIn)

theorem AgentTurn.streamsFlow (h : AgentTurn s t) : StreamsFlow s t := by
  cases h with
  | front h => exact feStep_streamsFlow h
  | plane h => exact puStep_streamsFlow h
  | inflater m =>
    cases m with
    | hold => exact streamsFlow_of_callPart_eq rfl
    | byte b => exact ⟨emitted_of_eq rfl, emitted_of_eq rfl, emitted_of_eq rfl, flow_of_eq rfl, flow_of_append rfl⟩
    | close bs last =>
      exact ⟨emitted_of_eq rfl, emitted_of_eq rfl, emitted_of_eq rfl, flow_of_eq rfl, flow_of_append (List.append_assoc ..)⟩
  | source z => exact ⟨emitted_of_eq rfl, emitted_of_eq rfl, emitted_of_eq rfl, flow_of_append rfl, flow_of_eq rfl⟩
  | sinks same => exact streamsFlow_of_callPart_eq same

/-! ### SRC's contract (R73) -/

theorem sourceKept_of_eq (h : SourceKept s) (sIn : t.sIn = s.sIn) (srcEnded : t.srcEnded = s.srcEnded) : SourceKept t := by
  simpa only [SourceKept, sIn, srcEnded] using h

theorem sourceKept_of_taken {tok : SToken} {more : List SToken} (h : SourceKept s) (hs : s.sIn = tok :: more) (sIn : t.sIn = more)
    (srcEnded : t.srcEnded = s.srcEnded) : SourceKept t := by
  obtain ⟨inner, offered, ended⟩ := h
  rw [hs] at inner offered ended
  cases more with
  | nil => exact ⟨by simp [sIn], by simp [sIn], fun _ => .inl sIn⟩
  | cons z more =>
    refine ⟨?_, ?_, ?_⟩
    · rw [sIn]
      exact fun mem => inner (List.mem_cons_of_mem tok mem)
    · rw [sIn, srcEnded]
      exact fun mem => offered (List.mem_cons_of_mem tok mem)
    · rw [sIn, srcEnded]
      intro he
      have last := (ended he).resolve_left (List.cons_ne_nil _ _)
      rw [List.getLast?_cons_cons] at last
      exact .inr last

theorem AgentTurn.sourceKept (h : AgentTurn s t) (kept : SourceKept s) : SourceKept t := by
  cases h with
  | front h =>
    have srcEnded : t.srcEnded = s.srcEnded := congrArg (·.srcEnded) (feStep_frame h)
    rcases feStep_cases h with rfl | ⟨tok, more, hs, hf, h⟩
    · exact kept
    · exact sourceKept_of_taken kept hs (by rw [(feTake_takes hf hs h).1, hs]; rfl) srcEnded
  | plane h => exact sourceKept_of_eq kept (puStep_keeps_front h).2.1 (congrArg (·.srcEnded) (puStep_frame h))
  | inflater m => cases m <;> exact sourceKept_of_eq kept rfl rfl
  | source z running =>
    obtain ⟨-, offered, -⟩ := kept
    have none : SToken.eos ∉ s.sIn := fun mem => Bool.noConfusion (running.symm.trans (offered mem))
    refine ⟨by simpa using none, fun mem => ?_, fun he => .inr ?_⟩
    · have last : z = .eos := by simpa [none, eq_comm] using mem
      simpa using last
    · simpa using he
  | sinks same =>
    simp only [callPart, Prod.mk.injEq] at same
    obtain ⟨-, ⟨sIn, -⟩, -, -, srcEnded⟩ := same
    exact sourceKept_of_eq kept sIn srcEnded

theorem presentInput_sourceKept (input : List Byte) {ends : Bool} (sIn : s.sIn = presentInput input ends) (srcEnded : s.srcEnded = ends) :
    SourceKept s := by
  cases ends with
  | false =>
    have none : SToken.eos ∉ s.sIn := by simp [sIn, presentInput]
    exact ⟨fun mem => none (List.mem_of_mem_dropLast mem), fun mem => absurd mem none, fun he => Bool.noConfusion (srcEnded.symm.trans he)⟩
  | true => simp [SourceKept, sIn, srcEnded, presentInput]

/-! ### INFL's contract (R72) -/

theorem deliveryKept_of_eq (h : DeliveryKept s) (infl : t.infl = s.infl) (cOut : t.cOut = s.cOut) : DeliveryKept t := by
  simpa only [DeliveryKept, cBytes, infl, cOut] using h

theorem AgentTurn.deliveryKept (h : AgentTurn s t) (inv : Inv s) (kept : DeliveryKept s) : DeliveryKept t := by
  cases h with
  | front h =>
    have infl : t.infl = s.infl := congrArg (·.infl) (feStep_frame h)
    intro he
    obtain ⟨hc, -⟩ := kept (infl ▸ he)
    have halted : s.fe.fst = .halt := by
      by_contra running
      have none := inv.endEmittedOnce
      rw [EndEmittedOnce, if_neg running] at none
      exact none hc
    have same := (feStep_move h).of_halted halted
    exact same ▸ kept (infl ▸ he)
  | plane h => exact deliveryKept_of_eq kept (congrArg (·.infl) (puStep_frame h)) (puStep_keeps_front h).2.2.2
  | inflater m =>
    cases m with
    | hold => exact kept
    | byte b running => exact fun he => Bool.noConfusion (running.symm.trans he)
    | close bs last _ hc ending =>
      refine fun _ => ⟨hc, fun zs hz => ?_⟩
      rcases ending with ⟨-, result⟩ | ⟨-, result⟩
      · exact Option.some.inj (result.symm.trans hz)
      · cases result.symm.trans hz
  | source => exact kept
  | sinks same =>
    simp only [callPart, Prod.mk.injEq] at same
    obtain ⟨-, ⟨-, -, -, cOut, -⟩, infl, -⟩ := same
    exact deliveryKept_of_eq kept infl cOut

theorem deliveryOrdered_of_eq (h : DeliveryOrdered s) (pu : t.pu = s.pu) (zIn : t.zIn = s.zIn) (infl : t.infl = s.infl) :
    DeliveryOrdered t := by
  simpa only [DeliveryOrdered, pu, zIn, infl] using h

/-- PU takes a token of an ordered stream: an end token is the last on offer. -/
theorem deliveryOrdered_of_taken (h : DeliveryOrdered s) (hz : s.zIn = tok :: more) (takes : PlaneTakes s t tok more)
    (infl : t.infl = s.infl) : DeliveryOrdered t := by
  obtain ⟨inner, ended, -⟩ := h
  rw [hz] at inner ended
  refine ⟨?_, ?_, fun hp => ?_⟩
  · rw [takes.zIn]
    intro z mem
    cases more with
    | nil => cases mem
    | cons z' more => exact inner z (List.mem_cons_of_mem tok mem)
  · rw [takes.zIn, infl]
    rintro ⟨z, mem, he⟩
    exact ended ⟨z, List.mem_cons_of_mem tok mem, he⟩
  · have he := takes.halts.1 hp
    refine ⟨infl ▸ ended ⟨tok, List.mem_cons_self, he⟩, ?_⟩
    rw [takes.zIn]
    cases more with
    | nil => rfl
    | cons z' more =>
      have inside := inner tok List.mem_cons_self
      rw [he] at inside
      cases inside

/-- Before INFL has ended, no end token is on offer and PU has not halted. -/
theorem deliveryOrdered_running (h : DeliveryOrdered s) (running : s.infl.ended = false) :
    (∀ z ∈ s.zIn, ZToken.ends z = false) ∧ s.pu.pst ≠ .halt := by
  obtain ⟨-, ended, halted⟩ := h
  refine ⟨fun z mem => by_contra fun he => ?_, fun hp => Bool.noConfusion (running.symm.trans (halted hp).1)⟩
  exact Bool.noConfusion (running.symm.trans (ended ⟨z, mem, by simpa using he⟩))

theorem AgentTurn.deliveryOrdered (h : AgentTurn s t) (kept : DeliveryOrdered s) : DeliveryOrdered t := by
  cases h with
  | front h =>
    obtain ⟨pu, zIn, -⟩ := feStep_keeps_plane h
    exact deliveryOrdered_of_eq kept pu zIn (congrArg (·.infl) (feStep_frame h))
  | plane h =>
    have infl : t.infl = s.infl := congrArg (·.infl) (puStep_frame h)
    rcases puStep_cases h with rfl | ⟨hp, rfl⟩ | ⟨tok, more, -, hz, takes⟩
    · exact kept
    · have started : (startStep s).zIn = s.zIn ∧ (startStep s).pu.pst ≠ .halt := by
        unfold startStep
        split_ifs <;> simp [hp]
      obtain ⟨inner, ended, -⟩ := kept
      refine ⟨by rw [started.1]; exact inner, ?_, fun hp => absurd hp started.2⟩
      rw [started.1, infl]
      exact ended
    · exact deliveryOrdered_of_taken kept hz takes infl
  | inflater m =>
    cases m with
    | hold => exact kept
    | byte b running =>
      obtain ⟨bytes, notHalted⟩ := deliveryOrdered_running kept running
      refine ⟨?_, ?_, fun hp => absurd hp notHalted⟩
      · rw [List.dropLast_concat]
        exact bytes
      · rintro ⟨z, mem, he⟩
        rcases List.mem_append.1 mem with mem | mem
        · exact Bool.noConfusion ((bytes z mem).symm.trans he)
        · rw [List.mem_singleton.1 mem] at he
          cases he
    | close bs last running =>
      obtain ⟨bytes, notHalted⟩ := deliveryOrdered_running kept running
      refine ⟨?_, fun _ => rfl, fun hp => absurd hp notHalted⟩
      show ∀ z ∈ (s.zIn ++ bs.map ZToken.byte ++ [last]).dropLast, _
      rw [List.dropLast_concat]
      exact List.forall_mem_append.2 ⟨bytes, List.forall_mem_map.2 fun _ _ => rfl⟩
  | source => exact kept
  | sinks same =>
    simp only [callPart, Prod.mk.injEq] at same
    obtain ⟨⟨-, pu⟩, ⟨-, zIn, -⟩, infl, -⟩ := same
    exact deliveryOrdered_of_eq kept pu zIn infl

/-- Before any token of stream Z both contracts of INFL hold. -/
theorem delivery_of_fresh (zIn : s.zIn = []) (ended : s.infl.ended = false) (hp : s.pu.pst ≠ .halt) :
    DeliveryKept s ∧ DeliveryOrdered s := by
  refine ⟨fun he => Bool.noConfusion (ended.symm.trans he), ?_, ?_, fun h => absurd h hp⟩
  · rw [zIn]; exact fun _ h => nomatch h
  · rw [zIn]; exact fun ⟨_, h, _⟩ => nomatch h

/-! ### After `DONE` (`70_reset_and_hazards.md` R297) -/

/-- The status port shows registers alone. -/
theorem statusRead_of_registers_eq (fe : t.fe = s.fe) (pu : t.pu = s.pu) (a : BitVec 6) : statusRead t a = statusRead s a := by
  have registers : statusRead t a = statusRead { s with fe := t.fe, pu := t.pu } a := rfl
  rw [registers, fe, pu]

/-- With both agents halted only INFL, SRC and the sinks move. -/
theorem AgentTurn.of_done (h : AgentTurn s t) (hf : s.fe.fst = .halt) (hp : s.pu.pst = .halt) :
    t.fe = s.fe ∧ t.pu = s.pu ∧ t.kOut = s.kOut ∧ t.cOut = s.cOut ∧ t.pOut = s.pOut ∧ s.sIn <+: t.sIn := by
  cases h with
  | front h =>
    rw [(feStep_move h).of_halted hf]
    exact ⟨rfl, rfl, rfl, rfl, rfl, emitted_of_eq rfl⟩
  | plane h =>
    rw [(puStep_move h).of_halted hp]
    exact ⟨rfl, rfl, rfl, rfl, rfl, emitted_of_eq rfl⟩
  | inflater m => cases m <;> exact ⟨rfl, rfl, rfl, rfl, rfl, emitted_of_eq rfl⟩
  | source z => exact ⟨rfl, rfl, rfl, rfl, rfl, [z], rfl⟩
  | sinks same =>
    simp only [callPart, Prod.mk.injEq] at same
    obtain ⟨⟨fe, pu⟩, ⟨sIn, -, kOut, cOut, pOut⟩, -⟩ := same
    exact ⟨fe, pu, kOut, cOut, pOut, emitted_of_eq sIn⟩

/-- A step between two resets is a turn of an agent. -/
theorem step_turn_of_noReset (noReset : NoReset s) (h : step s = .next t) : ∃ rest, AgentTurn { s with sched := rest } t := by
  obtain ⟨rest, turn | ⟨reset, -⟩⟩ := step_agentTurn h
  · exact ⟨rest, turn⟩
  · exact absurd noReset reset

theorem pins_of_done (hf : s.fe.fst = .halt) (hp : s.pu.pst = .halt) :
    (pins false s).sReady = false ∧ (pins false s).zReady = false ∧ (pins false s).kValid = false ∧
      (pins false s).cValid = false ∧ (pins false s).pValid = false := by
  cases hs : s.sIn <;> cases hz : s.zIn <;>
    simp [pins, hs, hz, hf, hp, feAccepts, puAccepts, kDrives, cDrives, kOffer_halt, cOffer_halt, pOffers_outside_row hp]

end Sys2Proof.Machine

namespace Sys2Proof.Proofs.OtherFamily
open Sys2Proof.Machine Sys2Proof.Safety

/-- Settles O45: no turn breaks a contract, reset starts each stream afresh, and so does a call. -/
theorem stepKeepsTheEnvironmentContracts : Obligations.StepKeepsTheEnvironmentContracts := by
  refine ⟨fun s t inv kept h => ?_, fun s t kept h => ?_, fun s t kept h => ?_, fun lb bs turns => ?_⟩
  · obtain ⟨rest, turn | ⟨-, input, ends, rfl⟩⟩ := step_agentTurn h
    · exact turn.deliveryKept (inv_of_same_block inv rfl rfl rfl rfl rfl) kept
    · exact (delivery_of_fresh rfl rfl (by decide : PState.wait ≠ .halt)).1
  · obtain ⟨rest, turn | ⟨-, input, ends, rfl⟩⟩ := step_agentTurn h
    · exact turn.deliveryOrdered kept
    · exact (delivery_of_fresh rfl rfl (by decide : PState.wait ≠ .halt)).2
  · obtain ⟨rest, turn | ⟨-, input, ends, rfl⟩⟩ := step_agentTurn h
    · exact turn.sourceKept kept
    · exact presentInput_sourceKept input rfl rfl
  · obtain ⟨kept, ordered⟩ := delivery_of_fresh (s := callStart lb bs turns) rfl rfl (by decide : PState.wait ≠ .halt)
    exact ⟨kept, ordered, presentInput_sourceKept bs rfl rfl⟩

/-- Settles O47: PU's enabledness and its pins are the acceptance of the offered token, and an enabled step takes that token. -/
theorem planeUnitTakesOneTokenPerStep : Obligations.PlaneUnitTakesOneTokenPerStep := by
  intro s hw
  refine ⟨puStep_of_no_token hw, fun tok more hz => ?_⟩
  have enabled := puEnabled_of_token hw hz
  have offers := pOffers_iff s tok
  have accepts := puAccepts_iff (s := s) (tok := tok) hw
  refine ⟨?_, puStep_of_disabled, fun he t h => ?_, ?_, ?_⟩
  · rw [enabled, accepts, offers, and_imp]
  · have takes := puStep_takes hw hz (enabled ▸ he) h
    obtain ⟨ps, pOut, count⟩ := takes.pOut
    refine ⟨takes.zIn, ?_⟩
    cases emits : pOffers s tok with
    | true =>
      rw [emits] at count
      obtain ⟨p, rfl⟩ := List.length_eq_one_iff.1 count
      obtain ⟨hp, x, hx⟩ := offers.1 emits
      exact .inl ⟨hp, ⟨x, hx⟩, p, pOut⟩
    | false =>
      rw [emits] at count
      rw [List.length_eq_zero_iff.1 count, List.append_nil] at pOut
      exact .inr ⟨fun row => Bool.noConfusion (emits.symm.trans (offers.2 row)), pOut⟩
  · simp [pins, hz, enabled]
  · have valid : (pins false s).pValid = pOffers s tok := by simp [pins, hz]
    rw [valid, enabled, accepts, ← offers]
    constructor
    · rintro ⟨emits, ready⟩
      exact ⟨⟨by rw [(offers.1 emits).1]; decide, fun _ => ready⟩, emits⟩
    · rintro ⟨⟨-, ready⟩, emits⟩
      exact ⟨emits, ready emits⟩

/-- Settles O48: what each agent's turn does to the streams. -/
theorem streamsAreFirstInFirstOut : Obligations.StreamsAreFirstInFirstOut := by
  intro s t noReset h
  obtain ⟨rest, turn⟩ := step_turn_of_noReset noReset h
  exact turn.streamsFlow

/-- Settles O51: with both agents halted no turn but a reset moves a register or a port of the block. -/
theorem doneCallChangesNothing : Obligations.DoneCallChangesNothing := by
  intro s hd
  obtain ⟨hf, hp⟩ := (done_eq_true_iff s).1 hd
  refine ⟨pins_of_done hf hp, fun ordered => (ordered.2.2 hp).2, fun t noReset h => ?_⟩
  obtain ⟨rest, turn⟩ := step_turn_of_noReset noReset h
  obtain ⟨fe, pu, kOut, cOut, pOut, sIn⟩ := turn.of_done hf hp
  refine ⟨fun ordered => ((turn.deliveryOrdered ordered).2.2 ?_).2, fe, pu, kOut, cOut, pOut, sIn, statusRead_of_registers_eq fe pu,
    ?_, ?_⟩
  · rw [pu]; exact hp
  · rw [done_eq_true_iff, fe, pu]; exact ⟨hf, hp⟩
  · simp only [result, fe, pu]

end Sys2Proof.Proofs.OtherFamily
end

section
/-! PROOFS. The order of turns (`20_memory.md` R83) and the end of a call (`70_reset_and_hazards.md` R298). FE reads nothing that PU
writes, and from the commit on PU reads nothing that FE writes, so their turns commute; and of the turns of the default order each
either takes an S token, ends INFL, or brings PU on. -/

namespace Sys2Proof.Machine
open Sys2Proof.Safety

variable {s t a b e : State}

/-! ### Turns of FE and PU commute -/

/-- An enabled turn of FE is the same turn wherever FE stands alike and is enabled (R79). -/
theorem feStep_frontIn (alike : frontIn e s = e) (enabled : feEnabled s = true) (enabled' : feEnabled e = true)
    (hlb : e.lbBytes = s.lbBytes) (h : feStep s = .next t) : feStep e = .next (frontIn e t) := by
  obtain ⟨tok, more, hs, accepts⟩ := (feEnabled_iff s).1 enabled
  rw [feStep_of_enabled enabled] at h
  rw [feStep_of_enabled enabled', ← alike, feTake_frontIn hlb ((feAccepts_iff s tok).1 accepts).1 hs h]
  rfl

theorem not_halted_of_feEnabled (enabled : feEnabled s = true) : s.fe.fst ≠ .halt := by
  obtain ⟨tok, -, -, accepts⟩ := (feEnabled_iff s).1 enabled
  exact ((feAccepts_iff s tok).1 accepts).1

/-- Where both agents are enabled the descriptor is committed: FE is running, so PU cannot have started without one. -/
theorem descValid_of_both_enabled (inv : Inv s) (fe : feEnabled s = true) (pu : puEnabled s = true) : s.fe.descValid = true := by
  have running := not_halted_of_feEnabled fe
  by_cases hw : s.pu.pst = .wait
  · simpa [puEnabled, hw, running] using pu
  · exact (((inv_iff s).1 inv).2.started hw).resolve_right running

/-- What PU reads of FE is committed. -/
theorem rowShape_eq_of_descriptorOnly (fe : descriptorOnly t.fe = descriptorOnly s.fe) (lbBytes : t.lbBytes = s.lbBytes) :
    rowShape t = rowShape s := by
  obtain ⟨⟨-, height, bitDepth, -, -, -, -, -, bpp, bps⟩, -⟩ := descriptorKept_of_descriptorOnly fe
  simp only [rowShape, lbBytes, height, bitDepth, bpp, bps]

/-- The turns of both agents, in either order. -/
theorem feStep_puStep_commute (inv : Inv s) (fe : feEnabled s = true) (pu : puEnabled s = true) (ha : feStep s = .next a)
    (hb : puStep s = .next b) (turns : List Event) :
    step { s with sched := .fe :: .pu :: turns } = .next (frontIn { s with sched := .pu :: turns } a) ∧
      step (frontIn { s with sched := .pu :: turns } a) = .next (planeIn (frontIn { s with sched := turns } a) [] b) ∧
      step { s with sched := .pu :: .fe :: turns } = .next (planeIn { s with sched := .fe :: turns } [] b) ∧
      step (planeIn { s with sched := .fe :: turns } [] b) = .next (planeIn (frontIn { s with sched := turns } a) [] b) := by
  have valid := descValid_of_both_enabled inv fe pu
  have committed : descriptorOnly a.fe = descriptorOnly s.fe := (feStep_move ha).keeps_committed ((inv_iff s).1 inv).1 valid
  have valid' : a.fe.descValid = true := (congrArg (·.descValid) committed).trans valid
  have plane : ∀ {u : State}, planeIn u [] s = u → u.fe.descValid = true → rowShape u = rowShape s → u.pReady = s.pReady →
      puStep u = .next (planeIn u [] b) := by
    intro u alike desc shape ready
    have turn := puStep_planeIn (later := []) (fun _ => ⟨valid, desc⟩) pu hb shape fun h => ready.trans h
    rwa [alike] at turn
  have alike : ∀ {u : State}, u.pu = s.pu → u.zIn = s.zIn → u.pOut = s.pOut → planeIn u [] s = u := by
    intro u pu zIn pOut
    rw [planeIn, List.append_nil, ← pu, ← zIn, ← pOut]
  have front : ∀ {u : State}, frontIn u s = u → feEnabled u = true → u.lbBytes = s.lbBytes → feStep u = .next (frontIn u a) :=
    fun alike enabled hlb => feStep_frontIn alike fe enabled hlb ha
  exact ⟨front (u := { s with sched := .pu :: turns }) rfl fe rfl,
    plane (u := frontIn { s with sched := turns } a) (alike rfl rfl rfl) valid' (rowShape_eq_of_descriptorOnly committed rfl) rfl,
    plane (u := { s with sched := .fe :: turns }) (alike rfl rfl rfl) valid rfl rfl,
    front (u := planeIn { s with sched := turns } [] b) rfl fe rfl⟩

/-- A run from a step that answers. -/
theorem coreRun_of_step (n : Nat) (h : step s = .next t) : Host.Core.run Sys2Proof.core (n + 1) s = Host.Core.run Sys2Proof.core n t := by
  rw [coreRun_succ, h]
  rfl

/-! ### A call under the default order -/

/-- Once INFL has ended, PU has its end token still to come, or has taken it. -/
def EndOwed (s : State) : Prop := s.infl.ended = true → s.pu.pst = .halt ∨ ∃ z ∈ s.zIn, ZToken.ends z = true

/-- What holds all through a call under the default order with the sinks ready. -/
structure DefaultCall (lb : Nat) (bs : List Byte) (s : State) : Prop where
  inv : Inv s
  call : CallInv lb bs s
  kReady : s.kReady = true
  cReady : s.cReady = true
  pReady : s.pReady = true
  sched : s.sched = []
  notSent : s.infl.ended = false → s.infl.sent = []
  endOwed : EndOwed s

/-- What FE and INFL have still to do, and what PU has to do between two of their turns. -/
def callWork (s : State) : Nat × Nat :=
  (s.sIn.length + (!s.infl.ended).toNat, (decide (s.pu.pst = .wait)).toNat + s.zIn.length)

/-- Less work, for FE and INFL or, with theirs the same, for PU. -/
def LessWork (t s : State) : Prop := Prod.Lex (· < ·) (· < ·) (callWork t) (callWork s)

variable {lb : Nat} {bs : List Byte}

theorem callStart_defaultCall (lb : Nat) (bs : List Byte) : DefaultCall lb bs (callStart lb bs []) where
  inv := inv_of_reset rfl rfl rfl rfl rfl ⟨rfl, rfl, fun _ h => (nomatch h), fun _ h => nomatch h⟩
  call := callStart_callInv lb bs fun _ h => nomatch h
  kReady := rfl
  cReady := rfl
  pReady := rfl
  sched := rfl
  notSent _ := rfl
  endOwed h := nomatch h

/-- Until FE halts it is enabled. -/
theorem DefaultCall.feEnabled_of_running (h : DefaultCall lb bs s) (hf : s.fe.fst ≠ .halt) : feEnabled s = true := by
  obtain ⟨rest, ⟨p, -⟩ | ⟨halted, -⟩⟩ := h.call.front.progress
  · have offered : ∃ tok more, s.sIn = tok :: more := by
      have sIn : s.sIn = presentInput rest true := p.sIn
      cases rest with
      | nil => exact ⟨_, _, sIn⟩
      | cons b rest => exact ⟨_, _, sIn⟩
    obtain ⟨tok, more, hs⟩ := offered
    exact (feEnabled_iff s).2 ⟨tok, more, hs, (feAccepts_iff s tok).2 ⟨hf, fun _ => h.kReady, fun _ => h.cReady⟩⟩
  · exact absurd halted hf

/-- Where no agent is enabled the call is done. -/
theorem DefaultCall.done_of_idle (h : DefaultCall lb bs s) (fe : ¬ feEnabled s = true) (pu : ¬ puEnabled s = true)
    (infl : ¬ inflEnabled s = true) : done s = true := by
  have hf : s.fe.fst = .halt := by_contra fun hf => fe (h.feEnabled_of_running hf)
  refine (done_eq_true_iff s).2 ⟨hf, by_contra fun hp => ?_⟩
  have hc : CToken.cEnd ∈ s.cOut := by
    have ends := h.inv.endEmittedOnce
    rw [EndEmittedOnce, if_pos hf] at ends
    exact List.mem_of_getLast? ends.1
  have ended : s.infl.ended = true := by simpa [inflEnabled, hc] using infl
  have hw : s.pu.pst ≠ .wait := fun hw => pu (by simp [puEnabled, hw, hf])
  obtain ⟨z, mem, -⟩ := (h.endOwed ended).resolve_left hp
  cases hz : s.zIn with
  | nil => rw [hz] at mem; cases mem
  | cons tok more => exact pu ((puEnabled_of_token hw hz).trans ((puAccepts_iff hw).2 ⟨hp, fun _ => h.pReady⟩))

/-- FE takes a token. -/
theorem DefaultCall.after_fe (h : DefaultCall lb bs s) (enabled : feEnabled s = true) (taken : feStep s = .next t) :
    DefaultCall lb bs t ∧ LessWork t s := by
  have frame := feStep_frame taken
  obtain ⟨pu, zIn, -⟩ := feStep_keeps_plane taken
  have infl : t.infl = s.infl := congrArg (·.infl) frame
  refine ⟨⟨feStep_inv h.inv taken, h.call.after_feStep taken, (congrArg (·.kReady) frame).trans h.kReady,
    (congrArg (·.cReady) frame).trans h.cReady, (congrArg (·.pReady) frame).trans h.pReady,
    (congrArg (·.sched) frame).trans h.sched, infl ▸ h.notSent, ?_⟩, ?_⟩
  · rw [EndOwed, infl, pu, zIn]
    exact h.endOwed
  · obtain ⟨tok, more, hs, accepts⟩ := (feEnabled_iff s).1 enabled
    rw [feStep_of_enabled enabled] at taken
    have sIn : t.sIn = s.sIn.tail := (feTake_takes ((feAccepts_iff s tok).1 accepts).1 hs taken).1
    refine .left _ _ ?_
    rw [sIn, hs, infl]
    exact Nat.add_lt_add_right (Nat.lt_succ_self more.length) _

/-- A started PU does not wait again. -/
theorem PuMove.keeps_started (m : PuMove s t) (hw : s.pu.pst ≠ .wait) : t.pu.pst ≠ .wait := by
  cases m with
  | hold | discard => exact hw
  | start hp => exact absurd hp hw
  | select f hp =>
    rw [selectFilter_eq]
    split_ifs <;> simp
  | rowByte x hp =>
    rw [reconstruct_eq]
    cases lastOfRow (popZ s) with
    | true =>
      rw [if_pos rfl]
      split_ifs <;> simp
    | false => simpa using hw
  | reject | cutShort | finish | badDepth | failed => simp [rowsCutShort, rejectFilter]

/-- PU starts, or takes a token. -/
theorem DefaultCall.after_pu (h : DefaultCall lb bs s) (enabled : puEnabled s = true) (taken : puStep s = .next t) :
    DefaultCall lb bs t ∧ LessWork t s := by
  have frame := puStep_frame taken
  have infl : t.infl = s.infl := congrArg (·.infl) frame
  have sIn := (puStep_keeps_front taken).2.1
  have kept : EndOwed t → DefaultCall lb bs t := fun owed =>
    ⟨puStep_inv h.inv taken, h.call.after_puStep taken, (congrArg (·.kReady) frame).trans h.kReady,
      (congrArg (·.cReady) frame).trans h.cReady, (congrArg (·.pReady) frame).trans h.pReady,
      (congrArg (·.sched) frame).trans h.sched, infl ▸ h.notSent, owed⟩
  have less : (decide (t.pu.pst = .wait)).toNat + t.zIn.length < (decide (s.pu.pst = .wait)).toNat + s.zIn.length → LessWork t s := by
    intro less
    rw [LessWork, callWork, sIn, infl]
    exact .right _ less
  by_cases hw : s.pu.pst = .wait
  · obtain rfl := Host.Outcome.next.inj ((puStep_wait hw).symm.trans taken)
    have started : (startStep s).pu.pst ≠ .wait ∧ (startStep s).zIn = s.zIn := by
      simp only [puEnabled, hw, if_true, Bool.or_eq_true, decide_eq_true_eq] at enabled
      unfold startStep
      split_ifs with hd hheight hf
      · exact ⟨by simp, rfl⟩
      · exact ⟨by simp, rfl⟩
      · exact ⟨by simp, rfl⟩
      · exact (enabled.elim hd hf).elim
    obtain ⟨pst, zIn⟩ := started
    refine ⟨kept fun ended => ?_, less (by simp [hw, pst, zIn])⟩
    rw [zIn]
    exact .inr ((h.endOwed (infl ▸ ended)).resolve_left (by simp [hw]))
  · obtain ⟨hh, tok, more, hz, accepts⟩ := puEnabled_cons hw enabled
    have takes := puStep_takes hw hz accepts taken
    refine ⟨kept fun ended => ?_, less ?_⟩
    · obtain ⟨z, mem, hends⟩ := (h.endOwed (infl ▸ ended)).resolve_left hh
      rw [hz] at mem
      rcases List.mem_cons.1 mem with rfl | mem
      · exact .inl (takes.halts.2 hends)
      · exact .inr ⟨z, takes.zIn ▸ mem, hends⟩
    · have pst := (puStep_move taken).keeps_started hw
      simp [takes.zIn, hz, hw, pst]

/-- INFL delivers all it owes. -/
theorem DefaultCall.after_infl (h : DefaultCall lb bs s) (enabled : inflEnabled s = true) :
    ∃ t, inflStep s = .next t ∧ DefaultCall lb bs t ∧ LessWork t s := by
  have hi : s.infl.ended = false := by
    simp only [inflEnabled, Bool.and_eq_true, Bool.not_eq_true'] at enabled
    exact enabled.2
  have delivers : ∃ bs last, inflStep s = .next (deliverAll bs last s) ∧ ZToken.ends last = true := by
    unfold inflStep
    rw [if_pos enabled, h.notSent hi]
    split
    · exact ⟨_, .zEnd, rfl, rfl⟩
    · exact ⟨_, .zErr, rfl, rfl⟩
  obtain ⟨zs, last, turn, ends⟩ := delivers
  refine ⟨_, turn, ⟨inv_of_same_block h.inv rfl rfl rfl rfl rfl, h.call.after_inflStep turn, h.kReady, h.cReady, h.pReady, h.sched,
    fun running => (nomatch running), fun _ => .inr ⟨last, ?_, ends⟩⟩, .left _ _ ?_⟩
  · exact List.mem_append_right _ List.mem_cons_self
  · rw [hi]
    exact Nat.lt_succ_self s.sIn.length

/-- A step of the call: it is done, or it goes on with less work. -/
theorem DefaultCall.step (h : DefaultCall lb bs s) : done s = true ∨ ∃ t, step s = .next t ∧ DefaultCall lb bs t ∧ LessWork t s := by
  have turn : Machine.step s = defaultTurn s := by rw [Machine.step, takeTurn, h.sched]
  rw [turn, defaultTurn]
  split_ifs with fe pu infl
  · obtain ⟨t, taken⟩ := feStep_answers h.inv
    exact .inr ⟨t, taken, h.after_fe fe taken⟩
  · obtain ⟨t, taken⟩ := puStep_answers h.inv
    exact .inr ⟨t, taken, h.after_pu pu taken⟩
  · exact .inr (h.after_infl infl)
  · exact .inl (h.done_of_idle fe pu infl)

theorem DefaultCall.finishes {s : State} (h : DefaultCall lb bs s) : ∃ n t, Host.Core.run Sys2Proof.core n s = .next t ∧ done t = true := by
  rcases h.step with hd | ⟨t, taken, next, less⟩
  · exact ⟨0, s, rfl, hd⟩
  · obtain ⟨n, u, run, hd⟩ := next.finishes
    exact ⟨n + 1, u, (coreRun_of_step n taken).trans run, hd⟩
termination_by callWork s
decreasing_by exact less

end Sys2Proof.Machine

namespace Sys2Proof.Proofs.OtherFamily
open Sys2Proof.Machine Sys2Proof.Safety

/-- Settles O50: both orders end with FE and its streams as FE's turn leaves them, and PU and its streams as PU's turn does. -/
theorem enabledAgentStepsCommute : Obligations.EnabledAgentStepsCommute := by
  intro s turns inv fe pu
  obtain ⟨a, ha⟩ := feStep_answers inv
  obtain ⟨b, hb⟩ := puStep_answers inv
  obtain ⟨front, thenPlane, plane, thenFront⟩ := feStep_puStep_commute inv fe pu ha hb turns
  exact ⟨_, (coreRun_of_step 1 front).trans (coreRun_of_step 0 thenPlane), (coreRun_of_step 1 plane).trans (coreRun_of_step 0 thenFront),
    rfl⟩

/-- Settles O60: every step of a call that is not done leaves less work for its agents. -/
theorem everyFiniteCallReachesDone : Obligations.EveryFiniteCallReachesDone := fun lb bs => (callStart_defaultCall lb bs).finishes

end Sys2Proof.Proofs.OtherFamily
end

section
/-! PROOFS. What the instructions leave unchanged, and what the forward rows compute. A chunk row that is not in progress holds; in
progress it is FE's own step on the token offered, or the selection of its chunk. -/

namespace Sys2Proof.Machine
open Sys2Proof.Safety

variable {s t u : State} {b : Byte}

/-! ### Steps of the front end -/

theorem kept_outside_front (h : t = frontIn s u) :
    EnvironmentKept s t ∧ t.pu = s.pu ∧ t.pOut = s.pOut ∧ t.zIn = s.zIn := by
  subst h
  exact ⟨⟨rfl, rfl, rfl, rfl, rfl, rfl, rfl, rfl⟩, rfl, rfl, rfl⟩

/-- The line buffers are registers of PU. -/
theorem buffers_of_pu_eq (h : t.pu = s.pu) (a : Nat) :
    LineBuffer.read t.pu.cur a = LineBuffer.read s.pu.cur a ∧ LineBuffer.read t.pu.prev a = LineBuffer.read s.pu.prev a := by
  rw [h]
  exact ⟨rfl, rfl⟩

/-- SIG holds, rejects the token on offer, or goes on (R131, R132). -/
theorem execSig_cases (h : execSig s = .next t) :
    t = s ∨ (∃ tok more, s.sIn = tok :: more ∧ t = rejectSignature (popS s)) ∨ t = enterField .len (popS s) ∨ t = nextByte (popS s) := by
  cases hf : s.fe.fst with
  | sig =>
    cases hs : s.sIn with
    | nil =>
      simp only [execSig, hf, hs] at h
      exact .inl (Host.Outcome.next.inj h).symm
    | cons tok more =>
      cases tok with
      | eos =>
        rw [execSig_eos hf hs] at h
        exact .inr (.inl ⟨_, _, rfl, (Host.Outcome.next.inj h).symm⟩)
      | byte b =>
        have hc := feTake_sig_in_field hf hs (by rw [feTake, hf]; exact h)
        rw [execSig_byte hf hc hs] at h
        cases h
        split_ifs
        · exact .inr (.inr (.inl rfl))
        · exact .inr (.inr (.inr rfl))
        · exact .inr (.inl ⟨_, _, rfl, rfl⟩)
  | len | type | data | trail | halt =>
    simp only [execSig, hf] at h
    exact .inl (Host.Outcome.next.inj h).symm

/-- SIG moves FE's position, with a token of each of its streams, and may record `BadSignature` as FE halts. -/
theorem execSig_frame (h : execSig s = .next t) :
    ∃ sIn cOut fst cnt ferr, t = { s with sIn := sIn, cOut := cOut, fe := { s.fe with fst := fst, cnt := cnt, ferr := ferr } } ∧
      (ferr = s.fe.ferr ∨ ferr = .badSignature ∧ fst = .halt) := by
  rcases execSig_cases h with rfl | ⟨tok, more, hs, rfl⟩ | rfl | rfl
  · exact ⟨_, _, _, _, _, rfl, .inl rfl⟩
  · exact ⟨_, _, _, _, _, rejectSignature_popS_eq hs, .inr ⟨rfl, rfl⟩⟩
  · exact ⟨_, _, _, _, _, rfl, .inl rfl⟩
  · exact ⟨_, _, _, _, _, rfl, .inl rfl⟩

/-! ### Chunk rows -/

/-- `LEN` and `TYPE` take bytes in their own fields alone. -/
theorem FeMove.keeps_header (m : FeMove s t) (hl : s.fe.fst ≠ .len) (ht : s.fe.fst ≠ .type) :
    t.fe.len = s.fe.len ∧ t.fe.type = s.fe.type := by
  have halted : ∀ u : State, (haltFE u).fe.len = u.fe.len ∧ (haltFE u).fe.type = u.fe.type := fun u => by rw [haltFE_eq]; exact ⟨rfl, rfl⟩
  cases m with
  | sigReject | truncate | trailEnd => exact halted _
  | lenEnd hf | lenDone _ hf | lenNext _ hf => exact absurd hf hl
  | typeNext _ hf | select _ hf => exact absurd hf ht
  | payOpaque | payIdat | payIhdr => rw [afterPayload_eq]; simp
  | payCommit b =>
    have framing := framerPart_committed (storeIhdrByte 12 b (emitK (.pay b) (popS s)))
    simp only [framerPart, Prod.mk.injEq] at framing
    obtain ⟨⟨-, -, len, type, -⟩, -⟩ := framing
    rw [afterPayload_eq]
    simp [len, type]
  | hold | sigDone | sigNext | trailNext | trailDone => exact ⟨rfl, rfl⟩

/-- `TRL` takes bytes in its own field alone. -/
theorem FeMove.keeps_trl (m : FeMove s t) (hf : s.fe.fst ≠ .trail) : t.fe.trl = s.fe.trl := by
  have halted : ∀ u : State, (haltFE u).fe.trl = u.fe.trl := fun u => by rw [haltFE_eq]
  cases m with
  | sigReject | lenEnd | truncate => exact halted _
  | select b =>
    have framing := framerPart_selectChunk s.fe.len (shiftIn s.fe.type b) (classOf (shiftIn s.fe.type b)) (shiftType b (popS s))
    simp only [framerPart, Prod.mk.injEq] at framing
    obtain ⟨⟨-, -, -, -, trl, -⟩, -⟩ := framing
    exact trl
  | payOpaque | payIdat | payIhdr => rw [afterPayload_eq]; simp
  | payCommit b =>
    have framing := framerPart_committed (storeIhdrByte 12 b (emitK (.pay b) (popS s)))
    simp only [framerPart, Prod.mk.injEq] at framing
    obtain ⟨⟨-, -, -, -, trl, -⟩, -⟩ := framing
    rw [afterPayload_eq]
    simp [trl]
  | trailNext _ hf' | trailDone _ hf' | trailEnd _ hf' => exact absurd hf' hf
  | hold | sigDone | sigNext | lenDone | lenNext | typeNext => rfl

/-- Port C carries `CEnd` at the halt, and payload bytes of an `IDAT` that layer D forwards. -/
theorem FeMove.keeps_cOut (m : FeMove s t) (h : classOf s.fe.type = .idat → s.fe.fst = .data → s.fe.derr ≠ .ok)
    (ht : t.fe.fst ≠ .halt) : t.cOut = s.cOut := by
  cases m with
  | sigReject | lenEnd | truncate | trailEnd => exact absurd haltFE_fst ht
  | select b =>
    have framing := framerPart_selectChunk s.fe.len (shiftIn s.fe.type b) (classOf (shiftIn s.fe.type b)) (shiftType b (popS s))
    simp only [framerPart, Prod.mk.injEq] at framing
    obtain ⟨-, -, -, cOut, -⟩ := framing
    exact cOut
  | payOpaque | payIhdr => simp
  | payIdat b hf hd hc => exact absurd hd (h hc hf)
  | payCommit b =>
    have framing := framerPart_committed (storeIhdrByte 12 b (emitK (.pay b) (popS s)))
    simp only [framerPart, Prod.mk.injEq] at framing
    obtain ⟨-, -, -, cOut, -⟩ := framing
    rw [afterPayload_cOut, cOut]
    simp
  | hold | sigDone | sigNext | lenDone | lenNext | typeNext | trailNext | trailDone => rfl

/-- In a chunk `FERR` changes at the end of the input alone. -/
theorem feTake_chunk_ferr {tok : SToken} {more : List SToken} (hf : s.fe.fst = .data ∨ s.fe.fst = .trail) (hs : s.sIn = tok :: more)
    (h : feTake s = .next t) :
    t.fe.ferr = s.fe.ferr ∨ t.fe.ferr = .truncated ∧ t.fe.fst = .halt ∧ ∃ more, s.sIn = .eos :: more := by
  cases tok with
  | eos =>
    have truncated : endOfInput s = truncateChunk (popS s) := by rcases hf with hf | hf <;> simp only [endOfInput, hf]
    rw [feTake_eos hs, truncated, truncateChunk_popS_eq hs] at h
    cases h
    exact .inr ⟨rfl, rfl, more, hs⟩
  | byte b =>
    refine .inl ?_
    rcases hf with hf | hf
    · obtain ⟨u, rfl, -, framing⟩ := feTake_data_cases hf hs h
      simp only [framerPart, Prod.mk.injEq] at framing
      obtain ⟨⟨-, -, -, -, -, ferr⟩, -⟩ := framing
      rw [afterPayload_eq]
      exact ferr
    · rw [feTake_trail_byte hf hs] at h
      cases h
      split_ifs <;> simp

/-- What a chunk row of a class leaves of the front end (R135 to R140). -/
structure ChunkKept (cls : ChunkClass) (s t : State) : Prop where
  frame : t = frontIn s t
  header : s.fe.fst ≠ .type → t.fe.len = s.fe.len ∧ t.fe.type = s.fe.type
  trl : s.fe.fst ≠ .trail → t.fe.trl = s.fe.trl
  descriptor : (cls = .ihdr → s.fe.fst = .data → s.fe.derr ≠ .ok) → descriptorOnly t.fe = descriptorOnly s.fe
  ferr : t.fe.ferr = s.fe.ferr ∨ t.fe.ferr = .truncated ∧ t.fe.fst = .halt ∧ ∃ more, s.sIn = .eos :: more
  derr : s.fe.derr ≠ .ok → t.fe.derr = s.fe.derr
  cOut : (cls = .idat → s.fe.fst = .data → s.fe.derr ≠ .ok) → t.fe.fst ≠ .halt → t.cOut = s.cOut
  elsewhere : s.fe.fst = .sig ∨ s.fe.fst = .len ∨ s.fe.fst = .halt → t = s

theorem chunkKept_refl (cls : ChunkClass) (s : State) : ChunkKept cls s s :=
  ⟨rfl, fun _ => ⟨rfl, rfl⟩, fun _ => rfl, fun _ => rfl, .inl rfl, fun _ => rfl, fun _ _ => rfl, fun _ => rfl⟩

theorem selectChunk_kept (cls : ChunkClass) (n tag : Word32) (hf : s.fe.fst = .type) :
    ChunkKept cls s (selectChunk n tag (headerAction cls) s) := by
  have framing := framerPart_selectChunk n tag cls s
  simp only [framerPart, Prod.mk.injEq] at framing
  obtain ⟨⟨-, -, -, -, trl, ferr⟩, -, -, cOut, -⟩ := framing
  refine ⟨selectChunk_frontIn n tag cls s s, absurd hf, fun _ => trl, fun _ => ?_, .inl ferr, fun hd => ?_, fun _ _ => cOut,
    fun h => ?_⟩
  · rw [selectChunk_eq]
    by_cases hd : s.fe.derr = .ok
    · rw [if_pos hd]
      exact descriptorOnly_headerAction ..
    · rw [if_neg hd]
      rfl
  · rw [selectChunk_eq, if_neg hd]
    rfl
  · simp [hf] at h

/-- Inside a chunk the row of the chunk's class is FE's step. -/
theorem feTake_kept {tok : SToken} {more : List SToken} (hf : s.fe.fst = .data ∨ s.fe.fst = .trail) (hs : s.sIn = tok :: more)
    (h : feTake s = .next t) : ChunkKept (classOf s.fe.type) s t := by
  have move := feTake_move h
  have place : s.fe.fst ≠ .sig ∧ s.fe.fst ≠ .len ∧ s.fe.fst ≠ .type ∧ s.fe.fst ≠ .halt := by rcases hf with hf | hf <;> simp [hf]
  obtain ⟨notSig, notLen, notType, notHalt⟩ := place
  exact ⟨feTake_frame notHalt hs h, fun _ => move.keeps_header notLen notType, move.keeps_trl,
    fun idle => move.keeps_descriptor fun hd hok hc => idle hc hd hok, feTake_chunk_ferr hf hs h, move.keeps_derr,
    fun idle => move.keeps_cOut idle, fun out => (out.elim notSig (·.elim notLen notHalt)).elim⟩

theorem payloadStep_nil (act : Byte → State → Outcome) (hs : s.sIn = []) : payloadStep act s = .next s := by
  simp only [payloadStep, hs]

theorem trailingStep_nil (isEnd : Bool) (hs : s.sIn = []) : trailingStep isEnd s = .next s := by
  simp only [trailingStep, hs]

theorem chunkStep_kept {cls : ChunkClass} {n tag : Word32}
    (h : chunkStep cls n tag (headerAction cls) (payloadAction cls) s = .next t) : ChunkKept cls s t := by
  have holds : chunkStep cls n tag (headerAction cls) (payloadAction cls) s = .next s → ChunkKept cls s t := by
    intro same
    obtain rfl := Host.Outcome.next.inj (same.symm.trans h)
    exact chunkKept_refl ..
  have step : (s.fe.fst = .data ∨ s.fe.fst = .trail) → classOf s.fe.type = cls →
      chunkStep cls n tag (headerAction cls) (payloadAction cls) s = feTake s → (s.sIn = [] → feTake s = .next s) → ChunkKept cls s t := by
    intro hf hc same idle
    cases hs : s.sIn with
    | nil => exact holds (same.trans (idle hs))
    | cons tok more => exact hc ▸ feTake_kept hf hs (same.symm.trans h)
  cases hf : s.fe.fst with
  | sig | len | halt => exact holds (by simp only [chunkStep, hf])
  | type =>
    by_cases h3 : s.fe.cnt = 3
    · obtain rfl := Host.Outcome.next.inj ((chunkStep_select _ _ _ _ _ hf h3).symm.trans h)
      exact selectChunk_kept cls n tag hf
    · exact holds (by simp only [chunkStep, hf, if_neg h3])
  | data =>
    by_cases hc : classOf s.fe.type = cls
    · subst hc
      exact step (.inl hf) rfl ((chunkStep_data _ _ _ _ hf rfl).trans (feTake_data hf).symm) fun hs =>
        (feTake_data hf).trans (payloadStep_nil _ hs)
    · exact holds (by simp only [chunkStep, hf, if_neg hc])
  | trail =>
    by_cases hc : classOf s.fe.type = cls
    · subst hc
      exact step (.inr hf) rfl ((chunkStep_trail _ _ _ _ hf rfl).trans (feTake_trail hf).symm) fun hs =>
        (feTake_trail hf).trans (trailingStep_nil _ hs)
    · exact holds (by simp only [chunkStep, hf, if_neg hc])

/-- A chunk row is the chunk step of its class. -/
theorem exec_chunkRow {n tag : Word32} {i : Instr} (h : i ∈ [Instr.ihdr n, .idat n, .iend n, .plte n, .other n tag]) :
    ∃ cls t, (∀ s, exec i s = chunkStep cls n t (headerAction cls) (payloadAction cls) s) ∧ (cls = .ihdr → i = .ihdr n) ∧
      (cls = .idat → i = .idat n) := by
  simp only [List.mem_cons, List.not_mem_nil, or_false] at h
  rcases h with rfl | rfl | rfl | rfl | rfl
  · exact ⟨.ihdr, ihdrTag, fun _ => rfl, fun _ => rfl, fun h => nomatch h⟩
  · exact ⟨.idat, idatTag, fun _ => rfl, fun h => (nomatch h), fun _ => rfl⟩
  · exact ⟨.iend, iendTag, fun _ => rfl, fun h => (nomatch h), fun h => nomatch h⟩
  · exact ⟨.plte, plteTag, fun _ => rfl, fun h => (nomatch h), fun h => nomatch h⟩
  · exact ⟨.other, tag, fun _ => rfl, fun h => (nomatch h), fun h => nomatch h⟩

/-! ### Colour rows -/

theorem colourRow_of_mem_rows {i : Instr} (h : i ∈ [Instr.gray, .rgb, .indexed, .graya, .rgba]) : ∃ c : ColourType, i = c.instr := by
  simp only [List.mem_cons, List.not_mem_nil, or_false] at h
  rcases h with rfl | rfl | rfl | rfl | rfl
  · exact ⟨.gray, rfl⟩
  · exact ⟨.rgb, rfl⟩
  · exact ⟨.indexed, rfl⟩
  · exact ⟨.graya, rfl⟩
  · exact ⟨.rgba, rfl⟩

/-- The commit writes the derived registers, `DESC_VALID` and `DERR`. -/
theorem commitChannels_frame (c : Nat) (s : State) :
    commitChannels c s = { s with
      fe := { s.fe with
        ch := (commitChannels c s).fe.ch, bpp := (commitChannels c s).fe.bpp, bps := (commitChannels c s).fe.bps
        descValid := (commitChannels c s).fe.descValid, derr := (commitChannels c s).fe.derr } } := by
  rcases commitChannels_cases c s with ⟨-, h⟩ | ⟨-, -, h⟩ | ⟨-, -, h⟩ <;> rw [h] <;> rfl

/-! ### Filter rows -/

theorem filterRow_of_mem_rows {i : Instr} (h : i ∈ [Instr.none, .sub, .up, .avg, .paeth]) : ∃ f : FilterType, i = f.instr := by
  simp only [List.mem_cons, List.not_mem_nil, or_false] at h
  rcases h with rfl | rfl | rfl | rfl | rfl
  · exact ⟨.none, rfl⟩
  · exact ⟨.sub, rfl⟩
  · exact ⟨.up, rfl⟩
  · exact ⟨.avg, rfl⟩
  · exact ⟨.paeth, rfl⟩

theorem kept_outside_plane {later : List ZToken} (h : t = planeIn s later u) :
    EnvironmentKept s t ∧ t.fe = s.fe ∧ t.sIn = s.sIn ∧ t.kOut = s.kOut ∧ t.cOut = s.cOut := by
  subst h
  exact ⟨⟨rfl, rfl, rfl, rfl, rfl, rfl, rfl, rfl⟩, rfl, rfl, rfl, rfl⟩

theorem selectFilter_frame (f : FilterType) (s : State) : ∃ pu : PlaneUnit, selectFilter f s = { s with pu := pu } ∧
    pu.perr = s.pu.perr ∧ pu.cur = s.pu.cur ∧ pu.prev = s.pu.prev := by
  rw [selectFilter_eq]
  split_ifs <;> exact ⟨_, rfl, rfl, rfl, rfl⟩

/-- What a filter row in progress leaves of PU (R204, R206). -/
structure RowKept (s t : State) : Prop where
  frame : t = planeIn s [] t
  ft : t.pu.ft = s.pu.ft
  perr : t.pu.perr = s.pu.perr ∨ ∃ more, s.zIn = .zEnd :: more ∨ s.zIn = .zErr :: more
  cur : ∀ a, a ≠ s.pu.col.toNat → LineBuffer.read t.pu.cur a = LineBuffer.read s.pu.cur a
  prev : ∀ a, s.fe.bps.toNat ≤ a ∨ s.pu.col.toNat + 1 ≠ s.fe.bps.toNat → LineBuffer.read t.pu.prev a = LineBuffer.read s.pu.prev a
  idle : (∀ x more, s.zIn ≠ .byte x :: more) →
    t.pOut = s.pOut ∧ t.pu.cur = s.pu.cur ∧ t.pu.prev = s.pu.prev ∧ t.pu.row = s.pu.row ∧ t.pu.col = s.pu.col

theorem rowKept_refl (s : State) : RowKept s s :=
  ⟨(planeIn_self s).symm, rfl, .inl rfl, fun _ _ => rfl, fun _ _ => rfl, fun _ => ⟨rfl, rfl, rfl, rfl, rfl⟩⟩

theorem rowsCutShort_kept (k : ErrCode) {more : List ZToken} (hz : s.zIn = .zEnd :: more ∨ s.zIn = .zErr :: more) :
    RowKept s (rowsCutShort k (popZ s)) where
  frame := by simp [rowsCutShort, planeIn, setPst]
  ft := rfl
  perr := .inr ⟨more, hz⟩
  cur _ _ := rfl
  prev _ _ := rfl
  idle _ := ⟨rfl, rfl, rfl, rfl, rfl⟩

theorem reconstruct_kept (f : Byte → Neighbours → Byte) {x : Byte} {more : List ZToken} (hw : LineBuffer.wf s.pu.cur = true)
    (hz : s.zIn = .byte x :: more) : RowKept s (reconstruct f x (popZ s)) := by
  have read := reconstruct_read f x (popZ s) hw
  refine ⟨?_, ?_, .inl ?_, fun a ha => ?_, fun a ha => ?_, fun none => absurd hz (none x more)⟩
  · rw [reconstruct_eq]
    simp [planeIn]
  · rw [reconstruct_eq]
    rfl
  · rw [reconstruct_eq]
    rfl
  · exact (read a).1.trans (if_neg ha)
  · refine (read a).2.trans (if_neg fun ⟨last, below⟩ => ?_)
    exact ha.elim (Nat.not_le.2 below) fun inner => inner (of_decide_eq_true last)

theorem rowStep_kept {f : Byte → Neighbours → Byte} (hw : LineBuffer.wf s.pu.cur = true) (h : rowStep f s = .next t) : RowKept s t := by
  rcases rowStep_cases h with ⟨-, rfl⟩ | ⟨x, more, hz, -, rfl⟩ | ⟨more, hz, rfl⟩ | ⟨more, hz, rfl⟩
  · exact rowKept_refl _
  · exact reconstruct_kept f hw hz
  · exact rowsCutShort_kept _ (.inl hz)
  · exact rowsCutShort_kept _ (.inr hz)

/-- A filter row holds, selects itself, or takes a token of its row. -/
theorem filterStep_cases {ft : FilterType} {f : Byte → Neighbours → Byte} (h : filterStep ft f s = .next t) :
    t = s ∨ (s.pu.pst = .filt ∧ t = selectFilter ft s) ∨ (s.pu.pst = .data ∧ rowStep f s = .next t) := by
  unfold filterStep at h
  cases hp : s.pu.pst with
  | filt =>
    rw [hp] at h
    exact .inr (.inl ⟨rfl, (Host.Outcome.next.inj h).symm⟩)
  | data =>
    rw [hp] at h
    simp only at h
    split_ifs at h
    · exact .inr (.inr ⟨rfl, h⟩)
    · exact .inl (Host.Outcome.next.inj h).symm
  | wait | tail | drain | halt =>
    rw [hp] at h
    exact .inl (Host.Outcome.next.inj h).symm

/-! ### Forward rows (R232 to R239) -/

theorem forwardRow_nil (c : Byte) (f : Byte → Neighbours → Byte) (h : s.enc.rows = []) : forwardRow c f s = s := by
  simp only [forwardRow, h]

theorem forwardRow_cons (c : Byte) (f : FilterType) {row : List Byte} {rest : List (List Byte)} (h : s.enc.rows = row :: rest) :
    forwardRow c (filt f) s = { s with
      enc := { s.enc with rows := rest, prev := some row, out := s.enc.out ++ c :: filterRow f row s.enc.prev s.enc.bpp } } := by
  simp only [forwardRow, h]
  rfl

theorem fwdRow_of_mem {i : Instr} {f : FilterType} {c : Byte}
    (h : (i, f, c) ∈ [(Instr.fwdNone, FilterType.none, 0#8), (.fwdSub, .sub, 1#8), (.fwdUp, .up, 2#8), (.fwdAvg, .avg, 3#8),
      (.fwdPaeth, .paeth, 4#8)]) : i = f.fwdInstr ∧ c = f.byte := by
  simp only [List.mem_cons, Prod.mk.injEq, List.not_mem_nil, or_false] at h
  rcases h with ⟨rfl, rfl, rfl⟩ | ⟨rfl, rfl, rfl⟩ | ⟨rfl, rfl, rfl⟩ | ⟨rfl, rfl, rfl⟩ | ⟨rfl, rfl, rfl⟩ <;> exact ⟨rfl, rfl⟩

theorem fwdRow_of_mem_rows {i : Instr} (h : i ∈ [Instr.fwdNone, .fwdSub, .fwdUp, .fwdAvg, .fwdPaeth]) :
    ∃ f : FilterType, i = f.fwdInstr := by
  simp only [List.mem_cons, List.not_mem_nil, or_false] at h
  rcases h with rfl | rfl | rfl | rfl | rfl
  · exact ⟨.none, rfl⟩
  · exact ⟨.sub, rfl⟩
  · exact ⟨.up, rfl⟩
  · exact ⟨.avg, rfl⟩
  · exact ⟨.paeth, rfl⟩

/-- A forward byte is the raw byte less its predictor, modulo 256 (R232 to R236). -/
theorem toNat_filt (f : FilterType) (x : Byte) (n : Neighbours) :
    ((filt f x n).toNat : Int) = ((x.toNat : Int) - predictor f n.a.toNat n.b.toNat n.c.toNat) % 256 := by
  have small := x.isLt
  have le := predictor_le f n
  rw [filt_eq_sub, BitVec.toNat_sub, toNat_predicted]
  omega

theorem filterRow_getD (f : FilterType) (row : List Byte) (prev : Option (List Byte)) (bpp : Nat) {k : Nat} (hk : k < row.length) :
    (filterRow f row prev bpp).getD k 0 = filteredByte f row prev bpp k := by
  rw [filterRow_eq, List.getD_eq_getElem _ _ (by simpa using hk), List.getElem_map, List.getElem_range', Nat.one_mul, Nat.zero_add]

/-- The values of the raw neighbours of byte `k` (R237). -/
theorem toNat_listNeighbours (row : List Byte) (prev : Option (List Byte)) (bpp k : Nat) :
    let up := fun (j : Nat) =>
      match prev with
      | some p => (p.getD j 0).toNat
      | Option.none => 0
    (listNeighbours row prev bpp k).a.toNat = (if bpp ≤ k then (row.getD (k - bpp) 0).toNat else 0) ∧
      (listNeighbours row prev bpp k).b.toNat = up k ∧
      (listNeighbours row prev bpp k).c.toNat = if bpp ≤ k then up (k - bpp) else 0 := by
  cases prev with
  | none | some p =>
    unfold listNeighbours
    split_ifs <;> exact ⟨rfl, rfl, rfl⟩

end Sys2Proof.Machine

namespace Sys2Proof.Proofs.OtherFamily
open Sys2Proof.Machine Sys2Proof.Safety

/-- Settles O35: SIG moves FE's position, or halts FE with `BadSignature`. -/
theorem signatureFrame : Obligations.SignatureFrame := by
  intro s t h
  obtain ⟨sIn, cOut, fst, cnt, ferr, rfl, code⟩ := execSig_frame h
  exact ⟨⟨rfl, rfl, rfl, rfl, rfl, rfl, rfl, rfl⟩, ⟨rfl, rfl, rfl, rfl, rfl, rfl, rfl, rfl, rfl, rfl⟩, rfl, fun _ => ⟨rfl, rfl⟩, rfl, rfl,
    rfl, rfl, rfl, code, rfl, rfl, rfl⟩

/-- Settles O36: what the chunk step of a class keeps. -/
theorem chunkFrame : Obligations.ChunkFrame := by
  intro n tag i hi s t h
  obtain ⟨cls, tag', meaning, ihdr, idat⟩ := exec_chunkRow hi
  have kept := chunkStep_kept ((meaning s).symm.trans h)
  obtain ⟨env, pu, pOut, zIn⟩ := kept_outside_front kept.frame
  exact ⟨env, pu, buffers_of_pu_eq pu, pOut, zIn, kept.header, kept.trl,
    fun idle => descriptorKept_of_descriptorOnly (kept.descriptor fun hc hf hd => idle ⟨ihdr hc, hf, hd⟩), kept.ferr, kept.derr,
    fun idle => kept.cOut fun hc hf hd => idle ⟨idat hc, hf, hd⟩, kept.elsewhere⟩

/-- Settles O37: a colour row in place is the commit, elsewhere it holds. -/
theorem colourTypeFrame : Obligations.ColourTypeFrame := by
  intro i hi s t h
  obtain ⟨c, rfl⟩ := colourRow_of_mem_rows hi
  rw [exec_colourInstr] at h
  cases h
  by_cases place : atCommit s
  · rw [commitHere, if_pos place]
    have frame := commitChannels_frame (channels c) s
    obtain ⟨-, -, hc, hd⟩ := place
    exact ⟨frame, buffers_of_pu_eq (congrArg (·.pu) frame), absurd hd, absurd hc⟩
  · rw [commitHere, if_neg place]
    exact ⟨rfl, fun _ => ⟨rfl, rfl⟩, fun _ => rfl, fun _ => rfl⟩

/-- Settles O38: a filter row selects itself, takes a token of its row, or holds. -/
theorem filterFrame : Obligations.FilterFrame := by
  intro i hi s t hb h
  obtain ⟨f, rfl⟩ := filterRow_of_mem_rows hi
  rw [exec_filterInstr] at h
  rcases filterStep_cases h with rfl | ⟨hp, rfl⟩ | ⟨hp, row⟩
  · have kept := rowKept_refl t
    exact ⟨⟨rfl, rfl, rfl, rfl, rfl, rfl, rfl, rfl⟩, rfl, rfl, rfl, rfl, fun _ => ⟨rfl, rfl, rfl, fun _ => ⟨rfl, rfl⟩⟩,
      fun _ => ⟨kept.ft, kept.perr, kept.cur, kept.prev, kept.idle⟩, fun _ _ => rfl⟩
  · obtain ⟨pu, same, perr, cur, prev⟩ := selectFilter_frame f s
    rw [same]
    exact ⟨⟨rfl, rfl, rfl, rfl, rfl, rfl, rfl, rfl⟩, rfl, rfl, rfl, rfl,
      fun _ => ⟨rfl, rfl, perr, fun a => ⟨congrArg (LineBuffer.read · a) cur, congrArg (LineBuffer.read · a) prev⟩⟩,
      fun hd => (nomatch hp.symm.trans hd), absurd hp⟩
  · obtain ⟨-, curCanonical, -⟩ := hb
    have kept := rowStep_kept curCanonical row
    obtain ⟨env, fe, sIn, kOut, cOut⟩ := kept_outside_plane kept.frame
    exact ⟨env, fe, sIn, kOut, cOut, fun hf => (nomatch hp.symm.trans hf),
      fun _ => ⟨kept.ft, kept.perr, kept.cur, kept.prev, kept.idle⟩, fun _ hd => absurd hp hd⟩

/-- Settles O39: a forward row appends to its record. -/
theorem forwardFrame : Obligations.ForwardFrame := by
  intro i hi s t h
  obtain ⟨f, rfl⟩ := fwdRow_of_mem_rows hi
  rw [exec_fwdInstr] at h
  cases hr : s.enc.rows with
  | nil =>
    rw [forwardRow_nil _ _ hr] at h
    cases h
    exact ⟨rfl, fun _ => ⟨rfl, rfl⟩, rfl, rfl, emitted_of_eq rfl⟩
  | cons row rest =>
    rw [forwardRow_cons _ f hr] at h
    cases h
    exact ⟨rfl, fun _ => ⟨rfl, rfl⟩, rfl, rfl, _, rfl⟩

/-- Settles O29: each output byte of a forward row is its raw byte less the predictor of its raw neighbours. -/
theorem forwardRowSubtractsThePredictor : Obligations.ForwardRowSubtractsThePredictor := by
  refine ⟨fun i f c hi => ?_, fun c row prev bpp hc => by rw [filter, filterTypeOf_eq_none hc]⟩
  obtain ⟨rfl, rfl⟩ := fwdRow_of_mem hi
  refine ⟨fun s row rest hr => ?_, fun s hr => by rw [exec_fwdInstr, forwardRow_nil _ _ hr]⟩
  refine ⟨filterRow f row s.enc.prev s.enc.bpp, by rw [exec_fwdInstr, forwardRow_cons _ f hr], by rw [filter, filterTypeOf_byte],
    filterRow_length .., fun k hk => ?_⟩
  obtain ⟨a, up, c⟩ := toNat_listNeighbours row s.enc.prev s.enc.bpp k
  have byte := toNat_filt f (row.getD k 0) (listNeighbours row s.enc.prev s.enc.bpp k)
  rw [a, up, c] at byte
  rw [filterRow_getD f row s.enc.prev s.enc.bpp hk]
  exact byte

end Sys2Proof.Proofs.OtherFamily
end

section
/-! PROOFS. From bytes to an instruction that runs (`40_framer.md` R130, R133, R135; `43_plane.md` R200): the rows a decoder answers,
and FE's turns over a header. -/

namespace Sys2Proof.Machine
open Sys2Proof.Safety

variable {s t u : State} {b : Byte} {i : Instr}

/-! ### What the decoder answers -/

theorem headerInstr_of_decode {n tag : Word32} (h : decode .chunkHeader (be32Bytes n ++ be32Bytes tag) = .ok i []) :
    i = headerInstr n tag := by
  have row := decode_header n tag []
  rw [List.append_nil, h] at row
  cases row
  rfl

theorem filterInstr_of_decode (h : decode .filterByte [b] = .ok i []) : ∃ f, filterTypeOf b = some f ∧ i = f.instr := by
  cases hf : filterTypeOf b with
  | none => simp [decode, hf] at h
  | some f => exact ⟨f, rfl, by simpa [decode, hf, eq_comm] using h⟩

theorem fwdInstr_of_decode (h : decode .filterByteEncode [b] = .ok i []) : ∃ f, filterTypeOf b = some f ∧ i = f.fwdInstr := by
  cases hf : filterTypeOf b with
  | none => simp [decode, hf] at h
  | some f => exact ⟨f, rfl, by simpa [decode, hf, eq_comm] using h⟩

theorem shiftIn_ofNat (n : Nat) (b : Byte) : shiftIn (BitVec.ofNat 32 n) b = BitVec.ofNat 32 (n * 256 + b.toNat) := by
  rw [shiftIn_eq_ofNat]
  apply BitVec.eq_of_toNat_eq
  simp [Nat.add_mod, Nat.mul_mod]

/-- Four bytes as a big-endian word (R9). -/
theorem be32_eq_ofNat (b0 b1 b2 b3 : Byte) :
    be32 b0 b1 b2 b3 = BitVec.ofNat 32 (((b0.toNat * 256 + b1.toNat) * 256 + b2.toNat) * 256 + b3.toNat) := by
  have zero : (0 : Word32) = BitVec.ofNat 32 0 := rfl
  rw [← shiftIn_four 0 b0 b1 b2 b3, zero]
  simp only [shiftIn_ofNat, Nat.zero_mul, Nat.zero_add]

/-! ### FE's turns over a header (R133, R135) -/

/-- FE in a length, with this count, the bytes so far and the tokens to come. -/
def atLength (s : State) (c v : Word32) (more : List SToken) : State :=
  { s with sIn := more, fe := { s.fe with fst := .len, cnt := c, len := v } }

/-- FE in a tag, with this count, the bytes so far and the tokens to come. -/
def atTag (s : State) (c v : Word32) (more : List SToken) : State :=
  { s with sIn := more, fe := { s.fe with fst := .type, cnt := c, type := v } }

variable {c v : Word32} {more : List SToken}

theorem feStep_atLength :
    feStep (atLength s c v (.byte b :: more)) = .next
      (if c = 3 then atTag { s with fe := { s.fe with len := shiftIn v b } } 0 s.fe.type more
      else atLength s (c + 1) (shiftIn v b) more) := by
  rw [feStep_silent (by simp [atLength]) rfl rfl rfl, feTake_len_byte rfl rfl]
  rfl

theorem feStep_atTag (hc : c ≠ 3) :
    feStep (atTag s c v (.byte b :: more)) = .next (atTag s (c + 1) (shiftIn v b) more) := by
  rw [feStep_silent (s := atTag s c v (.byte b :: more)) (b := b) (by simp [atTag]) rfl (if_neg hc) rfl, feTake_type_byte rfl rfl]
  exact congrArg _ (if_neg hc)

/-- The fourth type byte runs the instruction of the header. -/
theorem feTake_header (hf : s.fe.fst = .type) (hc : s.fe.cnt = 3) (hs : s.sIn = .byte b :: more) :
    feTake s = exec (headerInstr s.fe.len (shiftIn s.fe.type b)) (shiftType b (popS s)) := by
  simp only [feTake, hf, typeStep, hs, if_pos hc, shiftType_len, popS_fe]
  rfl

theorem feStep_header (hf : s.fe.fst = .type) (hc : s.fe.cnt = 3) (hk : s.kReady = true)
    (hs : s.sIn = .byte b :: more) :
    feStep s = exec (headerInstr s.fe.len (shiftIn s.fe.type b)) (shiftType b (popS s)) := by
  have enabled : feEnabled s = true := by
    rw [feEnabled_cons hs, feAccepts_iff]
    exact ⟨by simp [hf], fun _ => hk, by simp [cOffer, hf]⟩
  rw [feStep_of_enabled enabled, feTake_header hf hc hs]

theorem runFront_succ (n : Nat) (h : feStep s = .next t) : runFront (n + 1) s = runFront n t := by
  rw [runFront, h, andThen_next]

theorem runFront_one (s : State) : runFront 1 s = feStep s := by
  rw [runFront]
  cases feStep s <;> rfl

theorem runFront_add (m n : Nat) (h : runFront m s = .next t) : runFront (m + n) s = runFront n t := by
  induction m generalizing s with
  | zero =>
    cases h
    rw [Nat.zero_add]
  | succ m ih =>
    obtain ⟨u, step, rest⟩ := andThen_eq_next h
    rw [Nat.succ_add, runFront_succ _ step, ih rest]

/-- The four bytes of a length. -/
theorem runFront_length (b0 b1 b2 b3 : Byte) :
    runFront 4 (atLength s 0 v (.byte b0 :: .byte b1 :: .byte b2 :: .byte b3 :: more))
      = .next (atTag { s with fe := { s.fe with len := be32 b0 b1 b2 b3 } } 0 s.fe.type more) := by
  rw [runFront_succ 3 feStep_atLength, if_neg (by decide), runFront_succ 2 feStep_atLength, if_neg (by decide),
    runFront_succ 1 feStep_atLength, if_neg (by decide), runFront_succ 0 feStep_atLength, if_pos (by decide), shiftIn_four]
  rfl

/-- The first three bytes of a tag. -/
theorem runFront_tag (b0 b1 b2 : Byte) :
    runFront 3 (atTag s 0 v (.byte b0 :: .byte b1 :: .byte b2 :: more))
      = .next (atTag s 3 (shiftIn (shiftIn (shiftIn v b0) b1) b2) more) := by
  rw [runFront_succ 2 (feStep_atTag (by decide)), runFront_succ 1 (feStep_atTag (by decide)),
    runFront_succ 0 (feStep_atTag (by decide))]
  rfl

/-! ### Turns (log entry 4) -/

/-- FE's turn, from the schedule or by the default order, is its step on the rest of the schedule. -/
theorem step_of_front_turn {turns : List Event}
    (hu : (s.sched = .fe :: turns ∧ u = { s with sched := turns }) ∨ (s.sched = [] ∧ u = s)) (enabled : feEnabled s = true) :
    step s = feTake u ∧ ∃ rest, u = { s with sched := rest } := by
  rcases hu with ⟨hs, rfl⟩ | ⟨hs, rfl⟩
  · refine ⟨?_, turns, rfl⟩
    rw [step, takeTurn, hs]
    exact feStep_of_enabled (s := { s with sched := turns }) enabled
  · refine ⟨?_, u.sched, rfl⟩
    rw [step, takeTurn, hs]
    exact (if_pos enabled).trans (feStep_of_enabled enabled)

/-- PU's turn. -/
theorem step_of_plane_turn {turns : List Event}
    (hu : (s.sched = .pu :: turns ∧ u = { s with sched := turns }) ∨ (s.sched = [] ∧ feEnabled s = false ∧ u = s))
    (enabled : puEnabled s = true) : step s = puTake u ∧ ∃ rest, u = { s with sched := rest } := by
  rcases hu with ⟨hs, rfl⟩ | ⟨hs, idle, rfl⟩
  · refine ⟨?_, turns, rfl⟩
    rw [step, takeTurn, hs]
    exact if_pos enabled
  · refine ⟨?_, u.sched, rfl⟩
    rw [step, takeTurn, hs]
    exact (if_neg (by simp [idle])).trans ((if_pos enabled).trans (if_pos enabled))

end Sys2Proof.Machine

namespace Sys2Proof.Proofs.OtherFamily
open Sys2Proof.Machine Sys2Proof.Safety

/-- Settles O6: four turns take the length, three the tag, and the eighth runs the instruction of the header. -/
theorem eightHeaderBytesRunTheirInstruction : Obligations.EightHeaderBytesRunTheirInstruction := by
  intro s b0 b1 b2 b3 b4 b5 b6 b7 more i hf hc hk hs h
  have header : i = headerInstr (be32 b0 b1 b2 b3) (be32 b4 b5 b6 b7) := by
    refine headerInstr_of_decode ?_
    rw [be32Bytes_be32, be32Bytes_be32]
    exact h
  have start : s = atLength s 0 s.fe.len (.byte b0 :: .byte b1 :: .byte b2 :: .byte b3 :: .byte b4 :: .byte b5 :: .byte b6 ::
      .byte b7 :: more) := by
    rw [atLength, ← hf, ← hc, ← hs]
  have last := feStep_header (s := atTag { s with fe := { s.fe with len := be32 b0 b1 b2 b3 } } 3
    (shiftIn (shiftIn (shiftIn s.fe.type b4) b5) b6) (.byte b7 :: more)) rfl rfl hk rfl
  have run : runFront 8 s = feStep (atTag { s with fe := { s.fe with len := be32 b0 b1 b2 b3 } } 3
      (shiftIn (shiftIn (shiftIn s.fe.type b4) b5) b6) (.byte b7 :: more)) := by
    conv_lhs => rw [start]
    rw [runFront_add 4 4 (runFront_length b0 b1 b2 b3), runFront_add 3 1 (runFront_tag b4 b5 b6), runFront_one]
  rw [run, last, header, ← be32_eq_ofNat, ← be32_eq_ofNat, ← shiftIn_four s.fe.type b4 b5 b6 b7]
  rfl

/-- Settles O7: the turn is `feStep`, `puStep` or the encoder's, and an enabled one runs what its bytes encode. -/
theorem stepRunsTheDecodedInstruction : Obligations.StepRunsTheDecodedInstruction := by
  intro s u turns i
  refine ⟨fun hu enabled => ?_, fun hu enabled => ?_, fun b hs hu ok some h => ?_⟩
  · obtain ⟨turn, rest, rfl⟩ := step_of_front_turn hu enabled
    refine ⟨fun hf hi => ?_, fun b more hf hc hs h => ?_, fun hf h => ?_⟩
    · rw [turn, feTake, hi]
      simp only [hf]
    · obtain rfl := headerInstr_of_decode h
      rw [turn, feTake_header (s := { s with sched := rest }) hf hc hs]
      simp only [shiftType, popS, hs, shiftIn_eq_ofNat, List.tail_cons]
    · obtain rfl := headerInstr_of_decode h
      rw [turn, feTake]
      rcases hf with hf | hf <;> simp only [hf]
  · obtain ⟨turn, rest, rfl⟩ := step_of_plane_turn hu enabled
    refine ⟨fun b more hp hz h => ?_, fun hp h => ?_⟩
    · obtain ⟨f, hf, rfl⟩ := filterInstr_of_decode h
      rw [turn, puTake]
      simp only [hp, filtStep, hz, hf, popZ, List.tail_cons]
    · obtain ⟨f, hf, rfl⟩ := filterInstr_of_decode h
      obtain rfl := Option.some.inj ((filterTypeOf_byte s.pu.ft).symm.trans hf)
      rw [turn, puTake]
      simp only [hp]
  · obtain ⟨f, hf, rfl⟩ := fwdInstr_of_decode h
    subst hu
    rw [step, takeTurn, hs]
    have running : ¬ (s.enc.err ≠ .ok ∨ s.enc.rows = []) := by simp [ok, some]
    simp only [runEvent, encodeRowStep, if_neg running, hf]

end Sys2Proof.Proofs.OtherFamily
end
